-- ==== Sys2Proof/Word.lean ====
section
/-! DEFINITION. The word types of the block (spec/00_scope.md R9, R10; spec/10_state.md widths). -/
namespace Sys2Proof

/-- A byte is 8 bits (R9). -/
abbrev Byte := BitVec 8

/-- The instruction shift register's width: the widest two-wire word is 12 bits (R9, R34). -/
abbrev WireWord := BitVec 12

/-- The 24-bit flash address the READ command assembles (R9, R105). -/
abbrev Addr24 := BitVec 24

/-- The 16 address bits that reach the target (R64). -/
abbrev Addr16 := BitVec 16

end Sys2Proof
end

