-- ==== Sys2Proof/Config.lean ====
section
/-! DEFINITION. The implementation parameters of spec/00_scope.md R8: constants the source states, the open
parameters as one record with the constraints of R8, and the free values (R43, U8). -/
namespace Sys2Proof

/-- `DISPATCH_MODE` (R8, R217): the Dispatcher runs once per entry into `Complete`, or on every pass that finds it. -/
inductive DispatchMode
  | edge
  | level
  deriving DecidableEq, Repr, Inhabited

/-- The parameters R8 marks OPEN. -/
structure Params where
  actAck : Byte
  actInit : Byte
  actReset : Byte
  actWrite : Byte
  actErase : Byte
  actRead : Byte
  actInfo : Byte
  fpiDeviceErase : Byte
  fpiBlockRead : Byte
  fpiBlockWrite : Byte
  aDeviceId : Byte
  aRevId : Byte
  aFpctl : Byte
  aFpdat : Byte
  busyMask : Byte
  readyMask : Byte
  nPayload : Nat
  nFlash : Nat
  dispatchMode : DispatchMode
  deriving DecidableEq, Repr

/-- The seven action codes `ACT_*` (R92). -/
def Params.actionCodes (p : Params) : List Byte :=
  [p.actAck, p.actInit, p.actReset, p.actWrite, p.actErase, p.actRead, p.actInfo]

/-- The three FPI command bytes (R106). R8 puts no constraint on them. -/
def Params.fpiCodes (p : Params) : List Byte :=
  [p.fpiDeviceErase, p.fpiBlockRead, p.fpiBlockWrite]

/-- Exactly one bit is set (R8, D5). -/
abbrev SingleBit (m : Byte) : Prop := m ≠ 0 ∧ m &&& (m - 1) = 0

/-- The constraints of R8. A configuration that violates one is refused (U4, U14, U16). -/
abbrev Params.Admissible (p : Params) : Prop :=
  p.actionCodes.Nodup ∧ SingleBit p.busyMask ∧ SingleBit p.readyMask ∧ p.readyMask ≠ p.busyMask ∧
    p.nPayload ≤ 255 ∧ 1 ≤ p.nFlash

namespace Config

/-! Values the source states (R8, R97, R108 to R110). -/

def rspAck : Byte := 0x80
def rspInit : Byte := 0x81
def rspReset : Byte := 0x82
def rspWrite : Byte := 0x83
def rspChecksumFail : Byte := 0x43
def rspErase : Byte := 0x84
def rspRead : Byte := 0x85
def rspInfo : Byte := 0x88

/-- `ACK_OK`, the FPI acknowledgment byte (R110). -/
def ackOk : Byte := 0x0D

/-- `ERASE_KEY` (R109). -/
def eraseKey : List Byte := [0xDE, 0xAD, 0xA5]

/-- Byte `i` of the key sequence, the byte that `IDX = i` indexes (R34, R184). -/
def eraseKeyByte (i : Nat) : Byte := eraseKey.getD i 0

/-- `ENABLE_SEQ` (R108): the first, second and third value written to `FPCTL`. -/
def enable1 : Byte := 0x02
def enable2 : Byte := 0x04
def enable3 : Byte := 0x01

/-! Durations in microseconds, the lower bounds that `DELAY` events carry (R8, R309, D6). -/

def tHalf : Nat := 2
def tRstLow : Nat := 25
def tRstHigh : Nat := 3
def tGap : Nat := 2
def tSettle : Nat := 30

/-! Free values. -/

/-- FREE VALUE (log 5): the dispatch mode of the reset state. R8 gives no default and asks that both be admitted. -/
opaque dispatchMode : DispatchMode

/-- FREE VALUE (log 7): what byte `i` of `FB` holds after reset number `epoch` until something writes it (R43, U8). -/
opaque fbReset : Nat → Nat → Byte

/-- FREE VALUE (log 7): what byte `i` of `FL` holds after reset number `epoch` until something writes it (R43, U7, U8). -/
opaque flReset : Nat → Nat → Byte

/-- The defaults of R8 (log 4). -/
def defaults : Params where
  actAck := 0x01
  actInit := 0x02
  actReset := 0x03
  actWrite := 0x04
  actErase := 0x05
  actRead := 0x06
  actInfo := 0x09
  fpiDeviceErase := 0x03
  fpiBlockRead := 0x06
  fpiBlockWrite := 0x07
  aDeviceId := 0x00
  aRevId := 0x01
  aFpctl := 0x02
  aFpdat := 0xB4
  busyMask := 0x02
  readyMask := 0x01
  nPayload := 255
  nFlash := 256
  dispatchMode := dispatchMode

end Config
end Sys2Proof
end

