-- ==== Sys2Proof/Syntax.lean ====
section
/-! DEFINITION. The instructions of the three encoded languages and the responses (spec/00_scope.md R3), one
constructor per row of spec/opcode_table.json, and their encoded forms (spec/30_encoding.md). -/
namespace Sys2Proof

/-- One constructor per row of the opcode table. -/
inductive Instr
  /-- Host command frames (R91): the operand is the payload. -/
  | ack (payload : List Byte)
  | init (payload : List Byte)
  | reset (payload : List Byte)
  | write (payload : List Byte)
  | erase (payload : List Byte)
  | read (payload : List Byte)
  | info (payload : List Byte)
  /-- Two-wire instructions (R100 to R103). -/
  | addressWrite (address : Byte)
  | addressRead
  | dataWrite (data : Byte)
  | dataRead
  /-- FPI commands (R106, R107). -/
  | deviceErase
  | blockRead (address : Addr16) (count : Byte)
  | blockWrite (address : Addr16) (length : Byte)
  /-- Responses (R97). -/
  | rspAck
  | rspInit
  | rspReset
  | rspWrite
  | rspChecksumFail
  | rspErase
  | rspRead
  | rspInfo
  deriving DecidableEq, Repr

/-- An encoded instruction in the format of its language (`format` of the opcode table). -/
inductive Encoded
  /-- A host command frame `[action, length, payload]` (R91). -/
  | frame (bytes : List Byte)
  /-- A two-wire instruction word and its width in bits (R99). -/
  | wire (width : Nat) (word : WireWord)
  /-- An FPI command byte with the operand bytes that follow it through `FPDAT` (R107). -/
  | fpi (bytes : List Byte)
  /-- A response code (R97). -/
  | response (code : Byte)
  deriving DecidableEq, Repr

end Sys2Proof
end

