-- ==== Sys2Proof/WellFormed.lean ====
section
/-! DEFINITION. What an instruction must satisfy to exist on a block with given parameters: its operands fit the
fields and the buffers that hold them. -/
namespace Sys2Proof

/-- A frame's payload fits the frame buffer, whose capacity is `N_PAYLOAD` (R26, R219). -/
abbrev PayloadFits (p : Params) (payload : List Byte) : Prop := payload.length ≤ p.nPayload

/-- A block operation's byte count fits the flash scratch buffer (R27, R242). -/
abbrev CountFits (p : Params) (count : Byte) : Prop := count.toNat ≤ p.nFlash

/-- Well-formedness of an instruction. A frame too short for its action is well formed: it is framed normally and
meets its fault when it is dispatched (R242). -/
abbrev WellFormed (p : Params) (i : Instr) : Prop :=
  match i with
  | .ack payload => PayloadFits p payload
  | .init payload => PayloadFits p payload
  | .reset payload => PayloadFits p payload
  | .write payload => PayloadFits p payload
  | .erase payload => PayloadFits p payload
  | .read payload => PayloadFits p payload
  | .info payload => PayloadFits p payload
  | .addressWrite _ => True
  | .addressRead => True
  | .dataWrite _ => True
  | .dataRead => True
  | .deviceErase => True
  | .blockRead _ count => CountFits p count
  | .blockWrite _ length => CountFits p length
  | .rspAck => True
  | .rspInit => True
  | .rspReset => True
  | .rspWrite => True
  | .rspChecksumFail => True
  | .rspErase => True
  | .rspRead => True
  | .rspInfo => True

end Sys2Proof
end

