-- ==== Sys2Proof/Decode.lean ====
section
/-! DEFINITION. Decoding and encoding of the three languages and the responses (spec/30_encoding.md), and the
opcode table's numbering of an instruction's bits. The block itself decodes host frames only (R90, R114); the other
decoders read back what the block encodes. -/
namespace Sys2Proof

/-- Why bytes or bits are no instruction. -/
inductive DecodeError
  /-- A frame needs an action byte and a length byte (R91). -/
  | truncated
  /-- The payload has not the number of bytes the length byte says (R93). -/
  | lengthMismatch
  /-- No action has this code (R111). -/
  | unknownAction (code : Byte)
  /-- No two-wire instruction has this width with these tag bits (R104, R114). -/
  | badWireWord (width : Nat) (word : WireWord)
  /-- No FPI command has this command byte with these operand bytes (R106, R107). -/
  | badFpi (bytes : List Byte)
  /-- No response has this code (R97, R98, U17). -/
  | unknownResponse (code : Byte)
  deriving DecidableEq, Repr

/-- The Dispatcher's selection on `ACTION` (R230). -/
def decodeAction (p : Params) (action : Byte) (payload : List Byte) : Except DecodeError Instr :=
  if action = p.actAck then .ok (.ack payload)
  else if action = p.actInit then .ok (.init payload)
  else if action = p.actReset then .ok (.reset payload)
  else if action = p.actWrite then .ok (.write payload)
  else if action = p.actErase then .ok (.erase payload)
  else if action = p.actRead then .ok (.read payload)
  else if action = p.actInfo then .ok (.info payload)
  else .error (.unknownAction action)

/-- A host command frame: `[action, length, payload[0..length)]` (R91). -/
def decodeFrame (p : Params) (bytes : List Byte) : Except DecodeError Instr :=
  match bytes with
  | action :: length :: payload =>
    if payload.length = length.toNat then decodeAction p action payload else .error .lengthMismatch
  | _ => .error .truncated

/-- The decode table R104, with the widths of R100 to R103. -/
def decodeWire (width : Nat) (word : WireWord) : Except DecodeError Instr :=
  if width = 10 ∧ word.extractLsb' 0 2 = 0b11#2 ∧ word.extractLsb' 10 2 = 0b00#2 then
    .ok (.addressWrite (word.extractLsb' 2 8))
  else if width = 2 ∧ word = 0b10#12 then .ok .addressRead
  else if width = 12 ∧ word.extractLsb' 0 4 = 0b0001#4 then .ok (.dataWrite (word.extractLsb' 4 8))
  else if width = 4 ∧ word = 0b0000#12 then .ok .dataRead
  else .error (.badWireWord width word)

/-- An FPI command: the command byte, then for the block operations address high, address low and count (R107). -/
def decodeFpi (p : Params) (bytes : List Byte) : Except DecodeError Instr :=
  match bytes with
  | [c] => if c = p.fpiDeviceErase then .ok .deviceErase else .error (.badFpi bytes)
  | [c, hi, lo, n] =>
    if c = p.fpiBlockRead then .ok (.blockRead (hi ++ lo) n)
    else if c = p.fpiBlockWrite then .ok (.blockWrite (hi ++ lo) n)
    else .error (.badFpi bytes)
  | _ => .error (.badFpi bytes)

/-- A response code (R97). -/
def decodeResponse (code : Byte) : Except DecodeError Instr :=
  if code = Config.rspAck then .ok .rspAck
  else if code = Config.rspInit then .ok .rspInit
  else if code = Config.rspReset then .ok .rspReset
  else if code = Config.rspWrite then .ok .rspWrite
  else if code = Config.rspChecksumFail then .ok .rspChecksumFail
  else if code = Config.rspErase then .ok .rspErase
  else if code = Config.rspRead then .ok .rspRead
  else if code = Config.rspInfo then .ok .rspInfo
  else .error (.unknownResponse code)

/-- The instruction an encoded form stands for, in the language its format says. -/
def decode (p : Params) (e : Encoded) : Except DecodeError Instr :=
  match e with
  | .frame bytes => decodeFrame p bytes
  | .wire width word => decodeWire width word
  | .fpi bytes => decodeFpi p bytes
  | .response code => decodeResponse code

/-! The encoder. -/

/-- `word = (address << 2) | 0b11`, 10 bits (R100). -/
def addressWriteWord (address : Byte) : WireWord := (address.setWidth 12 <<< 2) ||| 0b11#12

/-- `word = 0b10`, 2 bits (R101). -/
def addressReadWord : WireWord := 0b10#12

/-- `word = (data << 4) | 0b0001`, 12 bits (R102). -/
def dataWriteWord (data : Byte) : WireWord := (data.setWidth 12 <<< 4) ||| 0b0001#12

/-- `word = 0b0000`, 4 bits (R103). -/
def dataReadWord : WireWord := 0b0000#12

/-- The high byte of a 16-bit flash address (R64). -/
def addrHigh (address : Addr16) : Byte := address.extractLsb' 8 8

/-- The low byte of a 16-bit flash address (R64). -/
def addrLow (address : Addr16) : Byte := address.extractLsb' 0 8

/-- A frame's bytes (R91). -/
def frameBytes (action : Byte) (payload : List Byte) : List Byte :=
  action :: BitVec.ofNat 8 payload.length :: payload

/-- The encoded form of an instruction. -/
def encode (p : Params) (i : Instr) : Encoded :=
  match i with
  | .ack payload => .frame (frameBytes p.actAck payload)
  | .init payload => .frame (frameBytes p.actInit payload)
  | .reset payload => .frame (frameBytes p.actReset payload)
  | .write payload => .frame (frameBytes p.actWrite payload)
  | .erase payload => .frame (frameBytes p.actErase payload)
  | .read payload => .frame (frameBytes p.actRead payload)
  | .info payload => .frame (frameBytes p.actInfo payload)
  | .addressWrite address => .wire 10 (addressWriteWord address)
  | .addressRead => .wire 2 addressReadWord
  | .dataWrite data => .wire 12 (dataWriteWord data)
  | .dataRead => .wire 4 dataReadWord
  | .deviceErase => .fpi [p.fpiDeviceErase]
  | .blockRead address count => .fpi [p.fpiBlockRead, addrHigh address, addrLow address, count]
  | .blockWrite address length => .fpi [p.fpiBlockWrite, addrHigh address, addrLow address, length]
  | .rspAck => .response Config.rspAck
  | .rspInit => .response Config.rspInit
  | .rspReset => .response Config.rspReset
  | .rspWrite => .response Config.rspWrite
  | .rspChecksumFail => .response Config.rspChecksumFail
  | .rspErase => .response Config.rspErase
  | .rspRead => .response Config.rspRead
  | .rspInfo => .response Config.rspInfo

/-! The opcode table's numbering of bits. The table's rows are of four formats and carry no format bit, so some
rows share their bits (log 9); the order in which the formats are tried is fixed here. -/

/-- Byte `k` of an instruction's bits, the first byte in the low bits. -/
def tableByte (w k : Nat) : Byte := BitVec.ofNat 8 (w >>> (8 * k))

/-- The frame whose first bytes are `w`'s: every byte above `w` is 0. -/
def tableFrame (w : Nat) : List Byte :=
  tableByte w 0 :: tableByte w 1 :: (List.range (tableByte w 1).toNat).map fun k => tableByte w (k + 2)

/-- The encoded form that the table's bits `w` of a row `nbits` wide stand for (log 9): rows of 16 bits are the two
wide two-wire words; a byte that is an action code is a frame; then FPI commands, then responses, then the two
narrow two-wire words. -/
def tableEncoded (p : Params) (nbits w : Nat) : Encoded :=
  if nbits = 16 then
    if 4096 ≤ w then .wire 16 0 else .wire (if w % 4 = 3 then 10 else 12) (BitVec.ofNat 12 w)
  else if tableByte w 0 ∈ p.actionCodes then .frame (tableFrame w)
  else if tableByte w 0 = p.fpiDeviceErase then .fpi [tableByte w 0]
  else if tableByte w 0 ∈ p.fpiCodes then .fpi [tableByte w 0, tableByte w 1, tableByte w 2, tableByte w 3]
  else if (decodeResponse (tableByte w 0)).toBool then .response (tableByte w 0)
  else if 4096 ≤ w then .wire 16 0
  else .wire (if w % 4 = 2 then 2 else 4) (BitVec.ofNat 12 w)

/-- The instruction the decoder reads from the table's bits, at the default parameters. -/
def decodeTableWord (nbits w : Nat) : Option Instr :=
  (decode Config.defaults (tableEncoded Config.defaults nbits w)).toOption

end Sys2Proof
end

