-- ==== Sys2Proof/Machine/State.lean ====
section
/-! DEFINITION. The state of the block (spec/10_state.md R20 to R36), the state of its surroundings that a step
reads or writes (R11 to R13, R41), the reasons a step stops, and the state after hardware reset (R43). -/
namespace Sys2Proof.Machine

/-- `FS`, the framing state (R21). -/
inductive FramingState
  | awaitingAction
  | awaitingLength
  | awaitingPayload
  | complete
  deriving DecidableEq, Repr

/-- `RES`, the result of a flash operation (R180). -/
inductive OpResult
  | ok
  | fail
  deriving DecidableEq, Repr

/-- What the target does to the data line at one sample: it drives a level, or it does not drive (R133, R135). -/
inductive LineDrive
  | low
  | high
  | released
  deriving DecidableEq, Repr

/-- The events of R12. -/
inductive Event
  /-- `CK(b)`. -/
  | ck (level : Bool)
  /-- `DDIR(out)` when `out`, else `DDIR(in)`. -/
  | ddir (out : Bool)
  /-- `DOUT(b)`. -/
  | dout (level : Bool)
  /-- `DIN=b`. -/
  | din (level : Bool)
  /-- `DELAY(t)`: at least `t` microseconds pass. -/
  | delay (microseconds : Nat)
  /-- `IRQ(off)` when `off`, else `IRQ(on)`. -/
  | irq (off : Bool)
  /-- `LED(b)`. -/
  | led (level : Bool)
  /-- `RX(b)`. -/
  | rx (b : Byte)
  /-- `TX(b)`. -/
  | tx (b : Byte)
  deriving DecidableEq, Repr

/-- A completed two-wire instruction, in the notation of R116: `AW(a)`, `AR()->v`, `DW(d)`, `DR()->v`. -/
inductive WireAccess
  | aw (address : Byte)
  | ar (value : Byte)
  | dw (data : Byte)
  | dr (value : Byte)
  deriving DecidableEq, Repr

/-- The place inside a two-wire instruction at which the block can be held: the wait field (R139) of one of the two
data instructions (R152, R153). -/
inductive WireWait
  | dataWrite (data : Byte)
  | dataRead
  deriving DecidableEq, Repr

/-- The statements of the routines between the Dispatcher and the two-wire instructions: the flash operations
(R181 to R186), `init()` and `deviceInfo()` (R200, R201). -/
inductive FlashOp
  /-- `ck_set(0); delay(T_RST_LOW); ck_set(1); delay(T_RST_HIGH)` (R200). -/
  | clockHold
  /-- `delay(t)` (R136). -/
  | delay (microseconds : Nat)
  | addressWrite (address : Byte)
  | dataWrite (data : Byte)
  /-- `dataWrite(FL[i])` (R186). -/
  | dataWriteFl (i : Nat)
  /-- `dataWrite(ERASE_KEY[i])` (R184). -/
  | dataWriteKey (i : Nat)
  | dataRead
  /-- `pollBitLow(mask)` (R171). -/
  | pollBitLow (mask : Byte)
  /-- `pollBitHigh(mask)` (R170). -/
  | pollBitHigh (mask : Byte)
  /-- The comparison with `ACK_OK` and the return of `FAIL` (R182, R188). -/
  | ackTest
  /-- `FL[i] <- ` the byte just read (R185). -/
  | storeFl (i : Nat)
  | storeDevId
  | storeDevRev
  deriving DecidableEq, Repr

/-- The statements of a Dispatcher branch (R231 to R237). -/
inductive CmdOp
  /-- A routine of the level below. -/
  | call (body : List FlashOp)
  /-- `tx_write(b)` (R239). -/
  | tx (b : Byte)
  /-- `tx_write(FL[i])` (R236). -/
  | txFl (i : Nat)
  | txDevId
  | txDevRev
  /-- `LED <- b; emit LED(b)`. -/
  | led (level : Bool)
  /-- `frame_reset()` (R215). -/
  | frameReset
  deriving DecidableEq, Repr

/-- The sequencer position (R35): what remains of the routine at each level. All empty is the top of `main_loop`. -/
structure Seq where
  /-- At the entry of the routine of this instruction (log 22). -/
  entry : Option Encoded := none
  /-- Inside a two-wire instruction, in its wait field. -/
  wire : Option WireWait := none
  /-- What remains of the routine that issues two-wire instructions. -/
  flash : List FlashOp := []
  /-- What remains of the Dispatcher branch. -/
  cmd : List CmdOp := []
  deriving DecidableEq, Repr

/-- The framing registers (R21 to R25). -/
structure Framing where
  fs : FramingState
  action : Byte
  length : Byte
  rem : Byte
  cur : BitVec 9
  deriving DecidableEq, Repr

/-- `DEV_ID` and `DEV_REV` (R28). -/
structure DeviceInfo where
  id : Byte
  revision : Byte
  deriving DecidableEq, Repr

/-- The pin latches and the interrupt gate (R29 to R33). -/
structure Pins where
  ck : Bool
  doe : Bool
  dout : Bool
  led : Bool
  irqm : Bool
  deriving DecidableEq, Repr

/-- The working registers (R34). -/
structure Work where
  sr : WireWord
  bitn : BitVec 4
  v : Byte
  addr : Addr24
  cks : Byte
  sum : Byte
  cnt : Byte
  idx : BitVec 9
  res : OpResult
  deriving DecidableEq, Repr

/-- The surroundings (R11, R13): the byte-stream transport, the target on the data line, the reset input. -/
structure Env where
  /-- Received bytes the block has not yet taken, oldest first (R41). -/
  rx : List Byte
  /-- Bytes the block has written that the host has not yet taken, oldest first (R41). -/
  tx : List Byte
  /-- The transport's answers to the next attempts to write a byte: accepted or not (R239, log 3). -/
  txGate : List Bool
  /-- Its answer to every attempt after those. -/
  txGateRest : Bool
  /-- What the target does at the next samples (R13, log 2). -/
  target : List LineDrive
  /-- What it does at every sample after those. -/
  targetRest : LineDrive
  /-- The hardware reset input (R11(7)): asserted after so many further events of this pass, or not (log 8). -/
  resetIn : Option Nat
  deriving DecidableEq, Repr

/-- The model's own record of what has happened (log 19). -/
structure Log where
  /-- Events, newest first. -/
  trace : List Event
  /-- Completed two-wire instructions, newest first. -/
  issued : List WireAccess
  deriving DecidableEq, Repr

/-- A byte buffer: the bytes written since reset, by rising index; an unlisted index has not been written (log 7). -/
abbrev Mem := List Host.Cell

/-- The whole state. `cfg` holds the parameters of R8 and never changes (log 4); `epoch` counts hardware resets
(log 7). -/
structure State where
  cfg : Params
  frame : Framing
  fb : Mem
  fl : Mem
  dev : DeviceInfo
  pins : Pins
  work : Work
  seq : Seq
  env : Env
  log : Log
  epoch : Nat
  deriving DecidableEq, Repr

/-- Faults: conditions with no defined continuation (R14, R266). -/
inductive Fault
  /-- `F_SHORT_FRAME`: raised by WRITE with `LENGTH < 3` and READ with `LENGTH < 4` (R242). Safe: the spec gives the
  frame no meaning. -/
  | shortFrame
  /-- `F_OVERFLOW`: raised by the framer for a length byte above `N_PAYLOAD` (R219), by WRITE and READ and by the
  block operations and the READ response for a count above `N_FLASH` (R242), and for any other index outside a
  buffer (R35). Safe: the spec gives no continuation. -/
  | overflow
  /-- A byte fed to the framer in `Complete` (U1): raised by `frameStep` only, and the main loop never feeds one
  (R214). Safe. -/
  | byteInComplete
  deriving DecidableEq, Repr

/-- Refusals. -/
inductive Refusal
  /-- The instruction has no meaning in the model yet: raised by `exec`'s arm. Safe. -/
  | notModelled (mnemonic : String)
  /-- The parameters violate a constraint of R8 (U4, U14, U16): raised by `step`. Safe. -/
  | badConfiguration
  /-- The sequencer stands at the entry of a routine whose bits are no instruction: raised by `step`; the block never
  puts itself there (log 9). Safe. -/
  | notAnInstruction (why : DecodeError)
  deriving DecidableEq, Repr

/-- Right after hardware reset (R43, R290): `FS`, `CUR`, `CK`, `DOE`, `LED`, `IRQM` and the sequencer as the table
says; the other registers as log 6 says; the buffers unwritten (log 7); nothing in the surroundings (logs 2, 3, 8). -/
def State.reset : State where
  cfg := Config.defaults
  frame := { fs := .awaitingAction, action := 0, length := 0, rem := 0, cur := 0 }
  fb := []
  fl := []
  dev := { id := 0, revision := 0 }
  pins := { ck := true, doe := false, dout := false, led := false, irqm := false }
  work := { sr := 0, bitn := 0, v := 0, addr := 0, cks := 0, sum := 0, cnt := 0, idx := 0, res := .fail }
  seq := {}
  env := { rx := [], tx := [], txGate := [], txGateRest := true, target := [], targetRest := .released, resetIn := none }
  log := { trace := [], issued := [] }
  epoch := 0

end Sys2Proof.Machine
end

