-- ==== Sys2Proof/Machine/Flags.lean ====
section
/-! DEFINITION. The conditions that steer the block (spec/10_state.md R36). There is no flag register; each is
computed and consumed inside one rule. -/
namespace Sys2Proof.Machine

/-- `V & BUSY_MASK` is zero, the condition `pollBitLow` waits for (R36(b), R171). -/
def maskClear (mask v : Byte) : Bool := v &&& mask == 0

/-- `V & READY_MASK` is not zero, the condition `pollBitHigh` waits for (R36(c), R170). -/
def maskSet (mask v : Byte) : Bool := v &&& mask != 0

/-- `V = ACK_OK` on all 8 bits (R36(d), R182). -/
def isAck (v : Byte) : Bool := v == Config.ackOk

/-- The level the data line has while only the target and the pull-up act on it (R133): 1 unless driven low. -/
def LineDrive.level (d : LineDrive) : Bool :=
  match d with
  | .low => false
  | .high => true
  | .released => true

/-- The encoding of `FS` (R21). -/
def FramingState.code (f : FramingState) : BitVec 2 :=
  match f with
  | .awaitingAction => 0
  | .awaitingLength => 1
  | .awaitingPayload => 2
  | .complete => 3

end Sys2Proof.Machine
end

