-- ==== Sys2Proof/Machine/Operands.lean ====
section
/-! DEFINITION. Assembly of operands (spec/30_encoding.md R105). -/
namespace Sys2Proof.Machine

/-- `ADDR[15:0] = FB[2] ++ FB[3]`, the rest of `ADDR` as it was (R105(a), R234, log 21). -/
def writeAddr (old : Addr24) (high low : Byte) : Addr24 := old.extractLsb' 16 8 ++ high ++ low

/-- `ADDR[23:0] = FB[3] ++ FB[4] ++ FB[5]` (R105(b)). -/
def readAddr (a2 a1 a0 : Byte) : Addr24 := a2 ++ a1 ++ a0

/-- The 16 address bits that reach the target (R64, R105(b)). -/
def sentAddr (a : Addr24) : Addr16 := a.extractLsb' 0 16

/-- The sum of the two address bytes and all data bytes, modulo 256 (R105(c)). -/
def checksum (high low : Byte) (data : List Byte) : Byte := data.foldl (· + ·) (high + low)

/-- Bit `n` of the shift register replaced by a sampled bit (R105(e), R138). -/
def setBit (sr : WireWord) (n : Nat) (b : Bool) : WireWord :=
  if b then sr ||| (1#12 <<< n) else sr &&& ~~~(1#12 <<< n)

/-- The low 8 bits of the shift register (R138). -/
def lowByte (sr : WireWord) : Byte := sr.setWidth 8

end Sys2Proof.Machine
end

