-- ==== Sys2Proof/Machine/Ops.lean ====
section
/-! DEFINITION. The named operations over buffers, pins, the data line and the byte stream (spec/20_memory.md,
spec/40_bit_transport.md, spec/42_poll_primitives.md), and what stands in for exceptions
(spec/60_exceptions.md R269, R270). -/
namespace Sys2Proof.Machine

/-! ## Buffers -/

/-- The byte written at index `a` since reset, if one was. -/
def Mem.read (m : Mem) (a : Nat) : Option Byte :=
  match m with
  | [] => none
  | (k, v) :: rest => if a = k then some v else Mem.read rest a

/-- Writes a byte, keeping the indices strictly rising. -/
def Mem.write (m : Mem) (a : Nat) (v : Byte) : Mem :=
  match m with
  | [] => [(a, v)]
  | (k, w) :: rest =>
    if a < k then (a, v) :: (k, w) :: rest
    else if a = k then (a, v) :: rest
    else (k, w) :: Mem.write rest a v

/-- The canonical form: indices strictly rising. An unlisted index reads as "not written", which no entry equals. -/
def Mem.wf (m : Mem) : Bool :=
  match m with
  | [] => true
  | [_] => true
  | (a, _) :: (b, w) :: rest => decide (a < b) && Mem.wf ((b, w) :: rest)

/-- `FB[i]`; a byte not written since reset is a free value (R43, U8, log 7). -/
def State.fbByte (s : State) (i : Nat) : Byte := (s.fb.read i).getD (Config.fbReset s.epoch i)

/-- `FL[i]`; a byte not written since reset is a free value (R43, U7, log 7). -/
def State.flByte (s : State) (i : Nat) : Byte := (s.fl.read i).getD (Config.flReset s.epoch i)

/-- `IDX <- i` (R34). Where in a turn of a loop this happens is the model's choice (DESIGN CHOICE, log 26). -/
def setIdx (i : Nat) (s : State) : State := { s with work := { s.work with idx := BitVec.ofNat 9 i } }

/-- `CNT <- n`, the byte count of a block operation (R34, log 12; when it is loaded: DESIGN CHOICE, log 26). -/
def setCnt (n : Byte) (s : State) : State := { s with work := { s.work with cnt := n } }

/-- `IDX <- i; FL[i] <- b` (R185, R234). DESIGN CHOICE (log 26): `IDX` takes the index at the store, so in a block read it
is the index of the turn before while turn `i` waits in its ready poll or its data read; R34 does not say when. -/
def storeFlByte (i : Nat) (b : Byte) (s : State) : State :=
  { s with fl := s.fl.write i b, work := { s.work with idx := BitVec.ofNat 9 i } }

/-- `RES <- r`, at each comparison of an acknowledgment (R182; when: DESIGN CHOICE, log 26). -/
def setRes (r : OpResult) (s : State) : State := { s with work := { s.work with res := r } }

/-- `for i in 0..n-1: FL[i] <- data[i]`, from index `i` on (R234). -/
def copyToFl (i : Nat) (data : List Byte) (s : State) : State :=
  match data with
  | [] => s
  | b :: rest => copyToFl (i + 1) rest (storeFlByte i b s)

/-! ## Events and pins (R12, R130 to R136, R140) -/

/-- `emit E`. -/
def emit (e : Event) (s : State) : State := { s with log := { s.log with trace := e :: s.log.trace } }

/-- `ck_set(b)` (R130). -/
def ckSet (b : Bool) (s : State) : State := emit (.ck b) { s with pins := { s.pins with ck := b } }

/-- `delay(t)` (R136). -/
def delay (t : Nat) (s : State) : State := emit (.delay t) s

/-- `pulseClock()` (R131). -/
def pulseClock (s : State) : State := delay Config.tHalf (ckSet true (delay Config.tHalf (ckSet false s)))

/-- `d_output()` (R132). -/
def dOutput (s : State) : State := emit (.ddir true) { s with pins := { s.pins with doe := true } }

/-- `d_input()` (R133). -/
def dInput (s : State) : State := emit (.ddir false) { s with pins := { s.pins with doe := false } }

/-- `d_write(b)` (R134). -/
def dWrite (b : Bool) (s : State) : State := emit (.dout b) { s with pins := { s.pins with dout := b } }

/-- `irq_off()` (R140). -/
def irqOff (s : State) : State := emit (.irq true) { s with pins := { s.pins with irqm := true } }

/-- `irq_on()` (R140). -/
def irqOn (s : State) : State := emit (.irq false) { s with pins := { s.pins with irqm := false } }

/-- `LED <- b; emit LED(b)` (R232, R233). -/
def setLed (b : Bool) (s : State) : State := emit (.led b) { s with pins := { s.pins with led := b } }

/-- What the target does to the line at the next sample (R13, log 2). -/
def State.nextDrive (s : State) : LineDrive := s.env.target.headD s.env.targetRest

/-- The level of the data line: `DOUT` while the block drives it (U9, log 20), else what the target drives or the
pull-up's 1 (R133, R135). -/
def State.lineLevel (s : State) : Bool := if s.pins.doe then s.pins.dout else s.nextDrive.level

/-- `sample()`, the state after it: the bit sampled is `s.lineLevel` (R14, R135). -/
def sampled (s : State) : State :=
  emit (.din s.lineLevel) { s with env := { s.env with target := s.env.target.tail } }

/-! ## Shift and wait loops (R137 to R139) -/

/-- `SR <- word; BITN <- 0`, before a shift. -/
def loadSr (word : WireWord) (s : State) : State := { s with work := { s.work with sr := word, bitn := 0 } }

/-- `BITN <- BITN + 1`, at the end of a turn (R34 does not say when: DESIGN CHOICE, log 26). -/
def nextBit (s : State) : State := { s with work := { s.work with bitn := s.work.bitn + 1 } }

/-- `n` turns of the loop of `shiftOut`: place bit `BITN` of `SR` on the line, pulse (R137). -/
def shiftOut (n : Nat) (s : State) : State :=
  match n with
  | 0 => s
  | n + 1 => shiftOut n (nextBit (pulseClock (dWrite (s.work.sr.getLsbD s.work.bitn.toNat) s)))

/-- `r[i] <- d_read()` with `r` in `SR` and `i` in `BITN` (R138). -/
def sampleToSr (s : State) : State :=
  sampled { s with work := { s.work with sr := setBit s.work.sr s.work.bitn.toNat s.lineLevel } }

/-- `n` turns of the loop of `shiftIn`: pulse, then sample (R138). -/
def shiftIn (n : Nat) (s : State) : State :=
  match n with
  | 0 => s
  | n + 1 => shiftIn n (nextBit (sampleToSr (pulseClock s)))

/-- `repeat body until c`, where `body` answers `c`. The loop runs on while listed answers of the target are left;
a turn that fails with none left ends the step at the loop (`false`), and the next step enters the loop again
(R139, R170, R171, log 1). `fuel` bounds the turns by the number of listed answers. -/
def repeatUntil (body : State → Bool × State) (fuel : Nat) (s : State) : Bool × State :=
  match fuel with
  | 0 => body s
  | n + 1 =>
    match body s with
    | (true, q) => (true, q)
    | (false, q) => if q.env.target.isEmpty then (false, q) else repeatUntil body n q

/-- One turn of `waitHigh`: pulse, sample (R139). -/
def waitTurn (s : State) : Bool × State :=
  ((pulseClock s).lineLevel, sampled (pulseClock s))

/-- `waitHigh()` (R139). -/
def waitHigh (s : State) : Bool × State := repeatUntil waitTurn s.env.target.length s

/-! ## The shape all two-wire instructions share (R141) -/

/-- Start pulse, critical section, the instruction word, release of the data pin. -/
def wireHead (word : WireWord) (width : Nat) (s : State) : State :=
  dInput (shiftOut width (loadSr word (dOutput (irqOff (pulseClock s)))))

/-- Closing pulse, end of the critical section. -/
def wireTail (s : State) : State := irqOn (pulseClock s)

/-- The model's record of a completed instruction (R116, log 19). -/
def note (a : WireAccess) (s : State) : State := { s with log := { s.log with issued := a :: s.log.issued } }

/-- The same for an instruction that reads: the value is in `V`. -/
def noteValue (a : Byte → WireAccess) (s : State) : State := note (a s.work.v) s

/-- `V <- v`, the byte shifted in. -/
def latchV (s : State) : State := { s with work := { s.work with v := lowByte s.work.sr } }

/-- `v <- shiftIn(8)`, closing pulse, `irq_on`, `V <- v` (R151, R153). -/
def responseTail (s : State) : State := latchV (wireTail (shiftIn 8 (loadSr 0#12 s)))

/-- `addressWrite(address)` (R150). -/
def addressWrite (address : Byte) (s : State) : State :=
  note (.aw address) (wireTail (wireHead (addressWriteWord address) 10 s))

/-- `addressRead()` (R151). -/
def addressRead (s : State) : State := noteValue .ar (responseTail (wireHead addressReadWord 2 s))

/-- From the wait field of a data instruction to its end, or to the wait field again (R152, R153). -/
def finishWire (w : WireWait) (s : State) : Bool × State :=
  match waitHigh s with
  | (false, q) => (false, q)
  | (true, q) =>
    match w with
    | .dataWrite data => (true, note (.dw data) (wireTail q))
    | .dataRead => (true, noteValue .dr (responseTail q))

/-- `dataWrite(data)` (R152). -/
def dataWrite (data : Byte) (s : State) : Bool × State :=
  finishWire (.dataWrite data) (wireHead (dataWriteWord data) 12 s)

/-- `dataRead()` (R153). -/
def dataRead (s : State) : Bool × State := finishWire .dataRead (wireHead dataReadWord 4 s)

/-! ## Polls (R170, R171) -/

/-- One turn of a poll: an address read, and whether its value meets the condition. -/
def pollTurn (c : Byte → Bool) (s : State) : Bool × State :=
  (c (addressRead s).work.v, addressRead s)

/-- `pollBitHigh(mask)` (R170); the value read is in `V`. -/
def pollBitHigh (mask : Byte) (s : State) : Bool × State :=
  repeatUntil (pollTurn (maskSet mask)) s.env.target.length s

/-- `pollBitLow(mask)` (R171); the value read is in `V`. -/
def pollBitLow (mask : Byte) (s : State) : Bool × State :=
  repeatUntil (pollTurn (maskClear mask)) s.env.target.length s

/-! ## Byte stream and framing state -/

/-- `emit TX(b)`: the transport has accepted the byte. -/
def transmit (b : Byte) (gate : List Bool) (s : State) : State :=
  emit (.tx b) { s with env := { s.env with tx := s.env.tx ++ [b], txGate := gate } }

/-- `tx_write(b)` (R239): tried until the transport accepts; `false` when its listed answers are used up and it does
not accept after them (D30, U18, log 3). -/
def txWrite (b : Byte) (s : State) : Bool × State :=
  match s.env.txGate.dropWhile (!·) with
  | _ :: gate => (true, transmit b gate s)
  | [] =>
    if s.env.txGateRest then (true, transmit b [] s)
    else (false, { s with env := { s.env with txGate := [] } })

/-- `frame_reset()` (R215). -/
def frameReset (s : State) : State := { s with frame := { s.frame with fs := .awaitingAction } }

/-! ## What stands in for taking an exception and returning from one (R14, R269, R270) -/

/-- `raise X` for the two conditions that are faults (R14, R266): no state is saved, no handler is entered and the
state has no successor. There is no return from it (R270). -/
def raise (f : Fault) : Host.Outcome State Fault Refusal := .fault f

end Sys2Proof.Machine
end

