-- ==== Sys2Proof/Machine/Sequencer.lean ====
section
/-! DEFINITION. The sequencer (spec/10_state.md R35): running the statements of a routine until its end or until a
wait that the surroundings do not end. -/
namespace Sys2Proof.Machine

/-- How a statement of a routine ends. -/
inductive Progress
  /-- It is done. -/
  | done (s : State)
  /-- It waits at its own beginning: a poll whose condition has not come. -/
  | again (s : State)
  /-- It waits inside a two-wire instruction. -/
  | inWire (w : WireWait) (s : State)
  /-- The routine returns `FAIL` at once (R188). -/
  | failed (s : State)
  deriving DecidableEq, Repr

/-- `E_ACK_MISMATCH` or not: `RES` is set, and a mismatch ends the routine (R182, R188, R261). -/
def ackTest (s : State) : Progress :=
  if isAck s.work.v then .done (setRes .ok s)
  else .failed (setRes .fail s)

/-- The data write of a counted loop: `IDX` holds the index of the byte, in `FL` or in the key sequence (R34). DESIGN CHOICE
(log 26): it takes the index right before the data write, and keeps it during the busy poll that follows. -/
def dataWriteAt (i : Nat) (d : Byte) (s : State) : Progress :=
  match dataWrite d (setIdx i s) with
  | (true, q) => .done q
  | (false, q) => .inWire (.dataWrite d) q

/-- One statement of a routine of the middle level. -/
def flashOp (op : FlashOp) (s : State) : Progress :=
  match op with
  | .clockHold => .done (delay Config.tRstHigh (ckSet true (delay Config.tRstLow (ckSet false s))))
  | .delay t => .done (delay t s)
  | .addressWrite a => .done (addressWrite a s)
  | .dataWrite d =>
    match dataWrite d s with
    | (true, q) => .done q
    | (false, q) => .inWire (.dataWrite d) q
  | .dataWriteFl i => dataWriteAt i (s.flByte i) s
  | .dataWriteKey i => dataWriteAt i (Config.eraseKeyByte i) s
  | .dataRead =>
    match dataRead s with
    | (true, q) => .done q
    | (false, q) => .inWire .dataRead q
  | .pollBitLow mask =>
    match pollBitLow mask s with
    | (true, q) => .done q
    | (false, q) => .again q
  | .pollBitHigh mask =>
    match pollBitHigh mask s with
    | (true, q) => .done q
    | (false, q) => .again q
  | .ackTest => ackTest s
  | .storeFl i => .done (storeFlByte i s.work.v s)
  | .storeDevId => .done { s with dev := { s.dev with id := s.work.v } }
  | .storeDevRev => .done { s with dev := { s.dev with revision := s.work.v } }

/-- The statements of a routine in order: what remains (nothing when it has returned), and the state. -/
def runFlash (ops : List FlashOp) (s : State) : Seq × State :=
  match ops with
  | [] => ({}, s)
  | op :: rest =>
    match flashOp op s with
    | .done q => runFlash rest q
    | .again q => ({ flash := op :: rest }, q)
    | .inWire w q => ({ wire := some w, flash := rest }, q)
    | .failed q => ({}, q)

/-- The sequencer is at the top of `main_loop`. -/
def Seq.idle (k : Seq) : Bool := k.entry.isNone && k.wire.isNone && k.flash.isEmpty && k.cmd.isEmpty

/-- One statement of a Dispatcher branch other than a call: whether it is done, and the state. -/
def cmdOp (op : CmdOp) (s : State) : Bool × State :=
  match op with
  | .call _ => (true, s)
  | .tx b => txWrite b s
  | .txFl i => txWrite (s.flByte i) (setIdx i s)
  | .txDevId => txWrite s.dev.id s
  | .txDevRev => txWrite s.dev.revision s
  | .led b => (true, setLed b s)
  | .frameReset => (true, frameReset s)

/-- The statements of a Dispatcher branch in order: what remains, and the state. -/
def runCmd (ops : List CmdOp) (s : State) : Seq × State :=
  match ops with
  | [] => ({}, s)
  | .call body :: rest =>
    match runFlash body s with
    | (k, q) => if k.idle then runCmd rest q else ({ k with cmd := rest }, q)
  | op :: rest =>
    match cmdOp op s with
    | (true, q) => runCmd rest q
    | (false, q) => ({ cmd := op :: rest }, q)

/-- What remains of a callee, before what remains of its caller. -/
def Seq.push (callee caller : Seq) : Seq where
  entry := callee.entry <|> caller.entry
  wire := callee.wire <|> caller.wire
  flash := callee.flash ++ caller.flash
  cmd := callee.cmd ++ caller.cmd

/-- The outcome of an instruction that has run as far as the surroundings let it: what remains of it stands before
what the sequencer still had to do. -/
def settle (r : Seq × State) : Host.Outcome State Fault Refusal :=
  .next { r.2 with seq := r.1.push r.2.seq }

/-- What remains of the routine and of the Dispatcher branch runs from `s`, and what then remains becomes the
sequencer position (R35). -/
def goOn (k : Seq) (s : State) : State :=
  let r := runCmd (.call k.flash :: k.cmd) { s with seq := {} }
  { r.2 with seq := r.1 }

/-- The sequencer goes on from where it waits (R35, R264). -/
def resume (s : State) : State :=
  match s.seq.wire with
  | none => goOn s.seq s
  | some w =>
    match finishWire w s with
    | (false, q) => q
    | (true, q) => goOn s.seq q

end Sys2Proof.Machine
end

