-- ==== Sys2Proof/Machine/Flash.lean ====
section
/-! DEFINITION. The flash operations, that is the FPI commands (spec/43_flash_operations.md), and `init()` and
`deviceInfo()` (spec/44_enable_and_identify.md), as statements of the sequencer. -/
namespace Sys2Proof.Machine

/-- `fpi_write(x)` (R181). -/
def fpiWrite (p : Params) (x : Byte) : List FlashOp := [.dataWrite x, .pollBitLow p.busyMask]

/-- `fpi_write(FL[i])` (R186). -/
def fpiWriteFl (p : Params) (i : Nat) : List FlashOp := [.dataWriteFl i, .pollBitLow p.busyMask]

/-- `fpi_write(ERASE_KEY[i])` (R184). -/
def fpiWriteKey (p : Params) (i : Nat) : List FlashOp := [.dataWriteKey i, .pollBitLow p.busyMask]

/-- A byte read from `FPDAT`: ready poll, then `dataRead()` (R182, R185). -/
def fpiRead (p : Params) : List FlashOp := [.pollBitHigh p.readyMask, .dataRead]

/-- `fpi_ack()` (R182). -/
def fpiAck (p : Params) : List FlashOp := fpiRead p ++ [.ackTest]

/-- `fpi_open(op)` (R183). -/
def fpiOpen (p : Params) (op : Byte) : List FlashOp := .addressWrite p.aFpdat :: (fpiWrite p op ++ fpiAck p)

/-- `eraseDevice()` (R184). -/
def eraseDevice (p : Params) : List FlashOp :=
  fpiOpen p p.fpiDeviceErase ++ ((List.range Config.eraseKey.length).flatMap (fpiWriteKey p) ++ fpiAck p)

/-- `readFlashBlock(address, FL, count)` (R185). -/
def readFlashBlock (p : Params) (address : Addr16) (count : Byte) : List FlashOp :=
  fpiOpen p p.fpiBlockRead ++ (fpiWrite p (addrHigh address) ++ (fpiWrite p (addrLow address) ++
    (fpiWrite p count ++ (fpiRead p ++
      (List.range count.toNat).flatMap fun i => fpiRead p ++ [.storeFl i]))))

/-- `writeFlashBlock(address, FL, length)` (R186). -/
def writeFlashBlock (p : Params) (address : Addr16) (length : Byte) : List FlashOp :=
  fpiOpen p p.fpiBlockWrite ++ (fpiWrite p (addrHigh address) ++ (fpiWrite p (addrLow address) ++
    (fpiWrite p length ++ ((List.range length.toNat).flatMap (fpiWriteFl p) ++ fpiAck p))))

/-- `init()` (R200). -/
def initTarget (p : Params) : List FlashOp :=
  [.clockHold, .addressWrite p.aFpctl, .dataWrite Config.enable1, .delay Config.tGap,
    .dataWrite Config.enable2, .delay Config.tGap, .dataWrite Config.enable3, .delay Config.tSettle]

/-- `deviceInfo()` (R201). -/
def deviceInfo (p : Params) : List FlashOp :=
  [.addressWrite p.aDeviceId, .dataRead, .storeDevId, .addressWrite p.aRevId, .dataRead, .storeDevRev]

/-- DEVICE_ERASE (R184). -/
def execDeviceErase (s : State) : Host.Outcome State Fault Refusal := settle (runFlash (eraseDevice s.cfg) s)

/-- BLOCK_READ (R185); `CNT` holds its byte count (R34), and a count beyond the scratch buffer is `F_OVERFLOW`
before anything is sent (R242, D18). -/
def execBlockRead (address : Addr16) (count : Byte) (s : State) : Host.Outcome State Fault Refusal :=
  if s.cfg.nFlash < count.toNat then raise .overflow
  else settle (runFlash (readFlashBlock s.cfg address count) (setCnt count s))

/-- BLOCK_WRITE (R186); `CNT` holds its byte count (R34), and a length beyond the scratch buffer is `F_OVERFLOW`
before anything is sent (R242, D18). -/
def execBlockWrite (address : Addr16) (length : Byte) (s : State) : Host.Outcome State Fault Refusal :=
  if s.cfg.nFlash < length.toNat then raise .overflow
  else settle (runFlash (writeFlashBlock s.cfg address length) (setCnt length s))

end Sys2Proof.Machine
end

