-- ==== Sys2Proof/Machine/Response.lean ====
section
/-! DEFINITION. The responses (spec/30_encoding.md R97): what each sends to the byte stream. -/
namespace Sys2Proof.Machine

/-- The READ response: its code, then `count` bytes of `FL` (R97, R236). -/
def readResponse (count : Byte) : List CmdOp := .tx Config.rspRead :: (List.range count.toNat).map .txFl

/-- The INFO response: its code, then `DEV_ID`, then `DEV_REV` (R97, R237). -/
def infoResponse : List CmdOp := [.tx Config.rspInfo, .txDevId, .txDevRev]

/-- RSP_ACK (R97, R231). -/
def execRspAck (s : State) : Host.Outcome State Fault Refusal := settle (runCmd [.tx Config.rspAck] s)

/-- RSP_INIT (R97, R232). -/
def execRspInit (s : State) : Host.Outcome State Fault Refusal := settle (runCmd [.tx Config.rspInit] s)

/-- RSP_RESET (R97, R233). -/
def execRspReset (s : State) : Host.Outcome State Fault Refusal := settle (runCmd [.tx Config.rspReset] s)

/-- RSP_WRITE (R97, R234). -/
def execRspWrite (s : State) : Host.Outcome State Fault Refusal := settle (runCmd [.tx Config.rspWrite] s)

/-- RSP_CHECKSUM_FAIL (R97, R234). -/
def execRspChecksumFail (s : State) : Host.Outcome State Fault Refusal :=
  settle (runCmd [.tx Config.rspChecksumFail] s)

/-- RSP_ERASE (R97, R235). -/
def execRspErase (s : State) : Host.Outcome State Fault Refusal := settle (runCmd [.tx Config.rspErase] s)

/-- RSP_READ (R97, R236): the number of data bytes is in `CNT`; an index beyond `FL` is `F_OVERFLOW` (D18). -/
def execRspRead (s : State) : Host.Outcome State Fault Refusal :=
  if s.cfg.nFlash < s.work.cnt.toNat then raise .overflow else settle (runCmd (readResponse s.work.cnt) s)

/-- RSP_INFO (R97, R237). -/
def execRspInfo (s : State) : Host.Outcome State Fault Refusal := settle (runCmd infoResponse s)

end Sys2Proof.Machine
end

