-- ==== Sys2Proof/Machine/Command.lean ====
section
/-! DEFINITION. The host commands (spec/46_dispatcher.md R231 to R237). -/
namespace Sys2Proof.Machine

/-- ACK (R231). -/
def execAck (_payload : List Byte) (s : State) : Host.Outcome State Fault Refusal :=
  settle (runCmd [.tx Config.rspAck, .frameReset] s)

/-- INIT (R232). -/
def execInit (_payload : List Byte) (s : State) : Host.Outcome State Fault Refusal :=
  settle (runCmd [.call (initTarget s.cfg), .call (deviceInfo s.cfg), .tx Config.rspInit, .led true, .frameReset] s)

/-- RESET (R233, R296). -/
def execReset (_payload : List Byte) (s : State) : Host.Outcome State Fault Refusal :=
  settle (runCmd [.frameReset, .tx Config.rspReset, .led false] s)

/-- What WRITE does before it touches the target or the host: its byte count `n` into `CNT` (R34, log 12), `ADDR`, `CKS`,
the copy into `FL`, `SUM` (R234). -/
def writePrologue (high low cks : Byte) (data : List Byte) (s : State) : State :=
  let q := copyToFl 0 data
    { s with work := { s.work with
        cnt := BitVec.ofNat 8 data.length, addr := writeAddr s.work.addr high low, cks := cks } }
  { q with work := { q.work with sum := checksum high low data } }

/-- The statements of WRITE after its prologue: `0x43` and nothing else on a checksum mismatch (R262), else the flash
operation on `CNT` bytes, whose result is not tested (R241), and `0x83`. -/
def writeBranch (s : State) : List CmdOp :=
  if s.work.sum ≠ s.work.cks then [.tx Config.rspChecksumFail]
  else [.call (writeFlashBlock s.cfg (sentAddr s.work.addr) s.work.cnt), .tx Config.rspWrite, .frameReset]

/-- WRITE (R234, R242). -/
def execWrite (payload : List Byte) (s : State) : Host.Outcome State Fault Refusal :=
  match payload with
  | high :: low :: cks :: data =>
    if s.cfg.nFlash < data.length then raise .overflow
    else
      let q := writePrologue high low cks data s
      settle (runCmd (writeBranch q) q)
  | _ => raise .shortFrame

/-- ERASE (R235); the result is not tested (R241). -/
def execErase (_payload : List Byte) (s : State) : Host.Outcome State Fault Refusal :=
  settle (runCmd [.call (eraseDevice s.cfg), .frameReset, .tx Config.rspErase] s)

/-- The statements of READ after its prologue: the block read of `CNT` bytes, `frame_reset`, the response (R236). -/
def readBranch (s : State) : List CmdOp :=
  .call (readFlashBlock s.cfg (sentAddr s.work.addr) s.work.cnt) :: .frameReset :: readResponse s.work.cnt

/-- READ (R236, R242); the result is not tested (R241), and payload bytes beyond the fourth are ignored (R95). -/
def execRead (payload : List Byte) (s : State) : Host.Outcome State Fault Refusal :=
  match payload with
  | count :: a2 :: a1 :: a0 :: _ =>
    if s.cfg.nFlash < count.toNat then raise .overflow
    else
      let q := { s with work := { s.work with cnt := count, addr := readAddr a2 a1 a0 } }
      settle (runCmd (readBranch q) q)
  | _ => raise .shortFrame

/-- INFO (R237). -/
def execInfo (_payload : List Byte) (s : State) : Host.Outcome State Fault Refusal :=
  settle (runCmd (.frameReset :: infoResponse) s)

end Sys2Proof.Machine
end

