-- ==== Sys2Proof/Machine/Wire.lean ====
section
/-! DEFINITION. The two-wire instructions (spec/41_c2_instructions.md R150 to R153). -/
namespace Sys2Proof.Machine

/-- What remains of a data instruction: nothing, or the wait field. -/
def settleWire (w : WireWait) (r : Bool × State) : Host.Outcome State Fault Refusal :=
  settle (if r.1 then {} else { wire := some w }, r.2)

/-- `addressWrite` (R150). -/
def execAddressWrite (address : Byte) (s : State) : Host.Outcome State Fault Refusal :=
  .next (addressWrite address s)

/-- `addressRead` (R151). -/
def execAddressRead (s : State) : Host.Outcome State Fault Refusal := .next (addressRead s)

/-- `dataWrite` (R152). -/
def execDataWrite (data : Byte) (s : State) : Host.Outcome State Fault Refusal :=
  settleWire (.dataWrite data) (dataWrite data s)

/-- `dataRead` (R153). -/
def execDataRead (s : State) : Host.Outcome State Fault Refusal := settleWire .dataRead (dataRead s)

end Sys2Proof.Machine
end

