-- ==== Sys2Proof/Machine/Dispatch.lean ====
section
/-! DEFINITION. The meaning of every instruction, one arm per constructor. -/
namespace Sys2Proof.Machine

def exec (i : Instr) (s : State) : Host.Outcome State Fault Refusal :=
  match i with
  | .ack payload => Sys2Proof.Machine.execAck payload s
  | .init payload => Sys2Proof.Machine.execInit payload s
  | .reset payload => Sys2Proof.Machine.execReset payload s
  | .write payload => Sys2Proof.Machine.execWrite payload s
  | .erase payload => Sys2Proof.Machine.execErase payload s
  | .read payload => Sys2Proof.Machine.execRead payload s
  | .info payload => Sys2Proof.Machine.execInfo payload s
  | .addressWrite address => Sys2Proof.Machine.execAddressWrite address s
  | .addressRead => Sys2Proof.Machine.execAddressRead s
  | .dataWrite data => Sys2Proof.Machine.execDataWrite data s
  | .dataRead => Sys2Proof.Machine.execDataRead s
  | .deviceErase => Sys2Proof.Machine.execDeviceErase s
  | .blockRead address count => Sys2Proof.Machine.execBlockRead address count s
  | .blockWrite address length => Sys2Proof.Machine.execBlockWrite address length s
  | .rspAck => Sys2Proof.Machine.execRspAck s
  | .rspInit => Sys2Proof.Machine.execRspInit s
  | .rspReset => Sys2Proof.Machine.execRspReset s
  | .rspWrite => Sys2Proof.Machine.execRspWrite s
  | .rspChecksumFail => Sys2Proof.Machine.execRspChecksumFail s
  | .rspErase => Sys2Proof.Machine.execRspErase s
  | .rspRead => Sys2Proof.Machine.execRspRead s
  | .rspInfo => Sys2Proof.Machine.execRspInfo s

end Sys2Proof.Machine
end

