-- ==== Sys2Proof/Machine/Framing.lean ====
section
/-! DEFINITION. The command framing state machine (spec/45_framing.md R210 to R215) and reading back the frame it has
assembled. -/
namespace Sys2Proof.Machine

/-- `FB[CUR] <- b ; CUR <- CUR + 1`, then the registers `g` of the transition; an index outside `FB` is `F_OVERFLOW`
(R35, R219, log 13). -/
def appendByte (b : Byte) (g : Framing → Framing) (s : State) : Host.Outcome State Fault Refusal :=
  if s.cfg.nPayload + 1 < s.frame.cur.toNat then raise .overflow
  else
    .next { s with
      fb := s.fb.write s.frame.cur.toNat b
      frame := g { s.frame with cur := s.frame.cur + 1 } }

/-- `AwaitingAction` (R211). -/
def frameAction (b : Byte) (s : State) : Host.Outcome State Fault Refusal :=
  appendByte b (fun f => { f with fs := .awaitingLength })
    { s with frame := { s.frame with action := b, cur := 0 } }

/-- `AwaitingLength` (R212): the capacity check comes before anything is stored (R219). -/
def frameLength (b : Byte) (s : State) : Host.Outcome State Fault Refusal :=
  if s.cfg.nPayload < b.toNat then raise .overflow
  else
    appendByte b (fun f => { f with fs := if b = 0 then .complete else .awaitingPayload })
      { s with frame := { s.frame with length := b, rem := b } }

/-- `AwaitingPayload` (R213). -/
def framePayload (b : Byte) (s : State) : Host.Outcome State Fault Refusal :=
  appendByte b
    (fun f => { f with rem := f.rem - 1, fs := if f.rem - 1 = 0 then .complete else .awaitingPayload }) s

/-- `frame_step(b)` (R210). The main loop never feeds a byte in `Complete` (R214); one that is fed there has no
defined transition (U1, log 14). -/
def frameStep (b : Byte) (s : State) : Host.Outcome State Fault Refusal :=
  match s.frame.fs with
  | .awaitingAction => frameAction b s
  | .awaitingLength => frameLength b s
  | .awaitingPayload => framePayload b s
  | .complete => raise .byteInComplete

/-- The frame the Dispatcher sees: `ACTION`, `LENGTH` and the payload bytes `FB[2 .. LENGTH+1]` (R61, R79, R230). -/
def fetchFrame (s : State) : List Byte :=
  s.frame.action :: s.frame.length ::
    (List.range s.frame.length.toNat).map fun k => s.fbByte (k + 2)

/-- The bytes of a frame fed to the framer one after another; a fault leaves the state as it was. -/
def feedBytes (bytes : List Byte) (s : State) : State :=
  match bytes with
  | [] => s
  | b :: rest =>
    match frameStep b s with
    | .next q => feedBytes rest q
    | _ => s

/-- The state in which the very next pass of the main loop takes a frame's last byte and dispatches it: the framer
has had all bytes but the last, which is the first byte waiting in the transport (log 9). -/
def loadFrame (bytes : List Byte) (s : State) : State :=
  let q := feedBytes bytes.dropLast { s with frame := { s.frame with fs := .awaitingAction } }
  { q with env := { q.env with rx := bytes.getLastD 0 :: q.env.rx } }

end Sys2Proof.Machine
end

