-- ==== Sys2Proof/Machine/MainLoop.lean ====
section
/-! DEFINITION. The main loop (spec/45_framing.md R216, R217), the Dispatcher's selection (spec/46_dispatcher.md R230,
R238), hardware reset (spec/70_reset_and_hazards.md R290), and placing an instruction where the next step fetches. -/
namespace Sys2Proof.Machine

/-- `dispatch()` (R230). An unknown action returns having done nothing (R238). A length beyond the frame buffer, which
the framer never lets in, is an index outside `FB` (log 13). -/
def dispatch (s : State) : Host.Outcome State Fault Refusal :=
  if s.cfg.nPayload < s.frame.length.toNat then raise .overflow
  else
    match decodeFrame s.cfg (fetchFrame s) with
    | .ok i => exec i s
    | .error _ => .next s

/-- The second half of a pass: `if FS = Complete and (DISPATCH_MODE = LEVEL or took): dispatch()` (R216). -/
def dispatchIf (took : Bool) (s : State) : Host.Outcome State Fault Refusal :=
  if s.frame.fs = .complete ∧ (took = true ∨ s.cfg.dispatchMode = .level) then dispatch s else .next s

/-- `rx_read()`: the oldest byte waiting in the transport is taken (R216, R41). -/
def takeByte (b : Byte) (rest : List Byte) (s : State) : State :=
  emit (.rx b) { s with env := { s.env with rx := rest } }

/-- One pass of `main_loop()` (R216). -/
def mainLoop (s : State) : Host.Outcome State Fault Refusal :=
  match s.env.rx with
  | [] => dispatchIf false s
  | b :: rest =>
    if s.frame.fs = .complete then dispatchIf false s
    else
      match frameStep b (takeByte b rest s) with
      | .next q => dispatchIf true q
      | other => other

/-- What the block does next when no reset strikes: the routine at whose entry the sequencer stands, or the branch
that waits, or a pass of the main loop. -/
def pass (s : State) : Host.Outcome State Fault Refusal :=
  match s.seq.entry with
  | some e =>
    match decode s.cfg e with
    | .ok i => exec i { s with seq := { s.seq with entry := none } }
    | .error why => .refused (.notAnInstruction why)
  | none => if s.seq.idle then mainLoop s else .next (resume s)

/-! ## Hardware reset (R290) -/

/-- Every piece of the block's state takes its reset value (R43, logs 6, 7); the parameters stay; what waits in the
transport, what the target does and what has happened are not the block's (R41, R294). DESIGN CHOICE (log 24): the
return of `CK` to 1, of `DOE`, `LED` and `IRQM` to 0, and of `DOUT`, puts no event on the record, also where the
latch changes; R12, R290, R294 and D25 do not say whether it is one. -/
def hardReset (s : State) : State :=
  { State.reset with
    cfg := s.cfg
    env := { s.env with resetIn := none }
    log := s.log
    epoch := s.epoch + 1 }

/-- Is it `RX`? -/
def Event.isRx (e : Event) : Bool := match e with | .rx _ => true | _ => false

/-- Is it a sample? -/
def Event.isDin (e : Event) : Bool := match e with | .din _ => true | _ => false

/-- Is it the end of a two-wire instruction? Every instruction ends with `IRQ(on)` (R141). -/
def Event.isIrqOn (e : Event) : Bool := match e with | .irq false => true | _ => false

/-- The byte of a `TX`. -/
def Event.txByte? (e : Event) : Option Byte := match e with | .tx b => some b | _ => none

/-- The transport's listed answers that are left after it has accepted `n` bytes. -/
def dropAccepted (n : Nat) (gate : List Bool) : List Bool :=
  match n with
  | 0 => gate
  | n + 1 => dropAccepted n (gate.dropWhile (!·)).tail

/-- The surroundings and the record when only the first `k` events of the pass from `s` to `t` have happened: the
bytes taken, the samples answered, the bytes accepted and the instructions completed are those of these events
(R290, log 8). -/
def cutAfter (k : Nat) (s t : State) : State :=
  let events := t.log.trace.take (t.log.trace.length - s.log.trace.length)
  let kept := events.drop (events.length - k)
  let done := t.log.issued.take (t.log.issued.length - s.log.issued.length)
  let sent := (kept.filterMap Event.txByte?).reverse
  { s with
    env := { s.env with
      rx := s.env.rx.drop (kept.countP Event.isRx)
      tx := s.env.tx ++ sent
      txGate := dropAccepted sent.length s.env.txGate
      target := s.env.target.drop (kept.countP Event.isDin) }
    log := {
      trace := kept ++ s.log.trace
      issued := done.drop (done.length - kept.countP Event.isIrqOn) ++ s.log.issued } }

/-- Where a pass that stops (R266) stands when it stops: a byte has been taken where the pass takes one, and
nothing else has happened, because every fault is raised before anything after the `RX` (R219, R242). -/
def beforeStop (s : State) : State :=
  match s.seq.entry, s.env.rx with
  | none, b :: rest => if s.frame.fs = .complete then s else takeByte b rest s
  | _, _ => s

/-- The reset input strikes right after `k` further events of the pass: the operation in progress is abandoned at
that point, including the middle of a two-wire instruction (R290). A pass that stops with fewer events than `k`
behind it has stopped before the reset comes: the stop stands, without a successor (R266, log 8). -/
def resetDuringPass (k : Nat) (s : State) : Host.Outcome State Fault Refusal :=
  match pass s with
  | .next t => .next (hardReset (cutAfter k s t))
  | stop =>
    if (beforeStop s).log.trace.length < s.log.trace.length + k then stop
    else .next (hardReset (cutAfter k s (beforeStop s)))

/-! ## Placing an instruction -/

/-- The sequencer at the top of the main loop, or at the entry of the instruction's routine, with the reset input
quiet, so that the very next step runs the instruction (log 9). -/
def loadEncoded (e : Encoded) (s : State) : State :=
  let q := { s with seq := {}, env := { s.env with resetIn := none } }
  match e with
  | .frame bytes => loadFrame bytes q
  | .wire width word => { q with seq := { entry := some (.wire width word) } }
  | .fpi bytes => { q with seq := { entry := some (.fpi bytes) } }
  | .response code => { q with seq := { entry := some (.response code) } }

end Sys2Proof.Machine
end

