-- ==== Sys2Proof/Machine/Step.lean ====
section
/-! DEFINITION. One step of the machine (log 1), and the host's way to place an instruction before it (log 9). -/
namespace Sys2Proof.Machine

/-- One step: refused for parameters outside R8's constraints (U4, U14, U16); else the pass, cut short by a hardware
reset where one strikes before it ends or faults. -/
def step (s : State) : Host.Outcome State Fault Refusal :=
  if s.cfg.Admissible then
    match s.env.resetIn with
    | some k => resetDuringPass k s
    | none => pass s
  else .refused .badConfiguration

/-- `s` with the instruction of the table's bits `w` placed where the next step fetches (log 9). -/
def State.withFetchWord (s : State) (nbits w : Nat) : State := loadEncoded (tableEncoded s.cfg nbits w) s

end Sys2Proof.Machine
end

