-- ==== Sys2Proof/Safety.lean ====
section
/-! DEFINITION. The terms claims use: event sequences of the two-wire instructions (spec/41_c2_instructions.md), the
exchanges through `FPDAT` (spec/30_encoding.md R107) and what a target does to let one run, what each level leaves
unchanged, and the invariant of the block (spec/10_state.md R44, R45). -/
namespace Sys2Proof.Machine

/-! ## Events, oldest first, in the letters of spec/41_c2_instructions.md -/

/-- The bits of a byte in wire order, least significant first (R65). -/
def byteBits (b : Byte) : List Bool := (List.range 8).map b.getLsbD

/-- The byte whose `i`-th bit is the `i`-th sampled level (R105(e)). -/
def byteOfBits (bits : List Bool) : Byte := (BitVec.ofBoolListLE bits).setWidth 8

/-- `P` (R131). -/
def evPulse : List Event := [.ck false, .delay Config.tHalf, .ck true, .delay Config.tHalf]

/-- `Wb P` for each bit (R137). -/
def evDrive (bits : List Bool) : List Event := bits.flatMap fun b => .dout b :: evPulse

/-- `P S=b` for each sampled bit (R138, R139). -/
def evSample (bits : List Bool) : List Event := bits.flatMap fun b => evPulse ++ [.din b]

/-- `P [ O`, the word, `I` (R141). -/
def evHead (word : List Bool) : List Event := evPulse ++ [.irq true, .ddir true] ++ evDrive word ++ [.ddir false]

/-- `P ]` (R141). -/
def evTail : List Event := evPulse ++ [.irq false]

/-- A whole two-wire instruction: its word, the samples of its wait field, its response bits (R141). -/
def evInstr (word waits response : List Bool) : List Event :=
  evHead word ++ evSample waits ++ evSample response ++ evTail

/-- The samples of a wait field: `k` of 0, then a 1 (R139). -/
def waits (k : Nat) : List Bool := List.replicate k false ++ [true]

/-- The number of pulses, that is of falling clock edges, in a piece of the record. -/
def pulses (events : List Event) : Nat := events.count (.ck false)

/-- The levels placed on the data line, in order. -/
def drivenBits (events : List Event) : List Bool :=
  events.filterMap fun e => match e with | .dout b => some b | _ => none

/-- The events from `s` to a later state `t`, oldest first. -/
def newEvents (s t : State) : List Event :=
  (t.log.trace.take (t.log.trace.length - s.log.trace.length)).reverse

/-- The events of an address write, a data write with `k` zeros in its wait field, and a data read of `v` (R150, R152,
R153). -/
def evAw (a : Byte) : List Event := evInstr ([true, true] ++ byteBits a) [] []
def evDw (d : Byte) (k : Nat) : List Event := evInstr ([true, false, false, false] ++ byteBits d) (waits k) []
def evDr (v : Byte) (k : Nat) : List Event := evInstr [false, false, false, false] (waits k) (byteBits v)

/-- The events of an address read of `v` (R151). -/
def evAr (v : Byte) : List Event := evInstr [false, true] [] (byteBits v)

/-- The events of INIT: `init()`, `deviceInfo()`, the response, the indicator (R200, R201, R202, R232); `k1` to `k5`
are the zeros in the five wait fields. -/
def initEvents (p : Params) (k1 k2 k3 k4 k5 : Nat) (id rev : Byte) : List Event :=
  List.flatten [[.ck false, .delay Config.tRstLow, .ck true, .delay Config.tRstHigh], evAw p.aFpctl,
    evDw Config.enable1 k1, [.delay Config.tGap], evDw Config.enable2 k2, [.delay Config.tGap],
    evDw Config.enable3 k3, [.delay Config.tSettle], evAw p.aDeviceId, evDr id k4, evAw p.aRevId, evDr rev k5,
    [.tx Config.rspInit, .led true]]

/-- The events of the two wires and of the waits, which are those of everything below the Dispatcher: none of `RX`, `TX`,
`LED`. -/
def Event.onWires (e : Event) : Bool :=
  match e with
  | .rx _ => false
  | .tx _ => false
  | .led _ => false
  | .ck _ => true
  | .ddir _ => true
  | .dout _ => true
  | .din _ => true
  | .delay _ => true
  | .irq _ => true

/-! ## What the target answers (R13) -/

/-- The levels of the next `n` samples taken with the data pin released. -/
def State.answers (s : State) (n : Nat) : List Bool :=
  (List.range n).map fun i => (s.env.target.getD i s.env.targetRest).level

/-- The target's answers `ds` are those that let the instruction `a` run to its end with the values it has (R150 to
R153): a wait field of any length that ends with 1, and the bits of the byte read. -/
def AnswersTo (a : WireAccess) (ds : List LineDrive) : Prop :=
  match a with
  | .aw _ => ds = []
  | .ar v => ds.map LineDrive.level = byteBits v
  | .dw _ => ∃ k, ds.map LineDrive.level = List.replicate k false ++ [true]
  | .dr v => ∃ k, ds.map LineDrive.level = List.replicate k false ++ true :: byteBits v

/-- The same for a sequence of instructions. -/
def AnswersAll (l : List WireAccess) (ds : List LineDrive) : Prop :=
  match l with
  | [] => ds = []
  | a :: rest => ∃ d e, ds = d ++ e ∧ AnswersTo a d ∧ AnswersAll rest e

/-! ## Exchanges (R107) as sequences of completed instructions -/

/-- `pollBitLow(mask)` ending with the read `v` (R171). -/
def PollLowRun (mask : Byte) (l : List WireAccess) : Prop :=
  ∃ fails v, l = (fails ++ [v]).map .ar ∧ (∀ f ∈ fails, f &&& mask ≠ 0) ∧ v &&& mask = 0

/-- `pollBitHigh(mask)` ending with the read `v` (R170). -/
def PollHighRun (mask : Byte) (l : List WireAccess) : Prop :=
  ∃ fails v, l = (fails ++ [v]).map .ar ∧ (∀ f ∈ fails, f &&& mask = 0) ∧ v &&& mask ≠ 0

/-- `W(x)` (R107, R181). -/
def WriteStep (p : Params) (x : Byte) (l : List WireAccess) : Prop :=
  ∃ polls, PollLowRun p.busyMask polls ∧ l = .dw x :: polls

/-- `A`, `A*` or `R` with the byte read (R107, R182, R185). -/
def ReadStep (p : Params) (v : Byte) (l : List WireAccess) : Prop :=
  ∃ polls, PollHighRun p.readyMask polls ∧ l = polls ++ [.dr v]

/-- A run of `W`s, one for each byte. -/
def WriteSteps (p : Params) (xs : List Byte) (l : List WireAccess) : Prop :=
  match xs with
  | [] => l = []
  | x :: rest => ∃ a b, l = a ++ b ∧ WriteStep p x a ∧ WriteSteps p rest b

/-- A run of `R`s, one for each byte. -/
def ReadSteps (p : Params) (vs : List Byte) (l : List WireAccess) : Prop :=
  match vs with
  | [] => l = []
  | v :: rest => ∃ a b, l = a ++ b ∧ ReadStep p v a ∧ ReadSteps p rest b

/-- The common head of the three operations, its acknowledgment read as `ack` (R183). -/
def OpenRun (p : Params) (op ack : Byte) (l : List WireAccess) : Prop :=
  ∃ a b, l = .aw p.aFpdat :: (a ++ b) ∧ WriteStep p op a ∧ ReadStep p ack b

/-- The exchange of `eraseDevice()` after a good first acknowledgment; `ack` is the second one (R184). -/
def EraseRun (p : Params) (ack : Byte) (l : List WireAccess) : Prop :=
  ∃ a b c, l = a ++ (b ++ c) ∧ OpenRun p p.fpiDeviceErase Config.ackOk a ∧ WriteSteps p Config.eraseKey b ∧
    ReadStep p ack c

/-- The exchange of `readFlashBlock` after a good first acknowledgment; `vs` are the bytes read (R185). -/
def BlockReadRun (p : Params) (address : Addr16) (count : Byte) (vs : List Byte) (l : List WireAccess) : Prop :=
  vs.length = count.toNat ∧ ∃ a b c d second, l = a ++ (b ++ (c ++ d)) ∧
    OpenRun p p.fpiBlockRead Config.ackOk a ∧ WriteSteps p [addrHigh address, addrLow address, count] b ∧
    ReadStep p second c ∧ ReadSteps p vs d

/-- The exchange of `writeFlashBlock` after a good first acknowledgment, sending `xs`; `ack` is the closing
acknowledgment (R186). -/
def BlockWriteRun (p : Params) (address : Addr16) (xs : List Byte) (ack : Byte) (l : List WireAccess) : Prop :=
  ∃ a b c, l = a ++ (b ++ c) ∧ OpenRun p p.fpiBlockWrite Config.ackOk a ∧
    WriteSteps p (addrHigh address :: addrLow address :: BitVec.ofNat 8 xs.length :: xs) b ∧ ReadStep p ack c

/-- The instructions of INIT: `init()` then `deviceInfo()` reading `id` and `rev` (R200 to R202). -/
def initAccesses (p : Params) (id rev : Byte) : List WireAccess :=
  [.aw p.aFpctl, .dw Config.enable1, .dw Config.enable2, .dw Config.enable3,
    .aw p.aDeviceId, .dr id, .aw p.aRevId, .dr rev]

/-! ## What each level leaves unchanged -/

/-- The pins between two-wire instructions (R45, R143). -/
def State.idlePins (s : State) : Prop := s.pins.ck = true ∧ s.pins.doe = false ∧ s.pins.irqm = false

/-- What no routine below the Dispatcher changes: everything but the pins, the shift register and its counter, `V`,
`IDX`, `RES`, `FL`, `DEV_*`, the target's answers and the record. -/
structure RoutineFrame (s t : State) : Prop where
  cfg : t.cfg = s.cfg
  frame : t.frame = s.frame
  fb : t.fb = s.fb
  fbByte : ∀ a, t.fbByte a = s.fbByte a
  led : t.pins.led = s.pins.led
  addr : t.work.addr = s.work.addr
  cks : t.work.cks = s.work.cks
  sum : t.work.sum = s.work.sum
  cnt : t.work.cnt = s.work.cnt
  rx : t.env.rx = s.env.rx
  tx : t.env.tx = s.env.tx
  txGate : t.env.txGate = s.env.txGate
  txGateRest : t.env.txGateRest = s.env.txGateRest
  targetRest : t.env.targetRest = s.env.targetRest
  resetIn : t.env.resetIn = s.env.resetIn
  epoch : t.epoch = s.epoch

/-- What no two-wire instruction changes besides. -/
structure WireFrame (s t : State) : Prop extends RoutineFrame s t where
  fl : t.fl = s.fl
  flByte : ∀ a, t.flByte a = s.flByte a
  dev : t.dev = s.dev
  idx : t.work.idx = s.work.idx
  res : t.work.res = s.work.res

/-- What no host command changes: the parameters, `FB`, the framing registers but `FS`, the bytes that wait, the
surroundings' resting answers. -/
structure CommandFrame (s t : State) : Prop where
  cfg : t.cfg = s.cfg
  fb : t.fb = s.fb
  fbByte : ∀ a, t.fbByte a = s.fbByte a
  action : t.frame.action = s.frame.action
  length : t.frame.length = s.frame.length
  rem : t.frame.rem = s.frame.rem
  cur : t.frame.cur = s.frame.cur
  rx : t.env.rx = s.env.rx
  txGateRest : t.env.txGateRest = s.env.txGateRest
  targetRest : t.env.targetRest = s.env.targetRest
  resetIn : t.env.resetIn = s.env.resetIn
  epoch : t.epoch = s.epoch

/-- What a command or response that only answers the host changes besides: the answer, the transport's answers, `FS`,
`LED`, `IDX`. -/
structure ReplyFrame (s t : State) : Prop extends CommandFrame s t where
  fl : t.fl = s.fl
  flByte : ∀ a, t.flByte a = s.flByte a
  dev : t.dev = s.dev
  pins : t.pins = { s.pins with led := t.pins.led }
  work : t.work = { s.work with idx := t.work.idx }
  seq : t.seq = s.seq
  target : t.env.target = s.env.target
  issued : t.log.issued = s.log.issued

/-- What a command that uses the two wires leaves unchanged: `LED`, `CKS`, `SUM`, `ADDR`, `CNT` where it does not say
otherwise, and the sequencer of its caller; the lines end idle. -/
structure TrafficFrame (s t : State) : Prop extends CommandFrame s t where
  seq : t.seq = s.seq
  idle : t.idlePins

/-- `FL` is unchanged. -/
def KeepsFl (s t : State) : Prop := t.fl = s.fl ∧ ∀ a, t.flByte a = s.flByte a

/-! ## Runs -/

/-- The target's selected address as the block's address writes have left it, if there was one (R40, R155). -/
def State.selected (s : State) : Option Byte :=
  s.log.issued.findSome? fun a => match a with | .aw r => some r | _ => none

/-- The block is quiescent, in the words of R15. -/
def State.quiescent (s : State) : Prop :=
  s.frame.fs = .awaitingAction ∧ s.pins.irqm = false ∧ s.pins.doe = false ∧ s.pins.ck = true ∧ s.env.rx = []

/-- The block waits in `Complete` at the top of the main loop (R263, R265). -/
def State.heldComplete (s : State) : Prop :=
  s.frame.fs = .complete ∧ s.seq.idle = true ∧ s.env.resetIn = none ∧ s.cfg.Admissible

/-- `n` steps from `s`. -/
def run (n : Nat) (s : State) : Host.Outcome State Fault Refusal := core.run n s

/-- The events of a pass that ends in a fault, before the fault: the `RX` of the byte it takes, if it takes one (R219, R242,
log 8). -/
def State.eventsBeforeFault (s : State) : List Event :=
  if s.seq.entry = none ∧ s.frame.fs ≠ .complete then (s.env.rx.take 1).map .rx else []

/-! ## Command runs (R15, log 25) -/

/-- No frame is being assembled and the Dispatcher has returned: it has reset the framing state, or left `Complete`. -/
def State.commandOver (s : State) : Prop :=
  s.seq.idle = true ∧ (s.frame.fs = .awaitingAction ∨ s.frame.fs = .complete)

/-- The `n` steps from `s` to `t` are those of one command run: the first takes a byte in `AwaitingAction`, the last is the
first after which the Dispatcher has returned, and no hardware reset strikes. A hang and a fault have none. -/
structure CommandRun (n : Nat) (s t : State) : Prop where
  start : s.frame.fs = .awaitingAction
  top : s.seq.idle = true
  byte : s.env.rx ≠ []
  quiet : s.env.resetIn = none
  steps : run n s = .next t
  stepped : 0 < n
  returned : t.commandOver
  first : ∀ m u, 0 < m → m < n → run m s = .next u → ¬ u.commandOver

/-- The command run is final: it ends, and it does not leave `FS = Complete` (R15, R263, R265). -/
def FinalRun (n : Nat) (s t : State) : Prop := CommandRun n s t ∧ t.frame.fs = .awaitingAction

/-- The branches whose last `TX` comes after their `frame_reset` (R243). -/
abbrev endsWithByte (p : Params) (action : Byte) : Prop :=
  action = p.actReset ∨ action = p.actErase ∨ action = p.actRead ∨ action = p.actInfo

/-- A sequence of events up to and including its last `TX`. -/
def upToLastTx (events : List Event) : List Event :=
  (events.reverse.dropWhile fun e => e.txByte?.isNone).reverse

/-- The events of the command run from `s` to `t`, oldest first, `action` being the action of its frame: up to the last `TX`
where that comes after the `frame_reset`, else up to the `frame_reset` or the return of the branch (R15). -/
def commandEvents (action : Byte) (s t : State) : List Event :=
  if endsWithByte t.cfg action then upToLastTx (newEvents s t) else newEvents s t

/-! ## The invariant -/

/-- A register equals its byte of `FB` once that byte has been written (R22, R23). -/
def OnceWritten (stored : Option Byte) (register : Byte) : Prop := stored = none ∨ stored = some register

/-- What the framing registers and `FB` satisfy in each framing state (R22, R23, R44, R218). -/
def FramingInv (s : State) : Prop :=
  match s.frame.fs with
  | .awaitingAction => OnceWritten (s.fb.read 0) s.frame.action ∧ OnceWritten (s.fb.read 1) s.frame.length
  | .awaitingLength =>
    s.frame.cur = 1 ∧ s.fb.read 0 = some s.frame.action ∧ OnceWritten (s.fb.read 1) s.frame.length
  | .awaitingPayload =>
    s.fb.read 0 = some s.frame.action ∧ s.fb.read 1 = some s.frame.length ∧ 1 ≤ s.frame.rem.toNat ∧
      s.frame.cur.toNat + s.frame.rem.toNat = s.frame.length.toNat + 2 ∧ 2 ≤ s.frame.cur.toNat ∧
      s.frame.length.toNat ≤ s.cfg.nPayload ∧ ∀ i, i < s.frame.cur.toNat → (s.fb.read i).isSome = true
  | .complete =>
    s.frame.rem = 0 ∧ s.frame.cur.toNat = s.frame.length.toNat + 2 ∧ s.fb.read 0 = some s.frame.action ∧
      s.fb.read 1 = some s.frame.length ∧ s.frame.length.toNat ≤ s.cfg.nPayload ∧
      ∀ i, i < s.frame.length.toNat + 2 → (s.fb.read i).isSome = true

/-- The invariant of the block: admissible parameters, buffers in canonical form, the pins of R45 (the critical
section is open exactly while the block is held in a wait field), and R44. -/
structure State.Inv (s : State) : Prop where
  cfg : s.cfg.Admissible
  fb : s.fb.wf = true
  fl : s.fl.wf = true
  clock : s.pins.ck = true
  input : s.pins.doe = false
  critical : s.pins.irqm = s.seq.wire.isSome
  entry : s.seq.entry.isSome = true → s.seq.wire = none
  framing : FramingInv s

end Sys2Proof.Machine
end

