-- ==== Sys2Proof/Certificates/Slice0/Obligations.lean ====
section
/-! DEFINITION. The statements for the provers. Each docstring names the rules of spec/ its statement formalises, and
the assumption-log entry where a clause rests on a choice of the model. -/

open Sys2Proof Sys2Proof.Machine

/-! ## Encodings (spec/30_encoding.md) -/

/-- R91, R92, R97, R100 to R103, R106, R107: every well-formed instruction is read back from its encoding. R8 asks only the
action codes to be distinct, so the three FPI command bytes are asked to be distinct here. -/
def Obligations.DecodeEncodeRoundTrip : Prop :=
  ∀ (p : Params) (i : Instr), p.Admissible → p.fpiCodes.Nodup → WellFormed p i → decode p (encode p i) = .ok i

/-- R91, R97, R104, R107, R114: whatever the decoders accept is exactly what the encoder writes for it. -/
def Obligations.AcceptedFormsAreEncodings : Prop :=
  ∀ (p : Params) (e : Encoded) (i : Instr), decode p e = .ok i → encode p i = e

/-- R100 to R103, R105(d), R65: the instruction words on the wire, first bit first. -/
def Obligations.WordBitsInWireOrder : Prop :=
  (∀ a : Byte, (List.range 10).map (addressWriteWord a).getLsbD = [true, true] ++ byteBits a) ∧
    (List.range 2).map addressReadWord.getLsbD = [false, true] ∧
    (∀ d : Byte, (List.range 12).map (dataWriteWord d).getLsbD = [true, false, false, false] ++ byteBits d) ∧
    (List.range 4).map dataReadWord.getLsbD = [false, false, false, false]

/-- R91, R97, R100 to R103, R107: words written out from the spec's encodings, one of each format, at the default
parameters of R8 (log 4). -/
def Obligations.KnownWordsDecode : Prop :=
  decode Config.defaults (.frame [0x01, 0x00]) = .ok (.ack []) ∧
    decode Config.defaults (.frame [0x04, 0x04, 0x12, 0x34, 0x56, 0x10]) = .ok (.write [0x12, 0x34, 0x56, 0x10]) ∧
    decode Config.defaults (.wire 10 0x2D3#12) = .ok (.addressWrite 0xB4) ∧
    decode Config.defaults (.wire 2 0x002#12) = .ok .addressRead ∧
    decode Config.defaults (.wire 12 0xA51#12) = .ok (.dataWrite 0xA5) ∧
    decode Config.defaults (.wire 4 0x000#12) = .ok .dataRead ∧
    decode Config.defaults (.fpi [0x06, 0x12, 0x34, 0x02]) = .ok (.blockRead 0x1234 0x02) ∧
    decode Config.defaults (.response 0x43) = .ok .rspChecksumFail

/-! ## Two-wire instructions (spec/41_c2_instructions.md) -/

/-- R150, R141: `addressWrite`. -/
def Obligations.AddressWriteEffect : Prop :=
  ∀ (address : Byte) (s : State), ∃ t, exec (.addressWrite address) s = .next t ∧ WireFrame s t ∧ t.seq = s.seq ∧
    t.env.target = s.env.target ∧ t.work.v = s.work.v ∧
    t.pins = { s.pins with ck := true, doe := false, dout := address.getLsbD 7, irqm := false } ∧
    t.log.issued = .aw address :: s.log.issued ∧ t.log.trace = (evAw address).reverse ++ s.log.trace

/-- R151, R141, R105(e): `addressRead`, the byte read being the eight levels sampled, first sample in bit 0. -/
def Obligations.AddressReadEffect : Prop :=
  ∀ s : State, ∃ t, exec .addressRead s = .next t ∧ WireFrame s t ∧ t.seq = s.seq ∧
    t.env.target = s.env.target.drop 8 ∧ (∀ i, i < 8 → t.work.v.getLsbD i = (s.answers 8).getD i false) ∧
    t.pins = { s.pins with ck := true, doe := false, dout := true, irqm := false } ∧
    t.log.issued = .ar t.work.v :: s.log.issued ∧ t.log.trace = (evAr t.work.v).reverse ++ s.log.trace

/-- R152, R139, R141: `dataWrite`, when the target ends the wait field after `k` zeros. The block is not held in the wait
field when a listed answer is left after each of the zeros (log 1). -/
def Obligations.DataWriteEffect : Prop :=
  ∀ (data : Byte) (k : Nat) (s : State), s.answers (k + 1) = waits k → k = 0 ∨ k < s.env.target.length →
    ∃ t, exec (.dataWrite data) s = .next t ∧ WireFrame s t ∧ t.seq = s.seq ∧
      t.env.target = s.env.target.drop (k + 1) ∧ t.work.v = s.work.v ∧
      t.pins = { s.pins with ck := true, doe := false, dout := data.getLsbD 7, irqm := false } ∧
      t.log.issued = .dw data :: s.log.issued ∧ t.log.trace = (evDw data k).reverse ++ s.log.trace

/-- R153, R139, R141, R105(e): `dataRead`, when the target ends the wait field after `k` zeros and then sends `v`. -/
def Obligations.DataReadEffect : Prop :=
  ∀ (v : Byte) (k : Nat) (s : State), s.answers (k + 9) = waits k ++ byteBits v → k = 0 ∨ k < s.env.target.length →
    ∃ t, exec .dataRead s = .next t ∧ WireFrame s t ∧ t.seq = s.seq ∧
      t.env.target = s.env.target.drop (k + 9) ∧ t.work.v = v ∧
      t.pins = { s.pins with ck := true, doe := false, dout := false, irqm := false } ∧
      t.log.issued = .dr v :: s.log.issued ∧ t.log.trace = (evDr v k).reverse ++ s.log.trace

/-- R156: a target that answers a data read with the data bits it saw in the data write before gives the byte back. The
bits it saw are those the block drove after the four tag bits. -/
def Obligations.DataRoundTrip : Prop :=
  ∀ (data : Byte) (k m : Nat) (s t : State), s.answers (k + 1) = waits k → k = 0 ∨ k < s.env.target.length →
    exec (.dataWrite data) s = .next t →
    t.answers (m + 9) = waits m ++ (drivenBits (newEvents s t)).drop 4 → m = 0 ∨ m < t.env.target.length →
    ∃ u, exec .dataRead t = .next u ∧ u.work.v = data

/-- R142: the pulses of the four instructions, counted in the record. -/
def Obligations.InstructionPulseCounts : Prop :=
  ∀ s : State,
    (∀ a, ∃ t, exec (.addressWrite a) s = .next t ∧ pulses (newEvents s t) = 12) ∧
    (∃ t, exec .addressRead s = .next t ∧ pulses (newEvents s t) = 12) ∧
    (∀ d k, s.answers (k + 1) = waits k → k = 0 ∨ k < s.env.target.length →
      ∃ t, exec (.dataWrite d) s = .next t ∧ pulses (newEvents s t) = 14 + (k + 1)) ∧
    (∀ v k, s.answers (k + 9) = waits k ++ byteBits v → k = 0 ∨ k < s.env.target.length →
      ∃ t, exec .dataRead s = .next t ∧ pulses (newEvents s t) = 14 + (k + 1))

/-- R152, R153, R264: on a line held at 0 a data instruction is held in its wait field with the critical section open. That
a step ends there is the model's choice (log 1). -/
def Obligations.DataInstructionHeld : Prop :=
  ∀ (data : Byte) (s : State), s.env.target = [] → s.env.targetRest = .low →
    (∃ t, exec (.dataWrite data) s = .next t ∧ WireFrame s t ∧ t.seq = { s.seq with wire := some (.dataWrite data) } ∧
      t.pins = { s.pins with ck := true, doe := false, dout := data.getLsbD 7, irqm := true } ∧
      t.log.issued = s.log.issued) ∧
    (∃ t, exec .dataRead s = .next t ∧ WireFrame s t ∧ t.seq = { s.seq with wire := some .dataRead } ∧
      t.pins = { s.pins with ck := true, doe := false, dout := false, irqm := true } ∧ t.log.issued = s.log.issued)

/-- R264, R139, R140: a wait field that never ends is an infinite run of pulses, each followed by a sample of 0, with
`IRQM = 1` and `DOE = 0`; nothing is sent, no byte is taken, the framing registers stay. -/
def Obligations.WaitFieldHangs : Prop :=
  ∀ (w : WireWait) (s : State), s.cfg.Admissible → s.env.resetIn = none → s.seq.entry = none →
    s.seq.wire = some w → s.pins.doe = false → s.pins.irqm = true → s.env.target = [] → s.env.targetRest = .low →
    ∀ n, ∃ t, run n s = .next t ∧ t.log.trace = (evSample (List.replicate n false)).reverse ++ s.log.trace ∧
      t.log.issued = s.log.issued ∧ t.seq = s.seq ∧ t.frame = s.frame ∧ t.env = s.env ∧ t.pins.irqm = true ∧
      t.pins.doe = false ∧ WireFrame s t

/-- R152, R153, R139, R35, R264: a data instruction held in its wait field goes on from there and ends when the target raises
the line, in a state `u`; then what remains of the routine and of the Dispatcher branch that issued it runs on from `u`, and
what then remains is the new sequencer position. That one step does this is the model's choice (log 1). -/
def Obligations.HeldInstructionEnds : Prop :=
  ∀ (k : Nat) (s : State), s.cfg.Admissible → s.env.resetIn = none → s.seq.entry = none → s.pins.doe = false →
    k = 0 ∨ k < s.env.target.length →
    (∀ d, s.seq.wire = some (.dataWrite d) → s.answers (k + 1) = waits k →
      ∃ u r, WireFrame s u ∧ u.seq = {} ∧ u.env.target = s.env.target.drop (k + 1) ∧ u.work.v = s.work.v ∧
        u.pins = { s.pins with ck := true, irqm := false } ∧ u.log.issued = .dw d :: s.log.issued ∧
        u.log.trace = (evSample (waits k) ++ evTail).reverse ++ s.log.trace ∧
        r = runCmd (.call s.seq.flash :: s.seq.cmd) u ∧ step s = .next { r.2 with seq := r.1 }) ∧
    (∀ v, s.seq.wire = some .dataRead → s.answers (k + 9) = waits k ++ byteBits v →
      ∃ u r, WireFrame s u ∧ u.seq = {} ∧ u.env.target = s.env.target.drop (k + 9) ∧ u.work.v = v ∧
        u.pins = { s.pins with ck := true, irqm := false } ∧ u.log.issued = .dr v :: s.log.issued ∧
        u.log.trace = (evSample (waits k ++ byteBits v) ++ evTail).reverse ++ s.log.trace ∧
        r = runCmd (.call s.seq.flash :: s.seq.cmd) u ∧ step s = .next { r.2 with seq := r.1 })

/-! ## Polls (spec/42_poll_primitives.md) -/

/-- R170, R171: the two polls read until the condition holds, return the last value read, and change what an address read
changes; the number of pulses is 12 a read. -/
def Obligations.PollsReadUntilCondition : Prop :=
  ∀ (mask v : Byte) (fails : List Byte) (s : State) (ds rest : List LineDrive),
    s.env.target = ds ++ rest → AnswersAll ((fails ++ [v]).map .ar) ds →
    ((∀ f ∈ fails, f &&& mask = 0) → v &&& mask ≠ 0 →
      ∃ t, pollBitHigh mask s = (true, t) ∧ WireFrame s t ∧ t.work.v = v ∧ t.env.target = rest ∧ t.idlePins ∧
        t.log.issued = ((fails ++ [v]).map .ar).reverse ++ s.log.issued ∧
        pulses (newEvents s t) = 12 * (fails.length + 1)) ∧
    ((∀ f ∈ fails, f &&& mask ≠ 0) → v &&& mask = 0 →
      ∃ t, pollBitLow mask s = (true, t) ∧ WireFrame s t ∧ t.work.v = v ∧ t.env.target = rest ∧ t.idlePins ∧
        t.log.issued = ((fails ++ [v]).map .ar).reverse ++ s.log.issued ∧
        pulses (newEvents s t) = 12 * (fails.length + 1))

/-- R264, R171, R170: a poll whose condition never comes issues address reads for ever with the lines idle between them;
nothing is sent, no byte is taken, the framing registers stay. -/
def Obligations.PollHangs : Prop :=
  ∀ (mask : Byte) (more : List FlashOp) (s : State), s.cfg.Admissible → s.env.resetIn = none →
    s.seq.entry = none → s.seq.wire = none → s.env.target = [] →
    (s.seq.flash = .pollBitLow mask :: more ∧ byteOfBits (List.replicate 8 s.env.targetRest.level) &&& mask ≠ 0 ∨
      s.seq.flash = .pollBitHigh mask :: more ∧ byteOfBits (List.replicate 8 s.env.targetRest.level) &&& mask = 0) →
    ∀ n, ∃ t, run n s = .next t ∧
      t.log.issued = List.replicate n (.ar (byteOfBits (List.replicate 8 s.env.targetRest.level))) ++ s.log.issued ∧
      t.seq = s.seq ∧ t.frame = s.frame ∧ t.env = s.env ∧ (0 < n → t.idlePins) ∧ WireFrame s t

/-! ## FPI commands (spec/43_flash_operations.md) -/

/-- R184, R107, R109, R180, R188: DEVICE_ERASE issues exactly its exchange and its result is the second acknowledgment's. `IDX`
has run over the key sequence (R34); that it keeps its last value is the model's reading (log 12). -/
def Obligations.EraseExchange : Prop :=
  ∀ (ack : Byte) (l : List WireAccess) (s : State) (ds rest : List LineDrive),
    EraseRun s.cfg ack l → AnswersAll l ds → s.env.target = ds ++ rest →
    ∃ t, exec .deviceErase s = .next t ∧ RoutineFrame s t ∧ KeepsFl s t ∧ t.work.idx = 2 ∧
      t.dev = s.dev ∧ t.seq = s.seq ∧
      t.env.target = rest ∧ t.log.issued = l.reverse ++ s.log.issued ∧ t.idlePins ∧
      t.work.res = if ack = Config.ackOk then .ok else .fail

/-- R185, R107, R180: BLOCK_READ issues exactly its exchange, stores the bytes read at `FL[0 .. count-1]` and nothing above,
whatever the second acknowledgment was; `CNT` holds its count (R34, log 12). -/
def Obligations.BlockReadExchange : Prop :=
  ∀ (address : Addr16) (count : Byte) (vs : List Byte) (l : List WireAccess) (s : State) (ds rest : List LineDrive),
    CountFits s.cfg count → BlockReadRun s.cfg address count vs l → AnswersAll l ds → s.env.target = ds ++ rest →
    ∃ t, exec (.blockRead address count) s = .next t ∧ RoutineFrame (setCnt count s) t ∧ t.work.cnt = count ∧
      t.dev = s.dev ∧ t.seq = s.seq ∧
      t.env.target = rest ∧ t.log.issued = l.reverse ++ s.log.issued ∧ t.idlePins ∧ t.work.res = .ok ∧
      ∀ a, t.flByte a = vs.getD a (s.flByte a)

/-- R186, R107, R180: BLOCK_WRITE issues exactly its exchange with the bytes `FL[0 .. length-1]`, writes no buffer, and its
result is the closing acknowledgment's; `CNT` holds its length (R34, log 12). -/
def Obligations.BlockWriteExchange : Prop :=
  ∀ (address : Addr16) (length ack : Byte) (l : List WireAccess) (s : State) (ds rest : List LineDrive),
    CountFits s.cfg length → BlockWriteRun s.cfg address ((List.range length.toNat).map s.flByte) ack l →
    AnswersAll l ds → s.env.target = ds ++ rest →
    ∃ t, exec (.blockWrite address length) s = .next t ∧ RoutineFrame (setCnt length s) t ∧ t.work.cnt = length ∧
      KeepsFl s t ∧ t.dev = s.dev ∧
      t.seq = s.seq ∧ t.env.target = rest ∧ t.log.issued = l.reverse ++ s.log.issued ∧ t.idlePins ∧
      t.work.res = if ack = Config.ackOk then .ok else .fail

/-- R183, R188, R261: when the first acknowledgment differs from `0x0D` each of the three operations ends at once with
`FAIL`: nothing further is issued, `FL` is untouched, the lines are idle. `s0` is the state with the byte count of a block
operation in `CNT` (R34, log 12). -/
def Obligations.FirstAckMismatchEndsOperation : Prop :=
  ∀ (op : Instr) (code ack : Byte) (l : List WireAccess) (s s0 : State) (ds rest : List LineDrive),
    (op = .deviceErase ∧ code = s.cfg.fpiDeviceErase ∧ s0 = s ∨
      (∃ a n, op = .blockRead a n ∧ CountFits s.cfg n ∧ code = s.cfg.fpiBlockRead ∧ s0 = setCnt n s) ∨
      (∃ a n, op = .blockWrite a n ∧ CountFits s.cfg n ∧ code = s.cfg.fpiBlockWrite ∧ s0 = setCnt n s)) →
    OpenRun s.cfg code ack l → ack ≠ Config.ackOk → AnswersAll l ds → s.env.target = ds ++ rest →
    ∃ t, exec op s = .next t ∧ RoutineFrame s0 t ∧ KeepsFl s t ∧ t.work.idx = s.work.idx ∧
      t.dev = s.dev ∧ t.seq = s.seq ∧
      t.env.target = rest ∧ t.log.issued = l.reverse ++ s.log.issued ∧ t.idlePins ∧ t.work.res = .fail

/-- R185, R242, D18: a block operation on more bytes than `FL` holds is the fault `F_OVERFLOW`. That the FPI commands raise
it themselves when they are run on their own is the model's choice (log 11). -/
def Obligations.BlockCountBeyondScratchFaults : Prop :=
  ∀ (address : Addr16) (count : Byte) (s : State), ¬ CountFits s.cfg count →
    exec (.blockRead address count) s = .fault .overflow ∧ exec (.blockWrite address count) s = .fault .overflow

/-! ## Host commands (spec/46_dispatcher.md), with a transport that accepts in the end -/

/-- R231, R96: ACK. -/
def Obligations.AckCommandEffect : Prop :=
  ∀ (payload : List Byte) (s : State), s.env.txGateRest = true →
    ∃ t, exec (.ack payload) s = .next t ∧ ReplyFrame s t ∧ t.work = s.work ∧
      t.frame.fs = .awaitingAction ∧ t.pins.led = s.pins.led ∧
      t.env.tx = s.env.tx ++ [0x80] ∧ t.log.trace = .tx 0x80 :: s.log.trace

/-- R233, R296, R96: RESET. -/
def Obligations.ResetCommandEffect : Prop :=
  ∀ (payload : List Byte) (s : State), s.env.txGateRest = true →
    ∃ t, exec (.reset payload) s = .next t ∧ ReplyFrame s t ∧ t.work = s.work ∧
      t.frame.fs = .awaitingAction ∧ t.pins.led = false ∧
      t.env.tx = s.env.tx ++ [0x82] ∧ t.log.trace = .led false :: .tx 0x82 :: s.log.trace

/-- R237, R96: INFO. -/
def Obligations.InfoCommandEffect : Prop :=
  ∀ (payload : List Byte) (s : State), s.env.txGateRest = true →
    ∃ t, exec (.info payload) s = .next t ∧ ReplyFrame s t ∧ t.work = s.work ∧
      t.frame.fs = .awaitingAction ∧ t.pins.led = s.pins.led ∧
      t.env.tx = s.env.tx ++ [0x88, s.dev.id, s.dev.revision] ∧
      t.log.trace = [.tx s.dev.revision, .tx s.dev.id, .tx 0x88] ++ s.log.trace

/-- R200, R201, R202, R232, R204: INIT against a target that ends the five wait fields after `k1` to `k5` zeros and reports
`id` and `rev`: the whole event sequence, delays included, and what is left. -/
def Obligations.InitCommandEffect : Prop :=
  ∀ (payload : List Byte) (k1 k2 k3 k4 k5 : Nat) (id rev : Byte) (s : State) (ds rest : List LineDrive),
    s.env.txGateRest = true → s.env.target = ds ++ rest →
    ds.map LineDrive.level =
      waits k1 ++ (waits k2 ++ (waits k3 ++ (waits k4 ++ byteBits id ++ (waits k5 ++ byteBits rev)))) →
    ∃ t, exec (.init payload) s = .next t ∧ TrafficFrame s t ∧ KeepsFl s t ∧ t.frame.fs = .awaitingAction ∧
      t.dev = { id := id, revision := rev } ∧ t.pins.led = true ∧ t.env.tx = s.env.tx ++ [0x81] ∧
      t.env.target = rest ∧ t.log.issued = (initAccesses s.cfg id rev).reverse ++ s.log.issued ∧
      t.log.trace = (initEvents s.cfg k1 k2 k3 k4 k5 id rev).reverse ++ s.log.trace ∧
      t.selected = some s.cfg.aRevId ∧ t.work.addr = s.work.addr ∧ t.work.cks = s.work.cks ∧ t.work.sum = s.work.sum ∧
      t.work.cnt = s.work.cnt ∧ t.work.idx = s.work.idx ∧ t.work.res = s.work.res

/-- R133, R200, R201, R232: INIT with no target on the line completes and reads `0xFF` twice. -/
def Obligations.InitWithoutTarget : Prop :=
  ∀ (payload : List Byte) (s : State), s.env.txGateRest = true → s.env.target = [] → s.env.targetRest = .released →
    ∃ t, exec (.init payload) s = .next t ∧ TrafficFrame s t ∧ KeepsFl s t ∧ t.frame.fs = .awaitingAction ∧
      t.dev = { id := 0xFF, revision := 0xFF } ∧ t.pins.led = true ∧ t.env.tx = s.env.tx ++ [0x81] ∧
      t.env.target = [] ∧ t.log.issued = (initAccesses s.cfg 0xFF 0xFF).reverse ++ s.log.issued ∧
      t.log.trace = (initEvents s.cfg 0 0 0 0 0 0xFF 0xFF).reverse ++ s.log.trace ∧
      t.work.addr = s.work.addr ∧ t.work.cks = s.work.cks ∧ t.work.sum = s.work.sum ∧
      t.work.cnt = s.work.cnt ∧ t.work.idx = s.work.idx ∧ t.work.res = s.work.res

/-- R234, R94, R105, R262: WRITE whose checksum does not match: the data is in `FL`, `0x43` is sent, no two-wire instruction
is issued, `FS` is not reset. That `n` is held in `CNT` is the model's reading (log 12). -/
def Obligations.WriteChecksumMismatch : Prop :=
  ∀ (high low cks : Byte) (data : List Byte) (s : State), s.env.txGateRest = true → data.length ≤ s.cfg.nFlash →
    checksum high low data ≠ cks →
    ∃ t, exec (.write (high :: low :: cks :: data)) s = .next t ∧ CommandFrame s t ∧ t.frame = s.frame ∧
      t.env.tx = s.env.tx ++ [0x43] ∧ t.log.issued = s.log.issued ∧ t.log.trace = .tx 0x43 :: s.log.trace ∧
      t.pins = s.pins ∧ t.dev = s.dev ∧ t.seq = s.seq ∧ t.env.target = s.env.target ∧
      t.work.addr.extractLsb' 0 16 = high ++ low ∧
      t.work = { s.work with addr := t.work.addr, cks := cks, sum := checksum high low data,
                             cnt := BitVec.ofNat 8 data.length, idx := t.work.idx } ∧
      ∀ a, t.flByte a = data.getD a (s.flByte a)

/-- R234, R94, R105, R186, R241, R74: WRITE whose checksum matches: the data is in `FL` and is sent with the 16-bit address,
and then, after all two-wire traffic, `0x83` is sent whatever the acknowledgments were. -/
def Obligations.WriteCommandEffect : Prop :=
  ∀ (high low cks : Byte) (data : List Byte) (l : List WireAccess) (s : State) (ds rest : List LineDrive),
    s.env.txGateRest = true → data.length ≤ s.cfg.nFlash → data.length ≤ 252 → checksum high low data = cks →
    ((∃ ack, BlockWriteRun s.cfg (high ++ low) data ack l) ∨
      ∃ ack, ack ≠ Config.ackOk ∧ OpenRun s.cfg s.cfg.fpiBlockWrite ack l) →
    AnswersAll l ds → s.env.target = ds ++ rest →
    ∃ t traffic, exec (.write (high :: low :: cks :: data)) s = .next t ∧ TrafficFrame s t ∧
      t.frame.fs = .awaitingAction ∧
      t.env.tx = s.env.tx ++ [0x83] ∧ t.env.target = rest ∧ t.log.issued = l.reverse ++ s.log.issued ∧
      t.log.trace = .tx 0x83 :: (traffic ++ s.log.trace) ∧ (∀ e ∈ traffic, e.onWires = true) ∧
      t.pins.led = s.pins.led ∧ t.dev = s.dev ∧ t.work.addr.extractLsb' 0 16 = high ++ low ∧ t.work.cks = cks ∧
      t.work.sum = cks ∧ t.work.cnt = BitVec.ofNat 8 data.length ∧ ∀ a, t.flByte a = data.getD a (s.flByte a)

/-- R235, R184, R241, R74: ERASE sends `0x84`, after all two-wire traffic, whatever the acknowledgments were; `IDX` has run
over the key sequence if that was reached (R34, log 12). -/
def Obligations.EraseCommandEffect : Prop :=
  ∀ (payload : List Byte) (l : List WireAccess) (idx : BitVec 9) (s : State) (ds rest : List LineDrive),
    s.env.txGateRest = true →
    ((∃ ack, EraseRun s.cfg ack l) ∧ idx = 2 ∨
      (∃ ack, ack ≠ Config.ackOk ∧ OpenRun s.cfg s.cfg.fpiDeviceErase ack l) ∧ idx = s.work.idx) →
    AnswersAll l ds → s.env.target = ds ++ rest →
    ∃ t traffic, exec (.erase payload) s = .next t ∧ TrafficFrame s t ∧ KeepsFl s t ∧ t.frame.fs = .awaitingAction ∧
      t.env.tx = s.env.tx ++ [0x84] ∧ t.env.target = rest ∧ t.log.issued = l.reverse ++ s.log.issued ∧
      t.log.trace = .tx 0x84 :: (traffic ++ s.log.trace) ∧ (∀ e ∈ traffic, e.onWires = true) ∧
      t.pins.led = s.pins.led ∧ t.dev = s.dev ∧ t.work.idx = idx ∧ t.work.addr = s.work.addr ∧
      t.work.cks = s.work.cks ∧ t.work.sum = s.work.sum ∧ t.work.cnt = s.work.cnt

/-- R236, R95, R105(b), R64, R185, R74: READ whose block read succeeds: the low 16 address bits are sent, and then, after all
two-wire traffic, `0x85` and exactly the bytes read go to the host; payload bytes beyond the fourth are ignored. -/
def Obligations.ReadCommandEffect : Prop :=
  ∀ (count a2 a1 a0 : Byte) (more vs : List Byte) (l : List WireAccess) (s : State) (ds rest : List LineDrive),
    s.env.txGateRest = true → CountFits s.cfg count → BlockReadRun s.cfg (a1 ++ a0) count vs l → AnswersAll l ds →
    s.env.target = ds ++ rest →
    ∃ t traffic, exec (.read (count :: a2 :: a1 :: a0 :: more)) s = .next t ∧ TrafficFrame s t ∧
      t.frame.fs = .awaitingAction ∧ t.env.tx = s.env.tx ++ 0x85 :: vs ∧ t.env.target = rest ∧
      t.log.issued = l.reverse ++ s.log.issued ∧
      t.log.trace = ((0x85 :: vs).map .tx).reverse ++ (traffic ++ s.log.trace) ∧ (∀ e ∈ traffic, e.onWires = true) ∧
      t.pins.led = s.pins.led ∧ t.dev = s.dev ∧ t.work.cnt = count ∧
      t.work.addr = a2 ++ a1 ++ a0 ∧ t.work.cks = s.work.cks ∧ t.work.sum = s.work.sum ∧
      ∀ a, t.flByte a = vs.getD a (s.flByte a)

/-- R236, R80, R241, R261, R74: READ whose block read fails at the first acknowledgment sends, after all two-wire traffic,
`0x85` and what `FL` held before. -/
def Obligations.ReadAfterFailureSendsStaleBytes : Prop :=
  ∀ (count a2 a1 a0 ack : Byte) (more : List Byte) (l : List WireAccess) (s : State) (ds rest : List LineDrive),
    s.env.txGateRest = true → CountFits s.cfg count → ack ≠ Config.ackOk →
    OpenRun s.cfg s.cfg.fpiBlockRead ack l → AnswersAll l ds → s.env.target = ds ++ rest →
    ∃ t traffic, exec (.read (count :: a2 :: a1 :: a0 :: more)) s = .next t ∧ TrafficFrame s t ∧ KeepsFl s t ∧
      t.frame.fs = .awaitingAction ∧ t.env.tx = s.env.tx ++ 0x85 :: (List.range count.toNat).map s.flByte ∧
      t.env.target = rest ∧ t.log.issued = l.reverse ++ s.log.issued ∧
      t.log.trace = ((0x85 :: (List.range count.toNat).map s.flByte).map .tx).reverse ++ (traffic ++ s.log.trace) ∧
      (∀ e ∈ traffic, e.onWires = true) ∧ t.pins.led = s.pins.led ∧ t.dev = s.dev ∧
      t.work.cnt = count ∧ t.work.addr = a2 ++ a1 ++ a0 ∧ t.work.cks = s.work.cks ∧ t.work.sum = s.work.sum

/-- R242, R94, R95: the frames that are too short or too large for their action are faults, in every state. -/
def Obligations.ShortAndLargeFramesFault : Prop :=
  ∀ (payload : List Byte) (s : State),
    (payload.length < 3 → exec (.write payload) s = .fault .shortFrame) ∧
    (payload.length < 4 → exec (.read payload) s = .fault .shortFrame) ∧
    (s.cfg.nFlash < payload.length - 3 → exec (.write payload) s = .fault .overflow) ∧
    (4 ≤ payload.length → s.cfg.nFlash < (payload.headD 0).toNat → exec (.read payload) s = .fault .overflow)

/-! ## Responses (spec/30_encoding.md R97) -/

/-- R97: the six responses of one byte. -/
def Obligations.SingleByteResponses : Prop :=
  ∀ (i : Instr) (code : Byte) (s : State),
    (i, code) ∈ [(Instr.rspAck, (0x80 : Byte)), (.rspInit, 0x81), (.rspReset, 0x82), (.rspWrite, 0x83),
      (.rspChecksumFail, 0x43), (.rspErase, 0x84)] →
    s.env.txGateRest = true →
    ∃ t, exec i s = .next t ∧ ReplyFrame s t ∧ t.work = s.work ∧ t.frame = s.frame ∧ t.pins = s.pins ∧
      t.env.tx = s.env.tx ++ [code] ∧ t.log.trace = .tx code :: s.log.trace

/-- R97, R236: the READ response is its code and `CNT` bytes of `FL`, `FL[0]` first; a count beyond `FL` is `F_OVERFLOW`. -/
def Obligations.ReadResponseEffect : Prop :=
  ∀ s : State,
    (CountFits s.cfg s.work.cnt → s.env.txGateRest = true →
      ∃ t, exec .rspRead s = .next t ∧ ReplyFrame s t ∧ t.frame = s.frame ∧ t.pins = s.pins ∧
        t.env.tx = s.env.tx ++ 0x85 :: (List.range s.work.cnt.toNat).map s.flByte) ∧
    (¬ CountFits s.cfg s.work.cnt → exec .rspRead s = .fault .overflow)

/-- R97, R237: the INFO response is its code, `DEV_ID`, `DEV_REV`. -/
def Obligations.InfoResponseEffect : Prop :=
  ∀ s : State, s.env.txGateRest = true →
    ∃ t, exec .rspInfo s = .next t ∧ ReplyFrame s t ∧ t.work = s.work ∧ t.frame = s.frame ∧ t.pins = s.pins ∧
      t.env.tx = s.env.tx ++ [0x88, s.dev.id, s.dev.revision]

/-- R239, D30, U18: a transport that never accepts holds the block at the byte for ever, whichever byte of a response it is:
nothing is sent, no byte is taken, nothing else happens, but that `IDX` is the index of a byte of `FL` (R236). That a step ends
at the byte is the model's choice (logs 1, 3), and so is that `IDX` takes the index before the byte is offered (log 26). -/
def Obligations.DecliningTransportHolds : Prop :=
  ∀ (op : CmdOp) (more : List CmdOp) (s : State), s.cfg.Admissible → s.env.resetIn = none →
    s.seq = { cmd := op :: more } → s.env.txGateRest = false → s.env.txGate = [] →
    ((∃ b, op = .tx b) ∨ op = .txDevId ∨ op = .txDevRev → ∀ n, run n s = .next s) ∧
    (∀ i, op = .txFl i → ∀ n,
      run n s = .next (if n = 0 then s else { s with work := { s.work with idx := BitVec.ofNat 9 i } }))

/-! ## Framing and the main loop (spec/45_framing.md) -/

/-- R211: an action byte. -/
def Obligations.ActionByteStored : Prop :=
  ∀ (b : Byte) (s : State), s.frame.fs = .awaitingAction →
    ∃ t, frameStep b s = .next t ∧ t = { s with frame := t.frame, fb := t.fb } ∧
      t.frame = { s.frame with fs := .awaitingLength, action := b, cur := 1 } ∧ t.fb.read 0 = some b ∧
      ∀ i, i ≠ 0 → t.fb.read i = s.fb.read i

/-- R212: a length byte, the capacity check included. That the byte goes to `FB[1]` needs `CUR = 1`, which the invariant of
the block gives. -/
def Obligations.LengthByteStored : Prop :=
  ∀ (b : Byte) (s : State), s.frame.fs = .awaitingLength → FramingInv s →
    (s.cfg.nPayload < b.toNat → frameStep b s = .fault .overflow) ∧
    (b.toNat ≤ s.cfg.nPayload → ∃ t, frameStep b s = .next t ∧ t = { s with frame := t.frame, fb := t.fb } ∧
      t.frame = { s.frame with
        fs := if b = 0 then .complete else .awaitingPayload, length := b, rem := b, cur := 2 } ∧
      t.fb.read 1 = some b ∧ ∀ i, i ≠ 1 → t.fb.read i = s.fb.read i)

/-- R213: a payload byte, in a state of the block's invariant, in which `REM >= 1`. -/
def Obligations.PayloadByteStored : Prop :=
  ∀ (b : Byte) (s : State), s.frame.fs = .awaitingPayload → FramingInv s →
    1 ≤ s.frame.rem.toNat ∧
    ∃ t, frameStep b s = .next t ∧ t = { s with frame := t.frame, fb := t.fb } ∧
      t.frame = { s.frame with
        fs := if s.frame.rem = 1 then .complete else .awaitingPayload, rem := s.frame.rem - 1,
        cur := s.frame.cur + 1 } ∧
      t.fb.read s.frame.cur.toNat = some b ∧ ∀ i, i ≠ s.frame.cur.toNat → t.fb.read i = s.fb.read i

/-- R91, R93, R215, R216, R218, R230, R44, R78, R79: a frame waiting in the transport of an idle block is taken byte by
byte, is complete after exactly `L + 2` bytes and never earlier, leaves every byte of `FB` above it as it was, and is
dispatched on the pass that takes its last byte, in both dispatch modes. That one step takes one byte, so that `L + 2` steps
are counted here, is the model's choice (log 1), and that an unknown action is a next state is its reading (log 16). -/
def Obligations.FrameAssembledAndDispatched : Prop :=
  ∀ (action : Byte) (payload more : List Byte) (s : State), s.cfg.Admissible → s.env.resetIn = none →
    s.seq.idle = true → s.frame.fs = .awaitingAction → payload.length ≤ s.cfg.nPayload →
    s.env.rx = frameBytes action payload ++ more →
    (∀ n, n < payload.length + 2 → ∃ m, run n s = .next m ∧ m.frame.fs ≠ .complete) ∧
    ∃ q, q = { s with
          frame := { fs := .complete, action := action, length := BitVec.ofNat 8 payload.length, rem := 0,
                     cur := BitVec.ofNat 9 (payload.length + 2) }
          fb := q.fb
          env := { s.env with rx := more }
          log := { s.log with trace := ((frameBytes action payload).map .rx).reverse ++ s.log.trace } } ∧
      (∀ i, i < payload.length + 2 → q.fb.read i = (frameBytes action payload)[i]?) ∧
      (∀ i, payload.length + 2 ≤ i → q.fb.read i = s.fb.read i) ∧
      (∀ i, decodeFrame s.cfg (frameBytes action payload) = .ok i → run (payload.length + 2) s = exec i q) ∧
      (action ∉ s.cfg.actionCodes → run (payload.length + 2) s = .next q)

/-- R216, R217, R230: a step that takes the last byte of a frame which decodes to a well-formed instruction runs it. -/
def Obligations.StepRunsDecodedFrame : Prop :=
  ∀ (b : Byte) (rest : List Byte) (i : Instr) (s q : State), s.cfg.Admissible → s.env.resetIn = none →
    s.seq.idle = true → s.seq.entry = none → s.frame.fs ≠ .complete → s.env.rx = b :: rest →
    frameStep b (emit (.rx b) { s with env := { s.env with rx := rest } }) = .next q → q.frame.fs = .complete →
    decodeFrame q.cfg (fetchFrame q) = .ok i → WellFormed q.cfg i → step s = exec i q

/-- R35, R90: a step at the entry of an instruction's routine runs that instruction. That the routines can be entered on their
own is the model's (logs 9, 22). -/
def Obligations.StepRunsDecodedEntry : Prop :=
  ∀ (e : Encoded) (i : Instr) (s : State), s.cfg.Admissible → s.env.resetIn = none → s.seq.entry = some e →
    decode s.cfg e = .ok i → step s = exec i { s with seq := { s.seq with entry := none } }

/-- R216: a pass with no byte available and `FS` not `Complete` does nothing. -/
def Obligations.IdlePassDoesNothing : Prop :=
  ∀ s : State, s.cfg.Admissible → s.env.resetIn = none → s.seq.idle = true → s.env.rx = [] →
    s.frame.fs ≠ .complete → ∀ n, run n s = .next s

/-- R214, R216, R217: in `Complete` no byte is taken; the pass dispatches again under `LEVEL` and does nothing under
`EDGE`. -/
def Obligations.CompletePassTakesNoByte : Prop :=
  ∀ s : State, s.heldComplete →
    step s = if s.cfg.dispatchMode = .level then dispatch s else .next s

/-- R216, R240, R41, R214: one pass takes at most one byte, and none while a branch waits or in `Complete`. -/
def Obligations.OneByteTakenPerPass : Prop :=
  ∀ s t : State, s.env.resetIn = none → step s = .next t →
    t.env.rx = s.env.rx ∨ s.seq.idle = true ∧ s.frame.fs ≠ .complete ∧ ∃ b, s.env.rx = b :: t.env.rx

/-! ## Errors, stalls, hangs (spec/60_exceptions.md) -/

/-- R238, R263, R216, U2: an unknown action is dispatched without any effect and stalls the block for ever, in both dispatch
modes. That a stalled block has next states, each a pass that changes nothing, where U2 says stuck, is the model's reading
(log 16, DEDUCED). -/
def Obligations.UnknownActionStalls : Prop :=
  ∀ s : State, s.heldComplete → s.frame.length.toNat ≤ s.cfg.nPayload → s.frame.action ∉ s.cfg.actionCodes →
    dispatch s = .next s ∧ ∀ n, run n s = .next s

/-- R265, R217: under `EDGE` a block left in `Complete` does nothing any more. That it has next states is the model's reading
(log 16). -/
def Obligations.EdgeStallIsSilent : Prop :=
  ∀ s : State, s.heldComplete → s.cfg.dispatchMode = .edge → ∀ n, run n s = .next s

/-- R265, R217, R234: under `LEVEL` a WRITE whose checksum does not match sends one more `0x43` on every pass, with no
two-wire instruction and no byte taken. -/
def Obligations.LevelChecksumStallStreams : Prop :=
  ∀ s : State, s.heldComplete → s.cfg.dispatchMode = .level → s.env.txGateRest = true →
    s.frame.action = s.cfg.actWrite → 3 ≤ s.frame.length.toNat → s.frame.length.toNat ≤ s.cfg.nPayload →
    s.frame.length.toNat - 3 ≤ s.cfg.nFlash →
    checksum (s.fbByte 2) (s.fbByte 3) ((List.range (s.frame.length.toNat - 3)).map fun i => s.fbByte (i + 5)) ≠
      s.fbByte 4 →
    ∀ n, ∃ t, run n s = .next t ∧ t.env.tx = s.env.tx ++ List.replicate n 0x43 ∧ t.env.rx = s.env.rx ∧
      t.frame = s.frame ∧ t.fb = s.fb ∧ t.pins = s.pins ∧ t.log.issued = s.log.issued

/-- R171, R235, R264: ERASE with no target on the line selects `FPDAT`, writes the command byte, and then reads the status
for ever: no response, `FS` stays. -/
def Obligations.EraseWithoutTargetHangs : Prop :=
  ∀ (payload : List Byte) (s : State), s.cfg.Admissible → s.env.resetIn = none → s.seq = {} → s.env.target = [] →
    s.env.targetRest = .released →
    ∃ t, exec (.erase payload) s = .next t ∧ ∀ n, ∃ u, run n t = .next u ∧
      u.log.issued = List.replicate (n + 1) (.ar 0xFF) ++
        (.dw s.cfg.fpiDeviceErase :: .aw s.cfg.aFpdat :: s.log.issued) ∧
      u.env = s.env ∧ u.frame = s.frame ∧ u.idlePins

/-! ## Who writes what (spec/10_state.md, spec/20_memory.md) -/

/-- R46, R61, R240: no instruction changes the parameters, `FB`, `ACTION`, `LENGTH`, `REM`, `CUR` or the bytes that wait, and
`FS` changes to `AwaitingAction` only, whether the instruction ends or waits. -/
def Obligations.InstructionsKeepFrameBuffer : Prop :=
  ∀ (i : Instr) (s t : State), exec i s = .next t →
    CommandFrame s t ∧ (t.frame.fs = s.frame.fs ∨ t.frame.fs = .awaitingAction)

/-- R28, R243: only INIT writes `DEV_ID` and `DEV_REV`. -/
def Obligations.OnlyInitWritesDeviceInfo : Prop :=
  ∀ (i : Instr) (s t : State), (∀ payload, i ≠ .init payload) → exec i s = .next t → t.dev = s.dev

/-- R32, R243: only INIT and RESET write `LED`. -/
def Obligations.OnlyInitAndResetWriteLed : Prop :=
  ∀ (i : Instr) (s t : State), (∀ payload, i ≠ .init payload) → (∀ payload, i ≠ .reset payload) →
    exec i s = .next t → t.pins.led = s.pins.led

/-- R27, R62, R243: only WRITE, READ and the block read write `FL`. -/
def Obligations.OnlyWriteAndReadsWriteScratch : Prop :=
  ∀ (i : Instr) (s t : State), (∀ payload, i ≠ .write payload) → (∀ payload, i ≠ .read payload) →
    (∀ address count, i ≠ .blockRead address count) → exec i s = .next t → KeepsFl s t

/-! ## The invariant and reset (spec/10_state.md R43 to R45, spec/70_reset_and_hazards.md) -/

/-- R44, R45, R143, R218, R290: every step, a hardware reset included, keeps the invariant of the block. The canonical form
of the buffers is the model's (log 7). -/
def Obligations.InvariantKeptByEveryStep : Prop :=
  ∀ s t : State, s.Inv → step s = .next t → t.Inv

/-- R43, R8: the invariant holds right after reset. -/
def Obligations.InvariantHoldsAtReset : Prop := State.reset.Inv

/-- R8, R42: no step changes the parameters, and a configuration outside the constraints of R8 is refused. That a refusal
stands for it is U4, U14 and U16's (log 15). -/
def Obligations.ParametersFixedAndChecked : Prop :=
  ∀ s t : State, (step s = .next t → t.cfg = s.cfg) ∧ (¬ s.cfg.Admissible → step s = .refused .badConfiguration)

/-- R43, R291: the reset values the table states, the sequencer at the top of the main loop, and buffer bytes that are free
values. -/
def Obligations.ResetStateValues : Prop :=
  State.reset.frame.fs = .awaitingAction ∧ State.reset.frame.cur = 0 ∧ State.reset.pins.ck = true ∧
    State.reset.pins.doe = false ∧ State.reset.pins.led = false ∧ State.reset.pins.irqm = false ∧
    State.reset.seq.idle = true ∧ (∀ i, State.reset.fbByte i = Config.fbReset 0 i) ∧
    (∀ i, State.reset.flByte i = Config.flReset 0 i)

/-- R290, R43, R294: a hardware reset right after `k` further events of a pass gives every register its reset value, keeps only
what those events, the first `k` of the pass that is cut, did to the surroundings, and puts nothing of its own on the record.
For a pass that would end in a fault it strikes so if it comes no later than the fault. The model's choices in it are the
registers' values where R43 says unspecified (log 6, DESIGN CHOICE), the free values of the buffers (log 7), how the reset
input is represented and what a pass has done before its fault (log 8), and that the pins return with no event (log 24). -/
def Obligations.HardwareResetStep : Prop :=
  ∀ (k : Nat) (s : State) (events : List Event), s.cfg.Admissible → s.env.resetIn = some k →
    ((∃ u, Machine.pass s = .next u ∧ events = (newEvents s u).take k) ∨
      ∃ f, Machine.pass s = .fault f ∧ k ≤ s.eventsBeforeFault.length ∧ events = s.eventsBeforeFault.take k) →
    ∃ t, step s = .next t ∧ t.cfg = s.cfg ∧ t.frame = State.reset.frame ∧
      t.pins = State.reset.pins ∧ t.seq = {} ∧ t.dev = State.reset.dev ∧ t.work = State.reset.work ∧
      t.epoch = s.epoch + 1 ∧ (∀ i, t.flByte i = Config.flReset (s.epoch + 1) i) ∧
      (∀ i, t.fbByte i = Config.fbReset (s.epoch + 1) i) ∧ t.env.resetIn = none ∧
      t.log.trace = events.reverse ++ s.log.trace ∧
      t.env.tx = s.env.tx ++ events.filterMap Event.txByte? ∧
      t.env.rx = s.env.rx.drop (events.countP Event.isRx) ∧
      t.env.target = s.env.target.drop (events.countP Event.isDin)

/-- R266, R290: a fault that comes before the reset stands: the step is the fault, and the state has no successor. What a pass
has done before its fault, and that the reset input counts events, are the model's (log 8). -/
def Obligations.FaultBeforeResetStands : Prop :=
  ∀ (k : Nat) (s : State) (f : Fault), s.cfg.Admissible → s.env.resetIn = some k → Machine.pass s = .fault f →
    s.eventsBeforeFault.length < k → step s = .fault f ∧ ∀ n t, run (n + 1) s ≠ .next t

/-! ## Waits and command runs (spec/10_state.md R35, spec/00_scope.md R15) -/

/-- R170, R171, R35, R264: a poll that waits inside a routine goes on when the target answers, ends in a state `u`, and then what
remains of the routine and of the Dispatcher branch that called it runs on from `u`, and what then remains is the new sequencer
position. That one step does this is the model's choice (log 1). -/
def Obligations.WaitingPollGoesOn : Prop :=
  ∀ (mask v : Byte) (fails : List Byte) (more : List FlashOp) (s : State) (ds rest : List LineDrive),
    s.cfg.Admissible → s.env.resetIn = none → s.seq.entry = none → s.seq.wire = none →
    s.env.target = ds ++ rest → AnswersAll ((fails ++ [v]).map .ar) ds →
    (s.seq.flash = .pollBitHigh mask :: more ∧ (∀ f ∈ fails, f &&& mask = 0) ∧ v &&& mask ≠ 0 ∨
      s.seq.flash = .pollBitLow mask :: more ∧ (∀ f ∈ fails, f &&& mask ≠ 0) ∧ v &&& mask = 0) →
    ∃ u r, WireFrame s u ∧ u.seq = {} ∧ u.work.v = v ∧ u.env.target = rest ∧ u.idlePins ∧
      u.log.issued = ((fails ++ [v]).map .ar).reverse ++ s.log.issued ∧
      r = runCmd (.call more :: s.seq.cmd) u ∧ step s = .next { r.2 with seq := r.1 }

/-- R15, R231, R233, R237, R238, R263: with a transport that accepts, a frame of ACK, RESET or INFO that waits for an idle block
makes a final command run, whose events are the `RX` of its bytes and the `TX` of its response and which leaves the block
quiescent when no byte is left and the pins were idle; a frame of an unknown action makes none. How a command run is read off
the steps is the model's (logs 1, 25). -/
def Obligations.CommandRunsEnd : Prop :=
  ∀ (action : Byte) (payload more : List Byte) (s : State), s.cfg.Admissible → s.env.resetIn = none →
    s.seq.idle = true → s.frame.fs = .awaitingAction → payload.length ≤ s.cfg.nPayload →
    s.env.rx = frameBytes action payload ++ more → s.env.txGateRest = true →
    (∀ response, action = s.cfg.actAck ∧ response = [0x80] ∨ action = s.cfg.actReset ∧ response = [0x82] ∨
        action = s.cfg.actInfo ∧ response = [0x88, s.dev.id, s.dev.revision] →
      ∃ n t, FinalRun n s t ∧
        commandEvents action s t = (frameBytes action payload).map .rx ++ response.map .tx ∧
        (s.idlePins → more = [] → t.quiescent)) ∧
    (action ∉ s.cfg.actionCodes → ∀ n t, ¬ FinalRun n s t)
end

