-- ==== Sys2Proof/Laws/State.lean ====
section
/-! SUPPORT. What each update of the state does to each field: one lemma per field per update, true by unfolding, so
that no later proof unfolds a record update. -/
namespace Sys2Proof.Machine

/-! `emit` -/

@[simp] theorem emit_cfg (e : Event) (s : State) : (emit e s).cfg = s.cfg := rfl
@[simp] theorem emit_frame (e : Event) (s : State) : (emit e s).frame = s.frame := rfl
@[simp] theorem emit_fb (e : Event) (s : State) : (emit e s).fb = s.fb := rfl
@[simp] theorem emit_fl (e : Event) (s : State) : (emit e s).fl = s.fl := rfl
@[simp] theorem emit_dev (e : Event) (s : State) : (emit e s).dev = s.dev := rfl
@[simp] theorem emit_pins (e : Event) (s : State) : (emit e s).pins = s.pins := rfl
@[simp] theorem emit_work (e : Event) (s : State) : (emit e s).work = s.work := rfl
@[simp] theorem emit_seq (e : Event) (s : State) : (emit e s).seq = s.seq := rfl
@[simp] theorem emit_env (e : Event) (s : State) : (emit e s).env = s.env := rfl
@[simp] theorem emit_log (e : Event) (s : State) : (emit e s).log = { s.log with trace := e :: s.log.trace } := rfl
@[simp] theorem emit_epoch (e : Event) (s : State) : (emit e s).epoch = s.epoch := rfl

/-! `ckSet` -/

@[simp] theorem ckSet_cfg (b : Bool) (s : State) : (ckSet b s).cfg = s.cfg := rfl
@[simp] theorem ckSet_frame (b : Bool) (s : State) : (ckSet b s).frame = s.frame := rfl
@[simp] theorem ckSet_fb (b : Bool) (s : State) : (ckSet b s).fb = s.fb := rfl
@[simp] theorem ckSet_fl (b : Bool) (s : State) : (ckSet b s).fl = s.fl := rfl
@[simp] theorem ckSet_dev (b : Bool) (s : State) : (ckSet b s).dev = s.dev := rfl
@[simp] theorem ckSet_pins (b : Bool) (s : State) : (ckSet b s).pins = { s.pins with ck := b } := rfl
@[simp] theorem ckSet_work (b : Bool) (s : State) : (ckSet b s).work = s.work := rfl
@[simp] theorem ckSet_seq (b : Bool) (s : State) : (ckSet b s).seq = s.seq := rfl
@[simp] theorem ckSet_env (b : Bool) (s : State) : (ckSet b s).env = s.env := rfl
@[simp] theorem ckSet_log (b : Bool) (s : State) : (ckSet b s).log = { s.log with trace := .ck b :: s.log.trace } := rfl
@[simp] theorem ckSet_epoch (b : Bool) (s : State) : (ckSet b s).epoch = s.epoch := rfl

/-! `delay` -/

@[simp] theorem delay_cfg (n : Nat) (s : State) : (delay n s).cfg = s.cfg := rfl
@[simp] theorem delay_frame (n : Nat) (s : State) : (delay n s).frame = s.frame := rfl
@[simp] theorem delay_fb (n : Nat) (s : State) : (delay n s).fb = s.fb := rfl
@[simp] theorem delay_fl (n : Nat) (s : State) : (delay n s).fl = s.fl := rfl
@[simp] theorem delay_dev (n : Nat) (s : State) : (delay n s).dev = s.dev := rfl
@[simp] theorem delay_pins (n : Nat) (s : State) : (delay n s).pins = s.pins := rfl
@[simp] theorem delay_work (n : Nat) (s : State) : (delay n s).work = s.work := rfl
@[simp] theorem delay_seq (n : Nat) (s : State) : (delay n s).seq = s.seq := rfl
@[simp] theorem delay_env (n : Nat) (s : State) : (delay n s).env = s.env := rfl
@[simp] theorem delay_log (n : Nat) (s : State) : (delay n s).log = { s.log with trace := .delay n :: s.log.trace } := rfl
@[simp] theorem delay_epoch (n : Nat) (s : State) : (delay n s).epoch = s.epoch := rfl

/-! `pulseClock` -/

@[simp] theorem pulseClock_cfg (s : State) : (pulseClock s).cfg = s.cfg := rfl
@[simp] theorem pulseClock_frame (s : State) : (pulseClock s).frame = s.frame := rfl
@[simp] theorem pulseClock_fb (s : State) : (pulseClock s).fb = s.fb := rfl
@[simp] theorem pulseClock_fl (s : State) : (pulseClock s).fl = s.fl := rfl
@[simp] theorem pulseClock_dev (s : State) : (pulseClock s).dev = s.dev := rfl
@[simp] theorem pulseClock_pins (s : State) : (pulseClock s).pins = { s.pins with ck := true } := rfl
@[simp] theorem pulseClock_work (s : State) : (pulseClock s).work = s.work := rfl
@[simp] theorem pulseClock_seq (s : State) : (pulseClock s).seq = s.seq := rfl
@[simp] theorem pulseClock_env (s : State) : (pulseClock s).env = s.env := rfl
@[simp] theorem pulseClock_log (s : State) : (pulseClock s).log = { s.log with trace := .delay Config.tHalf :: .ck true :: .delay Config.tHalf :: .ck false :: s.log.trace } := rfl
@[simp] theorem pulseClock_epoch (s : State) : (pulseClock s).epoch = s.epoch := rfl

/-! `dOutput` -/

@[simp] theorem dOutput_cfg (s : State) : (dOutput s).cfg = s.cfg := rfl
@[simp] theorem dOutput_frame (s : State) : (dOutput s).frame = s.frame := rfl
@[simp] theorem dOutput_fb (s : State) : (dOutput s).fb = s.fb := rfl
@[simp] theorem dOutput_fl (s : State) : (dOutput s).fl = s.fl := rfl
@[simp] theorem dOutput_dev (s : State) : (dOutput s).dev = s.dev := rfl
@[simp] theorem dOutput_pins (s : State) : (dOutput s).pins = { s.pins with doe := true } := rfl
@[simp] theorem dOutput_work (s : State) : (dOutput s).work = s.work := rfl
@[simp] theorem dOutput_seq (s : State) : (dOutput s).seq = s.seq := rfl
@[simp] theorem dOutput_env (s : State) : (dOutput s).env = s.env := rfl
@[simp] theorem dOutput_log (s : State) : (dOutput s).log = { s.log with trace := .ddir true :: s.log.trace } := rfl
@[simp] theorem dOutput_epoch (s : State) : (dOutput s).epoch = s.epoch := rfl

/-! `dInput` -/

@[simp] theorem dInput_cfg (s : State) : (dInput s).cfg = s.cfg := rfl
@[simp] theorem dInput_frame (s : State) : (dInput s).frame = s.frame := rfl
@[simp] theorem dInput_fb (s : State) : (dInput s).fb = s.fb := rfl
@[simp] theorem dInput_fl (s : State) : (dInput s).fl = s.fl := rfl
@[simp] theorem dInput_dev (s : State) : (dInput s).dev = s.dev := rfl
@[simp] theorem dInput_pins (s : State) : (dInput s).pins = { s.pins with doe := false } := rfl
@[simp] theorem dInput_work (s : State) : (dInput s).work = s.work := rfl
@[simp] theorem dInput_seq (s : State) : (dInput s).seq = s.seq := rfl
@[simp] theorem dInput_env (s : State) : (dInput s).env = s.env := rfl
@[simp] theorem dInput_log (s : State) : (dInput s).log = { s.log with trace := .ddir false :: s.log.trace } := rfl
@[simp] theorem dInput_epoch (s : State) : (dInput s).epoch = s.epoch := rfl

/-! `dWrite` -/

@[simp] theorem dWrite_cfg (b : Bool) (s : State) : (dWrite b s).cfg = s.cfg := rfl
@[simp] theorem dWrite_frame (b : Bool) (s : State) : (dWrite b s).frame = s.frame := rfl
@[simp] theorem dWrite_fb (b : Bool) (s : State) : (dWrite b s).fb = s.fb := rfl
@[simp] theorem dWrite_fl (b : Bool) (s : State) : (dWrite b s).fl = s.fl := rfl
@[simp] theorem dWrite_dev (b : Bool) (s : State) : (dWrite b s).dev = s.dev := rfl
@[simp] theorem dWrite_pins (b : Bool) (s : State) : (dWrite b s).pins = { s.pins with dout := b } := rfl
@[simp] theorem dWrite_work (b : Bool) (s : State) : (dWrite b s).work = s.work := rfl
@[simp] theorem dWrite_seq (b : Bool) (s : State) : (dWrite b s).seq = s.seq := rfl
@[simp] theorem dWrite_env (b : Bool) (s : State) : (dWrite b s).env = s.env := rfl
@[simp] theorem dWrite_log (b : Bool) (s : State) : (dWrite b s).log = { s.log with trace := .dout b :: s.log.trace } := rfl
@[simp] theorem dWrite_epoch (b : Bool) (s : State) : (dWrite b s).epoch = s.epoch := rfl

/-! `irqOff` -/

@[simp] theorem irqOff_cfg (s : State) : (irqOff s).cfg = s.cfg := rfl
@[simp] theorem irqOff_frame (s : State) : (irqOff s).frame = s.frame := rfl
@[simp] theorem irqOff_fb (s : State) : (irqOff s).fb = s.fb := rfl
@[simp] theorem irqOff_fl (s : State) : (irqOff s).fl = s.fl := rfl
@[simp] theorem irqOff_dev (s : State) : (irqOff s).dev = s.dev := rfl
@[simp] theorem irqOff_pins (s : State) : (irqOff s).pins = { s.pins with irqm := true } := rfl
@[simp] theorem irqOff_work (s : State) : (irqOff s).work = s.work := rfl
@[simp] theorem irqOff_seq (s : State) : (irqOff s).seq = s.seq := rfl
@[simp] theorem irqOff_env (s : State) : (irqOff s).env = s.env := rfl
@[simp] theorem irqOff_log (s : State) : (irqOff s).log = { s.log with trace := .irq true :: s.log.trace } := rfl
@[simp] theorem irqOff_epoch (s : State) : (irqOff s).epoch = s.epoch := rfl

/-! `irqOn` -/

@[simp] theorem irqOn_cfg (s : State) : (irqOn s).cfg = s.cfg := rfl
@[simp] theorem irqOn_frame (s : State) : (irqOn s).frame = s.frame := rfl
@[simp] theorem irqOn_fb (s : State) : (irqOn s).fb = s.fb := rfl
@[simp] theorem irqOn_fl (s : State) : (irqOn s).fl = s.fl := rfl
@[simp] theorem irqOn_dev (s : State) : (irqOn s).dev = s.dev := rfl
@[simp] theorem irqOn_pins (s : State) : (irqOn s).pins = { s.pins with irqm := false } := rfl
@[simp] theorem irqOn_work (s : State) : (irqOn s).work = s.work := rfl
@[simp] theorem irqOn_seq (s : State) : (irqOn s).seq = s.seq := rfl
@[simp] theorem irqOn_env (s : State) : (irqOn s).env = s.env := rfl
@[simp] theorem irqOn_log (s : State) : (irqOn s).log = { s.log with trace := .irq false :: s.log.trace } := rfl
@[simp] theorem irqOn_epoch (s : State) : (irqOn s).epoch = s.epoch := rfl

/-! `setLed` -/

@[simp] theorem setLed_cfg (b : Bool) (s : State) : (setLed b s).cfg = s.cfg := rfl
@[simp] theorem setLed_frame (b : Bool) (s : State) : (setLed b s).frame = s.frame := rfl
@[simp] theorem setLed_fb (b : Bool) (s : State) : (setLed b s).fb = s.fb := rfl
@[simp] theorem setLed_fl (b : Bool) (s : State) : (setLed b s).fl = s.fl := rfl
@[simp] theorem setLed_dev (b : Bool) (s : State) : (setLed b s).dev = s.dev := rfl
@[simp] theorem setLed_pins (b : Bool) (s : State) : (setLed b s).pins = { s.pins with led := b } := rfl
@[simp] theorem setLed_work (b : Bool) (s : State) : (setLed b s).work = s.work := rfl
@[simp] theorem setLed_seq (b : Bool) (s : State) : (setLed b s).seq = s.seq := rfl
@[simp] theorem setLed_env (b : Bool) (s : State) : (setLed b s).env = s.env := rfl
@[simp] theorem setLed_log (b : Bool) (s : State) : (setLed b s).log = { s.log with trace := .led b :: s.log.trace } := rfl
@[simp] theorem setLed_epoch (b : Bool) (s : State) : (setLed b s).epoch = s.epoch := rfl

/-! `sampled` -/

@[simp] theorem sampled_cfg (s : State) : (sampled s).cfg = s.cfg := rfl
@[simp] theorem sampled_frame (s : State) : (sampled s).frame = s.frame := rfl
@[simp] theorem sampled_fb (s : State) : (sampled s).fb = s.fb := rfl
@[simp] theorem sampled_fl (s : State) : (sampled s).fl = s.fl := rfl
@[simp] theorem sampled_dev (s : State) : (sampled s).dev = s.dev := rfl
@[simp] theorem sampled_pins (s : State) : (sampled s).pins = s.pins := rfl
@[simp] theorem sampled_work (s : State) : (sampled s).work = s.work := rfl
@[simp] theorem sampled_seq (s : State) : (sampled s).seq = s.seq := rfl
@[simp] theorem sampled_env (s : State) : (sampled s).env = { s.env with target := s.env.target.tail } := rfl
@[simp] theorem sampled_log (s : State) : (sampled s).log = { s.log with trace := .din s.lineLevel :: s.log.trace } := rfl
@[simp] theorem sampled_epoch (s : State) : (sampled s).epoch = s.epoch := rfl

/-! `loadSr` -/

@[simp] theorem loadSr_cfg (w : WireWord) (s : State) : (loadSr w s).cfg = s.cfg := rfl
@[simp] theorem loadSr_frame (w : WireWord) (s : State) : (loadSr w s).frame = s.frame := rfl
@[simp] theorem loadSr_fb (w : WireWord) (s : State) : (loadSr w s).fb = s.fb := rfl
@[simp] theorem loadSr_fl (w : WireWord) (s : State) : (loadSr w s).fl = s.fl := rfl
@[simp] theorem loadSr_dev (w : WireWord) (s : State) : (loadSr w s).dev = s.dev := rfl
@[simp] theorem loadSr_pins (w : WireWord) (s : State) : (loadSr w s).pins = s.pins := rfl
@[simp] theorem loadSr_work (w : WireWord) (s : State) : (loadSr w s).work = { s.work with sr := w, bitn := 0 } := rfl
@[simp] theorem loadSr_seq (w : WireWord) (s : State) : (loadSr w s).seq = s.seq := rfl
@[simp] theorem loadSr_env (w : WireWord) (s : State) : (loadSr w s).env = s.env := rfl
@[simp] theorem loadSr_log (w : WireWord) (s : State) : (loadSr w s).log = s.log := rfl
@[simp] theorem loadSr_epoch (w : WireWord) (s : State) : (loadSr w s).epoch = s.epoch := rfl

/-! `nextBit` -/

@[simp] theorem nextBit_cfg (s : State) : (nextBit s).cfg = s.cfg := rfl
@[simp] theorem nextBit_frame (s : State) : (nextBit s).frame = s.frame := rfl
@[simp] theorem nextBit_fb (s : State) : (nextBit s).fb = s.fb := rfl
@[simp] theorem nextBit_fl (s : State) : (nextBit s).fl = s.fl := rfl
@[simp] theorem nextBit_dev (s : State) : (nextBit s).dev = s.dev := rfl
@[simp] theorem nextBit_pins (s : State) : (nextBit s).pins = s.pins := rfl
@[simp] theorem nextBit_work (s : State) : (nextBit s).work = { s.work with bitn := s.work.bitn + 1 } := rfl
@[simp] theorem nextBit_seq (s : State) : (nextBit s).seq = s.seq := rfl
@[simp] theorem nextBit_env (s : State) : (nextBit s).env = s.env := rfl
@[simp] theorem nextBit_log (s : State) : (nextBit s).log = s.log := rfl
@[simp] theorem nextBit_epoch (s : State) : (nextBit s).epoch = s.epoch := rfl

/-! `sampleToSr` -/

@[simp] theorem sampleToSr_cfg (s : State) : (sampleToSr s).cfg = s.cfg := rfl
@[simp] theorem sampleToSr_frame (s : State) : (sampleToSr s).frame = s.frame := rfl
@[simp] theorem sampleToSr_fb (s : State) : (sampleToSr s).fb = s.fb := rfl
@[simp] theorem sampleToSr_fl (s : State) : (sampleToSr s).fl = s.fl := rfl
@[simp] theorem sampleToSr_dev (s : State) : (sampleToSr s).dev = s.dev := rfl
@[simp] theorem sampleToSr_pins (s : State) : (sampleToSr s).pins = s.pins := rfl
@[simp] theorem sampleToSr_work (s : State) : (sampleToSr s).work = { s.work with sr := setBit s.work.sr s.work.bitn.toNat s.lineLevel } := rfl
@[simp] theorem sampleToSr_seq (s : State) : (sampleToSr s).seq = s.seq := rfl
@[simp] theorem sampleToSr_env (s : State) : (sampleToSr s).env = { s.env with target := s.env.target.tail } := rfl
@[simp] theorem sampleToSr_log (s : State) : (sampleToSr s).log = { s.log with trace := .din s.lineLevel :: s.log.trace } := rfl
@[simp] theorem sampleToSr_epoch (s : State) : (sampleToSr s).epoch = s.epoch := rfl

/-! `wireTail` -/

@[simp] theorem wireTail_cfg (s : State) : (wireTail s).cfg = s.cfg := rfl
@[simp] theorem wireTail_frame (s : State) : (wireTail s).frame = s.frame := rfl
@[simp] theorem wireTail_fb (s : State) : (wireTail s).fb = s.fb := rfl
@[simp] theorem wireTail_fl (s : State) : (wireTail s).fl = s.fl := rfl
@[simp] theorem wireTail_dev (s : State) : (wireTail s).dev = s.dev := rfl
@[simp] theorem wireTail_pins (s : State) : (wireTail s).pins = { s.pins with ck := true, irqm := false } := rfl
@[simp] theorem wireTail_work (s : State) : (wireTail s).work = s.work := rfl
@[simp] theorem wireTail_seq (s : State) : (wireTail s).seq = s.seq := rfl
@[simp] theorem wireTail_env (s : State) : (wireTail s).env = s.env := rfl
@[simp] theorem wireTail_log (s : State) : (wireTail s).log = { s.log with trace := .irq false :: .delay Config.tHalf :: .ck true :: .delay Config.tHalf :: .ck false :: s.log.trace } := rfl
@[simp] theorem wireTail_epoch (s : State) : (wireTail s).epoch = s.epoch := rfl

/-! `note` -/

@[simp] theorem note_cfg (a : WireAccess) (s : State) : (note a s).cfg = s.cfg := rfl
@[simp] theorem note_frame (a : WireAccess) (s : State) : (note a s).frame = s.frame := rfl
@[simp] theorem note_fb (a : WireAccess) (s : State) : (note a s).fb = s.fb := rfl
@[simp] theorem note_fl (a : WireAccess) (s : State) : (note a s).fl = s.fl := rfl
@[simp] theorem note_dev (a : WireAccess) (s : State) : (note a s).dev = s.dev := rfl
@[simp] theorem note_pins (a : WireAccess) (s : State) : (note a s).pins = s.pins := rfl
@[simp] theorem note_work (a : WireAccess) (s : State) : (note a s).work = s.work := rfl
@[simp] theorem note_seq (a : WireAccess) (s : State) : (note a s).seq = s.seq := rfl
@[simp] theorem note_env (a : WireAccess) (s : State) : (note a s).env = s.env := rfl
@[simp] theorem note_log (a : WireAccess) (s : State) : (note a s).log = { s.log with issued := a :: s.log.issued } := rfl
@[simp] theorem note_epoch (a : WireAccess) (s : State) : (note a s).epoch = s.epoch := rfl

/-! `noteValue` -/

@[simp] theorem noteValue_cfg (a : Byte → WireAccess) (s : State) : (noteValue a s).cfg = s.cfg := rfl
@[simp] theorem noteValue_frame (a : Byte → WireAccess) (s : State) : (noteValue a s).frame = s.frame := rfl
@[simp] theorem noteValue_fb (a : Byte → WireAccess) (s : State) : (noteValue a s).fb = s.fb := rfl
@[simp] theorem noteValue_fl (a : Byte → WireAccess) (s : State) : (noteValue a s).fl = s.fl := rfl
@[simp] theorem noteValue_dev (a : Byte → WireAccess) (s : State) : (noteValue a s).dev = s.dev := rfl
@[simp] theorem noteValue_pins (a : Byte → WireAccess) (s : State) : (noteValue a s).pins = s.pins := rfl
@[simp] theorem noteValue_work (a : Byte → WireAccess) (s : State) : (noteValue a s).work = s.work := rfl
@[simp] theorem noteValue_seq (a : Byte → WireAccess) (s : State) : (noteValue a s).seq = s.seq := rfl
@[simp] theorem noteValue_env (a : Byte → WireAccess) (s : State) : (noteValue a s).env = s.env := rfl
@[simp] theorem noteValue_log (a : Byte → WireAccess) (s : State) : (noteValue a s).log = { s.log with issued := a s.work.v :: s.log.issued } := rfl
@[simp] theorem noteValue_epoch (a : Byte → WireAccess) (s : State) : (noteValue a s).epoch = s.epoch := rfl

/-! `latchV` -/

@[simp] theorem latchV_cfg (s : State) : (latchV s).cfg = s.cfg := rfl
@[simp] theorem latchV_frame (s : State) : (latchV s).frame = s.frame := rfl
@[simp] theorem latchV_fb (s : State) : (latchV s).fb = s.fb := rfl
@[simp] theorem latchV_fl (s : State) : (latchV s).fl = s.fl := rfl
@[simp] theorem latchV_dev (s : State) : (latchV s).dev = s.dev := rfl
@[simp] theorem latchV_pins (s : State) : (latchV s).pins = s.pins := rfl
@[simp] theorem latchV_work (s : State) : (latchV s).work = { s.work with v := lowByte s.work.sr } := rfl
@[simp] theorem latchV_seq (s : State) : (latchV s).seq = s.seq := rfl
@[simp] theorem latchV_env (s : State) : (latchV s).env = s.env := rfl
@[simp] theorem latchV_log (s : State) : (latchV s).log = s.log := rfl
@[simp] theorem latchV_epoch (s : State) : (latchV s).epoch = s.epoch := rfl

/-! `transmit` -/

@[simp] theorem transmit_cfg (b : Byte) (g : List Bool) (s : State) : (transmit b g s).cfg = s.cfg := rfl
@[simp] theorem transmit_frame (b : Byte) (g : List Bool) (s : State) : (transmit b g s).frame = s.frame := rfl
@[simp] theorem transmit_fb (b : Byte) (g : List Bool) (s : State) : (transmit b g s).fb = s.fb := rfl
@[simp] theorem transmit_fl (b : Byte) (g : List Bool) (s : State) : (transmit b g s).fl = s.fl := rfl
@[simp] theorem transmit_dev (b : Byte) (g : List Bool) (s : State) : (transmit b g s).dev = s.dev := rfl
@[simp] theorem transmit_pins (b : Byte) (g : List Bool) (s : State) : (transmit b g s).pins = s.pins := rfl
@[simp] theorem transmit_work (b : Byte) (g : List Bool) (s : State) : (transmit b g s).work = s.work := rfl
@[simp] theorem transmit_seq (b : Byte) (g : List Bool) (s : State) : (transmit b g s).seq = s.seq := rfl
@[simp] theorem transmit_env (b : Byte) (g : List Bool) (s : State) : (transmit b g s).env = { s.env with tx := s.env.tx ++ [b], txGate := g } := rfl
@[simp] theorem transmit_log (b : Byte) (g : List Bool) (s : State) : (transmit b g s).log = { s.log with trace := .tx b :: s.log.trace } := rfl
@[simp] theorem transmit_epoch (b : Byte) (g : List Bool) (s : State) : (transmit b g s).epoch = s.epoch := rfl

/-! `frameReset` -/

@[simp] theorem frameReset_cfg (s : State) : (frameReset s).cfg = s.cfg := rfl
@[simp] theorem frameReset_frame (s : State) : (frameReset s).frame = { s.frame with fs := .awaitingAction } := rfl
@[simp] theorem frameReset_fb (s : State) : (frameReset s).fb = s.fb := rfl
@[simp] theorem frameReset_fl (s : State) : (frameReset s).fl = s.fl := rfl
@[simp] theorem frameReset_dev (s : State) : (frameReset s).dev = s.dev := rfl
@[simp] theorem frameReset_pins (s : State) : (frameReset s).pins = s.pins := rfl
@[simp] theorem frameReset_work (s : State) : (frameReset s).work = s.work := rfl
@[simp] theorem frameReset_seq (s : State) : (frameReset s).seq = s.seq := rfl
@[simp] theorem frameReset_env (s : State) : (frameReset s).env = s.env := rfl
@[simp] theorem frameReset_log (s : State) : (frameReset s).log = s.log := rfl
@[simp] theorem frameReset_epoch (s : State) : (frameReset s).epoch = s.epoch := rfl

/-! `setIdx` -/

@[simp] theorem setIdx_cfg (i : Nat) (s : State) : (setIdx i s).cfg = s.cfg := rfl
@[simp] theorem setIdx_frame (i : Nat) (s : State) : (setIdx i s).frame = s.frame := rfl
@[simp] theorem setIdx_fb (i : Nat) (s : State) : (setIdx i s).fb = s.fb := rfl
@[simp] theorem setIdx_fl (i : Nat) (s : State) : (setIdx i s).fl = s.fl := rfl
@[simp] theorem setIdx_dev (i : Nat) (s : State) : (setIdx i s).dev = s.dev := rfl
@[simp] theorem setIdx_pins (i : Nat) (s : State) : (setIdx i s).pins = s.pins := rfl
@[simp] theorem setIdx_work (i : Nat) (s : State) : (setIdx i s).work = { s.work with idx := BitVec.ofNat 9 i } := rfl
@[simp] theorem setIdx_seq (i : Nat) (s : State) : (setIdx i s).seq = s.seq := rfl
@[simp] theorem setIdx_env (i : Nat) (s : State) : (setIdx i s).env = s.env := rfl
@[simp] theorem setIdx_log (i : Nat) (s : State) : (setIdx i s).log = s.log := rfl
@[simp] theorem setIdx_epoch (i : Nat) (s : State) : (setIdx i s).epoch = s.epoch := rfl

/-! `setCnt` -/

@[simp] theorem setCnt_cfg (n : Byte) (s : State) : (setCnt n s).cfg = s.cfg := rfl
@[simp] theorem setCnt_frame (n : Byte) (s : State) : (setCnt n s).frame = s.frame := rfl
@[simp] theorem setCnt_fb (n : Byte) (s : State) : (setCnt n s).fb = s.fb := rfl
@[simp] theorem setCnt_fl (n : Byte) (s : State) : (setCnt n s).fl = s.fl := rfl
@[simp] theorem setCnt_dev (n : Byte) (s : State) : (setCnt n s).dev = s.dev := rfl
@[simp] theorem setCnt_pins (n : Byte) (s : State) : (setCnt n s).pins = s.pins := rfl
@[simp] theorem setCnt_work (n : Byte) (s : State) : (setCnt n s).work = { s.work with cnt := n } := rfl
@[simp] theorem setCnt_seq (n : Byte) (s : State) : (setCnt n s).seq = s.seq := rfl
@[simp] theorem setCnt_env (n : Byte) (s : State) : (setCnt n s).env = s.env := rfl
@[simp] theorem setCnt_log (n : Byte) (s : State) : (setCnt n s).log = s.log := rfl
@[simp] theorem setCnt_epoch (n : Byte) (s : State) : (setCnt n s).epoch = s.epoch := rfl

/-! `takeByte` -/

@[simp] theorem takeByte_cfg (b : Byte) (rest : List Byte) (s : State) : (takeByte b rest s).cfg = s.cfg := rfl
@[simp] theorem takeByte_frame (b : Byte) (rest : List Byte) (s : State) : (takeByte b rest s).frame = s.frame := rfl
@[simp] theorem takeByte_fb (b : Byte) (rest : List Byte) (s : State) : (takeByte b rest s).fb = s.fb := rfl
@[simp] theorem takeByte_fl (b : Byte) (rest : List Byte) (s : State) : (takeByte b rest s).fl = s.fl := rfl
@[simp] theorem takeByte_dev (b : Byte) (rest : List Byte) (s : State) : (takeByte b rest s).dev = s.dev := rfl
@[simp] theorem takeByte_pins (b : Byte) (rest : List Byte) (s : State) : (takeByte b rest s).pins = s.pins := rfl
@[simp] theorem takeByte_work (b : Byte) (rest : List Byte) (s : State) : (takeByte b rest s).work = s.work := rfl
@[simp] theorem takeByte_seq (b : Byte) (rest : List Byte) (s : State) : (takeByte b rest s).seq = s.seq := rfl
@[simp] theorem takeByte_env (b : Byte) (rest : List Byte) (s : State) : (takeByte b rest s).env = { s.env with rx := rest } := rfl
@[simp] theorem takeByte_log (b : Byte) (rest : List Byte) (s : State) : (takeByte b rest s).log = { s.log with trace := .rx b :: s.log.trace } := rfl
@[simp] theorem takeByte_epoch (b : Byte) (rest : List Byte) (s : State) : (takeByte b rest s).epoch = s.epoch := rfl

/-! `hardReset` -/

@[simp] theorem hardReset_cfg (s : State) : (hardReset s).cfg = s.cfg := rfl
@[simp] theorem hardReset_frame (s : State) : (hardReset s).frame = State.reset.frame := rfl
@[simp] theorem hardReset_fb (s : State) : (hardReset s).fb = [] := rfl
@[simp] theorem hardReset_fl (s : State) : (hardReset s).fl = [] := rfl
@[simp] theorem hardReset_dev (s : State) : (hardReset s).dev = State.reset.dev := rfl
@[simp] theorem hardReset_pins (s : State) : (hardReset s).pins = State.reset.pins := rfl
@[simp] theorem hardReset_work (s : State) : (hardReset s).work = State.reset.work := rfl
@[simp] theorem hardReset_seq (s : State) : (hardReset s).seq = {} := rfl
@[simp] theorem hardReset_env (s : State) : (hardReset s).env = { s.env with resetIn := none } := rfl
@[simp] theorem hardReset_log (s : State) : (hardReset s).log = s.log := rfl
@[simp] theorem hardReset_epoch (s : State) : (hardReset s).epoch = s.epoch + 1 := rfl

/-! `setRes` -/

@[simp] theorem setRes_cfg (r : OpResult) (s : State) : (setRes r s).cfg = s.cfg := rfl
@[simp] theorem setRes_frame (r : OpResult) (s : State) : (setRes r s).frame = s.frame := rfl
@[simp] theorem setRes_fb (r : OpResult) (s : State) : (setRes r s).fb = s.fb := rfl
@[simp] theorem setRes_fl (r : OpResult) (s : State) : (setRes r s).fl = s.fl := rfl
@[simp] theorem setRes_dev (r : OpResult) (s : State) : (setRes r s).dev = s.dev := rfl
@[simp] theorem setRes_pins (r : OpResult) (s : State) : (setRes r s).pins = s.pins := rfl
@[simp] theorem setRes_work (r : OpResult) (s : State) : (setRes r s).work = { s.work with res := r } := rfl
@[simp] theorem setRes_seq (r : OpResult) (s : State) : (setRes r s).seq = s.seq := rfl
@[simp] theorem setRes_env (r : OpResult) (s : State) : (setRes r s).env = s.env := rfl
@[simp] theorem setRes_log (r : OpResult) (s : State) : (setRes r s).log = s.log := rfl
@[simp] theorem setRes_epoch (r : OpResult) (s : State) : (setRes r s).epoch = s.epoch := rfl

/-! `storeFlByte` -/

@[simp] theorem storeFlByte_cfg (i : Nat) (b : Byte) (s : State) : (storeFlByte i b s).cfg = s.cfg := rfl
@[simp] theorem storeFlByte_frame (i : Nat) (b : Byte) (s : State) : (storeFlByte i b s).frame = s.frame := rfl
@[simp] theorem storeFlByte_fb (i : Nat) (b : Byte) (s : State) : (storeFlByte i b s).fb = s.fb := rfl
@[simp] theorem storeFlByte_fl (i : Nat) (b : Byte) (s : State) : (storeFlByte i b s).fl = s.fl.write i b := rfl
@[simp] theorem storeFlByte_dev (i : Nat) (b : Byte) (s : State) : (storeFlByte i b s).dev = s.dev := rfl
@[simp] theorem storeFlByte_pins (i : Nat) (b : Byte) (s : State) : (storeFlByte i b s).pins = s.pins := rfl
@[simp] theorem storeFlByte_work (i : Nat) (b : Byte) (s : State) : (storeFlByte i b s).work = { s.work with idx := BitVec.ofNat 9 i } := rfl
@[simp] theorem storeFlByte_seq (i : Nat) (b : Byte) (s : State) : (storeFlByte i b s).seq = s.seq := rfl
@[simp] theorem storeFlByte_env (i : Nat) (b : Byte) (s : State) : (storeFlByte i b s).env = s.env := rfl
@[simp] theorem storeFlByte_log (i : Nat) (b : Byte) (s : State) : (storeFlByte i b s).log = s.log := rfl
@[simp] theorem storeFlByte_epoch (i : Nat) (b : Byte) (s : State) : (storeFlByte i b s).epoch = s.epoch := rfl

end Sys2Proof.Machine
end

