-- ==== Sys2Proof/Laws/Memory.lean ====
section
/-! SUPPORT. The laws of the byte buffers: a read after a write, the canonical form, copying into `FL`. -/
namespace Sys2Proof.Machine

/-- A read at the written index gives the byte written. -/
@[simp] theorem Mem.read_write_same (m : Mem) (a : Nat) (v : Byte) : (Mem.write m a v).read a = some v := by
  induction m with
  | nil => simp [Mem.write, Mem.read]
  | cons e rest ih =>
    obtain ⟨k, w⟩ := e
    simp only [Mem.write]
    split
    · simp [Mem.read]
    · split
      · simp [Mem.read]
      · rename_i h1 h2
        simp [Mem.read, h2, ih]

/-- A read at any other index is as before. -/
theorem Mem.read_write_other (m : Mem) (a b : Nat) (v : Byte) (h : b ≠ a) : (Mem.write m a v).read b = m.read b := by
  induction m with
  | nil => simp [Mem.write, Mem.read, h]
  | cons e rest ih =>
    obtain ⟨k, w⟩ := e
    simp only [Mem.write]
    split
    · simp [Mem.read, h]
    · split
      · rename_i h1 h2
        subst h2
        simp [Mem.read, h]
      · simp [Mem.read, ih]

/-- Both reads in one equation. -/
theorem Mem.read_write (m : Mem) (a b : Nat) (v : Byte) :
    (Mem.write m a v).read b = if b = a then some v else m.read b := by
  by_cases h : b = a
  · subst h; simp
  · simp [h, Mem.read_write_other m a b v h]

/-- The canonical form as a condition on the first entry and the rest. -/
theorem Mem.wf_cons (e : Host.Cell) (m : Mem) :
    Mem.wf (e :: m) = true ↔ Mem.wf m = true ∧ ∀ f, m.head? = some f → e.1 < f.1 := by
  obtain ⟨a, w⟩ := e
  cases m with
  | nil => simp [Mem.wf]
  | cons f rest => obtain ⟨b, x⟩ := f; simp [Mem.wf, and_comm]

/-- The first index after a write. -/
theorem Mem.head_write (m : Mem) (a : Nat) (v : Byte) (f : Host.Cell) (h : (Mem.write m a v).head? = some f) :
    f.1 = a ∨ m.head?.map (·.1) = some f.1 := by
  cases m with
  | nil => simp [Mem.write] at h; left; rw [← h]
  | cons e rest =>
    obtain ⟨k, w⟩ := e
    simp only [Mem.write] at h
    split at h
    · simp at h; left; rw [← h]
    · split at h
      · simp at h; left; rw [← h]
      · simp at h; right; simp [← h]

/-- A write keeps the canonical form. -/
theorem Mem.wf_write (m : Mem) (a : Nat) (v : Byte) (h : m.wf = true) : (Mem.write m a v).wf = true := by
  induction m with
  | nil => simp [Mem.write, Mem.wf]
  | cons e rest ih =>
    obtain ⟨k, w⟩ := e
    have hw := (Mem.wf_cons _ _).1 h
    simp only [Mem.write]
    split
    · rename_i hlt
      refine (Mem.wf_cons _ _).2 ⟨h, fun f hf => ?_⟩
      simp at hf
      rw [← hf]
      exact hlt
    · split
      · rename_i h1 h2
        subst h2
        exact (Mem.wf_cons _ _).2 hw
      · rename_i h1 h2
        refine (Mem.wf_cons _ _).2 ⟨ih hw.1, fun f hf => ?_⟩
        rcases Mem.head_write rest a v f hf with h3 | h3
        · show k < f.1
          omega
        · cases rest with
          | nil => simp at h3
          | cons g r =>
            simp at h3
            have := hw.2 g rfl
            show k < f.1
            simp at this
            omega

/-- The reset state's buffers are in canonical form. -/
theorem reset_buffers_wf : State.reset.fb.wf = true ∧ State.reset.fl.wf = true := ⟨rfl, rfl⟩

/-- `FL[a]` after `FL[i] <- b`. -/
theorem flByte_storeFlByte (i a : Nat) (b : Byte) (s : State) :
    (storeFlByte i b s).flByte a = if a = i then b else s.flByte a := by
  by_cases h : a = i
  · subst h; simp [State.flByte]
  · simp [State.flByte, h, Mem.read_write_other]

/-- Everything the copy into `FL` does. -/
theorem copyToFl_spec (data : List Byte) : ∀ (i : Nat) (s : State),
    (copyToFl i data s).cfg = s.cfg ∧ (copyToFl i data s).frame = s.frame ∧ (copyToFl i data s).fb = s.fb ∧
    (copyToFl i data s).dev = s.dev ∧ (copyToFl i data s).pins = s.pins ∧ (copyToFl i data s).seq = s.seq ∧
    (copyToFl i data s).env = s.env ∧ (copyToFl i data s).log = s.log ∧ (copyToFl i data s).epoch = s.epoch ∧
    (∃ x, (copyToFl i data s).work = { s.work with idx := x }) ∧
    (∀ a, (copyToFl i data s).flByte a =
      if h : i ≤ a ∧ a < i + data.length then data[a - i]'(by omega) else s.flByte a) ∧
    (s.fl.wf = true → (copyToFl i data s).fl.wf = true) := by
  induction data with
  | nil =>
    intro i s
    refine ⟨rfl, rfl, rfl, rfl, rfl, rfl, rfl, rfl, rfl, ⟨s.work.idx, rfl⟩, ?_, id⟩
    intro a
    rw [dif_neg (by simp)]
    rfl
  | cons b rest ih =>
    intro i s
    obtain ⟨h1, h2, h3, h4, h5, h6, h7, h8, h9, ⟨x, h10⟩, h11, h12⟩ := ih (i + 1) (storeFlByte i b s)
    refine ⟨h1, h2, h3, h4, h5, h6, h7, h8, h9, ⟨x, h10⟩, ?_, fun h => h12 (Mem.wf_write _ _ _ h)⟩
    intro a
    show (copyToFl (i + 1) rest (storeFlByte i b s)).flByte a = _
    rw [h11, flByte_storeFlByte]
    by_cases ha : a = i
    · subst ha; simp
    · by_cases hb : i + 1 ≤ a ∧ a < i + 1 + rest.length
      · have hc : i ≤ a ∧ a < i + (b :: rest).length := by simp; omega
        rw [dif_pos hb, dif_pos hc]
        have : a - i = (a - (i + 1)) + 1 := by omega
        simp [this]
      · have hc : ¬ (i ≤ a ∧ a < i + (b :: rest).length) := by simp; omega
        rw [dif_neg hb, dif_neg hc, if_neg ha]

end Sys2Proof.Machine
end

