-- ==== Sys2Proof/Laws/Drive.lean ====
section
/-! SUPPORT. Frames of the two-wire level, and what shifting a word out does, said once. -/
namespace Sys2Proof.Machine

/-! ## Frames -/

theorem WireFrame.refl (s : State) : WireFrame s s :=
  { cfg := rfl, frame := rfl, fb := rfl, fbByte := fun _ => rfl, led := rfl, addr := rfl, cks := rfl, sum := rfl,
    cnt := rfl, rx := rfl, tx := rfl, txGate := rfl, txGateRest := rfl, targetRest := rfl, resetIn := rfl,
    epoch := rfl, fl := rfl, flByte := fun _ => rfl, dev := rfl, idx := rfl, res := rfl }

theorem RoutineFrame.refl (s : State) : RoutineFrame s s := (WireFrame.refl s).toRoutineFrame

theorem RoutineFrame.trans {s t u : State} (a : RoutineFrame s t) (b : RoutineFrame t u) : RoutineFrame s u :=
  { cfg := b.cfg.trans a.cfg, frame := b.frame.trans a.frame, fb := b.fb.trans a.fb,
    fbByte := fun i => (b.fbByte i).trans (a.fbByte i), led := b.led.trans a.led, addr := b.addr.trans a.addr,
    cks := b.cks.trans a.cks, sum := b.sum.trans a.sum, cnt := b.cnt.trans a.cnt, rx := b.rx.trans a.rx,
    tx := b.tx.trans a.tx, txGate := b.txGate.trans a.txGate, txGateRest := b.txGateRest.trans a.txGateRest,
    targetRest := b.targetRest.trans a.targetRest, resetIn := b.resetIn.trans a.resetIn,
    epoch := b.epoch.trans a.epoch }

theorem WireFrame.trans {s t u : State} (a : WireFrame s t) (b : WireFrame t u) : WireFrame s u :=
  { a.toRoutineFrame.trans b.toRoutineFrame with
    fl := b.fl.trans a.fl, flByte := fun i => (b.flByte i).trans (a.flByte i), dev := b.dev.trans a.dev,
    idx := b.idx.trans a.idx, res := b.res.trans a.res }

theorem WireFrame.keepsFl {s t : State} (a : WireFrame s t) : KeepsFl s t := ⟨a.fl, a.flByte⟩

/-- What the two-wire level leaves alone, as one relation between a state and a later one: the frame, the sequencer,
and the pins other than those it drives. -/
structure WireStep (s t : State) : Prop extends WireFrame s t where
  seq : t.seq = s.seq

theorem WireStep.refl (s : State) : WireStep s s := { WireFrame.refl s with seq := rfl }

theorem WireStep.trans {s t u : State} (a : WireStep s t) (b : WireStep t u) : WireStep s u :=
  { a.toWireFrame.trans b.toWireFrame with seq := b.seq.trans a.seq }

/-- A state that differs only in pins other than `LED`, in `SR`, `BITN`, `V`, in the target's listed answers and in the
record. -/
theorem WireStep.of_eq {s t : State} (h1 : t.cfg = s.cfg) (h2 : t.frame = s.frame) (h3 : t.fb = s.fb)
    (h4 : t.fl = s.fl) (h5 : t.dev = s.dev) (h6 : t.pins.led = s.pins.led)
    (h7 : t.work = { s.work with sr := t.work.sr, bitn := t.work.bitn, v := t.work.v })
    (h8 : t.seq = s.seq) (h9 : t.env = { s.env with target := t.env.target }) (h10 : t.epoch = s.epoch) :
    WireStep s t :=
  { cfg := h1, frame := h2, fb := h3, fl := h4, dev := h5, led := h6, seq := h8, epoch := h10
    fbByte := fun a => by simp [State.fbByte, h3, h10]
    flByte := fun a => by simp [State.flByte, h4, h10]
    addr := by rw [h7], cks := by rw [h7], sum := by rw [h7], cnt := by rw [h7], idx := by rw [h7]
    res := by rw [h7], rx := by rw [h9], tx := by rw [h9], txGate := by rw [h9], txGateRest := by rw [h9]
    targetRest := by rw [h9], resetIn := by rw [h9] }

theorem pulseClock_step (s : State) : WireStep s (pulseClock s) :=
  WireStep.of_eq rfl rfl rfl rfl rfl rfl rfl rfl rfl rfl
theorem dOutput_step (s : State) : WireStep s (dOutput s) := WireStep.of_eq rfl rfl rfl rfl rfl rfl rfl rfl rfl rfl
theorem dInput_step (s : State) : WireStep s (dInput s) := WireStep.of_eq rfl rfl rfl rfl rfl rfl rfl rfl rfl rfl
theorem dWrite_step (b : Bool) (s : State) : WireStep s (dWrite b s) :=
  WireStep.of_eq rfl rfl rfl rfl rfl rfl rfl rfl rfl rfl
theorem irqOff_step (s : State) : WireStep s (irqOff s) := WireStep.of_eq rfl rfl rfl rfl rfl rfl rfl rfl rfl rfl
theorem sampled_step (s : State) : WireStep s (sampled s) := WireStep.of_eq rfl rfl rfl rfl rfl rfl rfl rfl rfl rfl
theorem loadSr_step (w : WireWord) (s : State) : WireStep s (loadSr w s) :=
  WireStep.of_eq rfl rfl rfl rfl rfl rfl rfl rfl rfl rfl
theorem nextBit_step (s : State) : WireStep s (nextBit s) := WireStep.of_eq rfl rfl rfl rfl rfl rfl rfl rfl rfl rfl
theorem sampleToSr_step (s : State) : WireStep s (sampleToSr s) :=
  WireStep.of_eq rfl rfl rfl rfl rfl rfl rfl rfl rfl rfl
theorem wireTail_step (s : State) : WireStep s (wireTail s) := WireStep.of_eq rfl rfl rfl rfl rfl rfl rfl rfl rfl rfl
theorem note_step (a : WireAccess) (s : State) : WireStep s (note a s) :=
  WireStep.of_eq rfl rfl rfl rfl rfl rfl rfl rfl rfl rfl

theorem noteValue_step (a : Byte → WireAccess) (s : State) : WireStep s (noteValue a s) :=
  WireStep.of_eq rfl rfl rfl rfl rfl rfl rfl rfl rfl rfl
theorem latchV_step (s : State) : WireStep s (latchV s) := WireStep.of_eq rfl rfl rfl rfl rfl rfl rfl rfl rfl rfl

/-! ## Shifting out -/

/-- Everything `n` turns of `shiftOut` do: the clock ends high, the last bit stays on `DOUT`, each bit is placed
before its pulse. -/
theorem shiftOut_spec (n : Nat) : ∀ s : State, s.work.bitn.toNat + n < 16 →
    WireStep s (shiftOut n s) ∧ (shiftOut n s).env = s.env ∧ (shiftOut n s).work.v = s.work.v ∧
    (shiftOut n s).work.sr = s.work.sr ∧
    (shiftOut n s).pins = { s.pins with
      ck := if n = 0 then s.pins.ck else true
      dout := if n = 0 then s.pins.dout else s.work.sr.getLsbD (s.work.bitn.toNat + n - 1) } ∧
    (shiftOut n s).log.issued = s.log.issued ∧
    (shiftOut n s).log.trace =
      (evDrive ((List.range n).map fun i => s.work.sr.getLsbD (s.work.bitn.toNat + i))).reverse ++ s.log.trace := by
  induction n with
  | zero => intro s _; exact ⟨WireStep.refl s, rfl, rfl, rfl, by simp [shiftOut], rfl, by simp [shiftOut, evDrive]⟩
  | succ n ih =>
    intro s hs
    have hb : (s.work.bitn + 1).toNat = s.work.bitn.toNat + 1 := by
      rw [BitVec.toNat_add]; simp; omega
    have h := ih (nextBit (pulseClock (dWrite (s.work.sr.getLsbD s.work.bitn.toNat) s)))
      (by simp only [nextBit_work, pulseClock_work, dWrite_work, hb]; omega)
    obtain ⟨h1, h2, h3, h4, h5, h6, h7⟩ := h
    refine ⟨?_, h2, h3, h4, ?_, h6, ?_⟩
    · exact ((dWrite_step _ _).trans ((pulseClock_step _).trans (nextBit_step _))).trans h1
    · show (shiftOut n _).pins = _
      rw [h5]
      simp only [nextBit_pins, pulseClock_pins, dWrite_pins, nextBit_work, pulseClock_work, dWrite_work, hb]
      by_cases hn : n = 0
      · subst hn; simp
      · have : s.work.bitn.toNat + 1 + n - 1 = s.work.bitn.toNat + (n + 1) - 1 := by omega
        simp [hn, this]
    · show (shiftOut n _).log.trace = _
      rw [h7]
      simp only [nextBit_log, pulseClock_log, dWrite_log, nextBit_work, pulseClock_work, dWrite_work, hb]
      rw [List.range_succ_eq_map]
      simp [evDrive, evPulse, Function.comp_def, Nat.add_assoc, Nat.add_comm 1, List.map_map]

/-- The bits of an address-write word in wire order (R100). -/
theorem addressWriteWord_bits (a : Byte) :
    (List.range 10).map (addressWriteWord a).getLsbD = [true, true] ++ byteBits a := by
  simp only [List.range, List.range.loop, List.map, addressWriteWord, byteBits, List.cons_append, List.nil_append]
  simp

/-- The bits of a data-write word in wire order (R102). -/
theorem dataWriteWord_bits (d : Byte) :
    (List.range 12).map (dataWriteWord d).getLsbD = [true, false, false, false] ++ byteBits d := by
  simp only [List.range, List.range.loop, List.map, dataWriteWord, byteBits, List.cons_append, List.nil_append]
  simp

/-- Everything the common head of the two-wire instructions does (R141). -/
theorem wireHead_spec (word : WireWord) (width : Nat) (hw : width < 16) (hp : width ≠ 0) (s : State) :
    WireStep s (wireHead word width s) ∧ (wireHead word width s).env = s.env ∧
    (wireHead word width s).work.v = s.work.v ∧
    (wireHead word width s).pins =
      { s.pins with ck := true, doe := false, dout := word.getLsbD (width - 1), irqm := true } ∧
    (wireHead word width s).log.issued = s.log.issued ∧
    (wireHead word width s).log.trace =
      (evHead ((List.range width).map word.getLsbD)).reverse ++ s.log.trace := by
  have h := shiftOut_spec width (loadSr word (dOutput (irqOff (pulseClock s)))) (by simp; omega)
  obtain ⟨h1, h2, h3, h4, h5, h6, h7⟩ := h
  refine ⟨?_, ?_, ?_, ?_, ?_, ?_⟩
  · exact (((pulseClock_step s).trans (irqOff_step _)).trans ((dOutput_step _).trans (loadSr_step _ _))).trans
      (h1.trans (dInput_step _))
  · simp [wireHead, h2]
  · simp [wireHead, h3]
  · simp [wireHead, h5, hp]
  · simp [wireHead, h6]
  · simp [wireHead, h7, evHead, evPulse]

end Sys2Proof.Machine
end

