-- ==== Sys2Proof/Laws/Wire.lean ====
section
/-! SUPPORT. What the sampling loops, the wait loop and the two-wire instructions do, said once. -/
namespace Sys2Proof.Machine

/-! ## Sampling -/

/-- The level sampled while the data pin is released is the target's next answer (R133, R135). -/
theorem lineLevel_released (s : State) (h : s.pins.doe = false) : s.lineLevel = s.nextDrive.level := by
  simp [State.lineLevel, h]

theorem answers_succ (s : State) (n : Nat) :
    s.answers (n + 1) = s.nextDrive.level ::
      (List.range n).map fun i => (s.env.target.tail.getD i s.env.targetRest).level := by
  simp only [State.answers, List.range_succ_eq_map, List.map_cons, List.map_map, State.nextDrive]
  cases h : s.env.target <;> simp [Function.comp_def]

/-- One bit of the shift register replaced. -/
theorem setBit_getLsbD (sr : WireWord) (n : Nat) (b : Bool) (i : Nat) :
    (setBit sr n b).getLsbD i = if i = n ∧ i < 12 then b else sr.getLsbD i := by
  by_cases h12 : i < 12
  · by_cases hn : i = n
    · subst hn; cases b <;> simp [setBit, h12]
    · cases b <;> simp [setBit, h12, hn] <;> omega
  · rw [if_neg (by omega), BitVec.getLsbD_of_ge _ _ (by omega), BitVec.getLsbD_of_ge _ _ (by omega)]

/-- Everything `n` turns of `shiftIn` do while the data pin is released. -/
theorem shiftIn_spec (n : Nat) : ∀ s : State, s.work.bitn.toNat + n < 16 → s.pins.doe = false →
    WireStep s (shiftIn n s) ∧ (shiftIn n s).env.target = s.env.target.drop n ∧
    (shiftIn n s).work.v = s.work.v ∧
    (shiftIn n s).pins = { s.pins with ck := if n = 0 then s.pins.ck else true } ∧
    (shiftIn n s).log.issued = s.log.issued ∧
    (shiftIn n s).log.trace = (evSample (s.answers n)).reverse ++ s.log.trace ∧
    ∀ i, (shiftIn n s).work.sr.getLsbD i =
      if s.work.bitn.toNat ≤ i ∧ i < s.work.bitn.toNat + n ∧ i < 12 then
        (s.answers n).getD (i - s.work.bitn.toNat) false
      else s.work.sr.getLsbD i := by
  induction n with
  | zero =>
    intro s _ _
    refine ⟨WireStep.refl s, by simp [shiftIn], rfl, by simp [shiftIn], rfl, by simp [shiftIn, evSample, State.answers],
      fun i => ?_⟩
    rw [if_neg (by omega)]
    rfl
  | succ n ih =>
    intro s hs hd
    have hb : (s.work.bitn + 1).toNat = s.work.bitn.toNat + 1 := by
      rw [BitVec.toNat_add]; simp; omega
    have hl : (pulseClock s).lineLevel = s.nextDrive.level := by
      rw [lineLevel_released _ (by simpa using hd)]; simp [State.nextDrive]
    have h := ih (nextBit (sampleToSr (pulseClock s)))
      (by simp only [nextBit_work, sampleToSr_work, pulseClock_work, hb]; omega) (by simpa using hd)
    obtain ⟨h1, h2, h3, h4, h5, h6, h7⟩ := h
    have ha : (nextBit (sampleToSr (pulseClock s))).answers n =
        (List.range n).map fun i => (s.env.target.tail.getD i s.env.targetRest).level := by
      simp [State.answers]
    refine ⟨?_, ?_, h3, ?_, h5, ?_, ?_⟩
    · exact ((pulseClock_step s).trans ((sampleToSr_step _).trans (nextBit_step _))).trans h1
    · show (shiftIn n _).env.target = _
      rw [h2]; simp
    · show (shiftIn n _).pins = _
      rw [h4]; by_cases hn : n = 0 <;> simp [hn]
    · show (shiftIn n _).log.trace = _
      rw [h6, ha, answers_succ]
      simp [evSample, evPulse, hl]
    · intro i
      show (shiftIn n _).work.sr.getLsbD i = _
      rw [h7]
      simp only [ha, answers_succ, nextBit_work, sampleToSr_work, pulseClock_work, hl, hb, setBit_getLsbD]
      by_cases hi : i = s.work.bitn.toNat
      · subst hi
        rw [if_neg (by omega)]
        by_cases h12 : s.work.bitn.toNat < 12
        · rw [if_pos ⟨rfl, h12⟩, if_pos (by omega), Nat.sub_self]; rfl
        · rw [if_neg (by omega), if_neg (by omega)]
      · by_cases hin : s.work.bitn.toNat + 1 ≤ i ∧ i < s.work.bitn.toNat + 1 + n ∧ i < 12
        · rw [if_pos hin, if_pos (by omega)]
          have : i - s.work.bitn.toNat = (i - (s.work.bitn.toNat + 1)) + 1 := by omega
          rw [this, List.getD_cons_succ]
        · rw [if_neg hin, if_neg (by omega), if_neg (by omega)]

/-- A byte from its bits. -/
theorem byteOfBits_bit (bits : List Bool) (h : bits.length = 8) (i : Nat) :
    (byteOfBits bits).getLsbD i = bits.getD i false := by
  rw [byteOfBits, BitVec.getLsbD_setWidth, BitVec.getLsbD_ofBoolListLE]
  by_cases hi : i < 8
  · simp [hi]
  · rw [List.getD_eq_default _ _ (by omega)]; simp [hi]

/-- The bits of a byte give the byte back (R156). -/
theorem byteOfBits_byteBits (b : Byte) : byteOfBits (byteBits b) = b := by
  apply BitVec.eq_of_getLsbD_eq
  intro i hi
  rw [byteOfBits_bit _ (by simp [byteBits])]
  simp [byteBits, hi]

/-- The end of a reading instruction, whatever state the shift has left. -/
theorem latchV_wireTail_spec (q : State) :
    WireStep q (latchV (wireTail q)) ∧ (latchV (wireTail q)).env.target = q.env.target ∧
    (latchV (wireTail q)).work.v = lowByte q.work.sr ∧
    (latchV (wireTail q)).pins = { q.pins with ck := true, irqm := false } ∧
    (latchV (wireTail q)).log.issued = q.log.issued ∧
    (latchV (wireTail q)).log.trace = evTail.reverse ++ q.log.trace :=
  ⟨(wireTail_step q).trans (latchV_step _), rfl, rfl, rfl, rfl, by simp [evTail, evPulse]⟩

/-- What `n` turns of `shiftIn` into a cleared shift register leave, told of the state before. -/
theorem shiftIn_loadSr (n : Nat) (s : State) (hn : n < 16) (h : s.pins.doe = false) :
    ∃ q, shiftIn n (loadSr 0#12 s) = q ∧ WireStep s q ∧ q.env.target = s.env.target.drop n ∧
      q.pins = { s.pins with ck := if n = 0 then s.pins.ck else true } ∧ q.log.issued = s.log.issued ∧
      q.log.trace = (evSample (s.answers n)).reverse ++ s.log.trace ∧
      ∀ i, i < n → i < 12 → q.work.sr.getLsbD i = (s.answers n).getD i false := by
  obtain ⟨h1, h2, h3, h4, h5, h6, h7⟩ := shiftIn_spec n (loadSr 0#12 s) (by simpa using hn) (by simpa using h)
  refine ⟨_, rfl, (loadSr_step 0#12 s).trans h1, h2, h4, h5, h6, fun i hi h12 => ?_⟩
  rw [h7 i, if_pos ⟨by simp, by simpa using hi, h12⟩]
  simp [State.answers]

/-- Everything the response bits and the end of a reading instruction do (R141, R151, R153). -/
theorem responseTail_spec (s : State) (h : s.pins.doe = false) :
    WireStep s (responseTail s) ∧ (responseTail s).env.target = s.env.target.drop 8 ∧
    (responseTail s).work.v = byteOfBits (s.answers 8) ∧
    (responseTail s).pins = { s.pins with ck := true, irqm := false } ∧
    (responseTail s).log.issued = s.log.issued ∧
    (responseTail s).log.trace = (evSample (s.answers 8) ++ evTail).reverse ++ s.log.trace := by
  obtain ⟨q, hq, h1, h2, h4, h5, h6, h7⟩ := shiftIn_loadSr 8 s (by omega) h
  have he : responseTail s = latchV (wireTail q) := by rw [responseTail, hq]
  obtain ⟨g1, g2, g3, g4, g5, g6⟩ := latchV_wireTail_spec q
  rw [he]
  clear hq he
  refine ⟨h1.trans g1, g2.trans h2, ?_, ?_, g5.trans h5, ?_⟩
  · rw [g3]
    apply BitVec.eq_of_getLsbD_eq
    intro i hi
    rw [byteOfBits_bit _ (by simp [State.answers]), ← h7 i hi (by omega)]
    simp [lowByte, hi]
  · rw [g4, h4]
  · rw [g6, h6, List.reverse_append, List.append_assoc]

/-! ## What the target answers next -/

/-- The levels of the listed answers. -/
theorem answers_of_target (s : State) (ds rest : List LineDrive) (h : s.env.target = ds ++ rest) :
    s.answers ds.length = ds.map LineDrive.level := by
  apply List.ext_getElem
  · simp [State.answers]
  · intro i h1 h2
    have hi : i < ds.length := by simpa [State.answers] using h1
    simp [State.answers, h, hi, List.getD_eq_getElem?_getD, List.getElem?_append_left]

/-- The answers after the first `k`. -/
theorem answers_drop (s q : State) (k n : Nat) (h : q.env.target = s.env.target.drop k)
    (hr : q.env.targetRest = s.env.targetRest) : q.answers n = (s.answers (k + n)).drop k := by
  apply List.ext_getElem
  · simp [State.answers]
  · intro i h1 h2
    simp [State.answers, h, hr, List.getD_eq_getElem?_getD, List.getElem?_drop]

/-- The first `n` of more answers. -/
theorem answers_take (s : State) (n m : Nat) (h : n ≤ m) : (s.answers m).take n = s.answers n := by
  simp [State.answers, ← List.map_take, List.take_range, Nat.min_eq_left h]

/-! ## The wait loop (R139) -/

/-- A wait field that the target ends: `k` samples of 0, then a 1. The block is not held in it when a listed answer is
left after each of the `k`. -/
theorem waitHigh_done (k : Nat) : ∀ (s : State) (fuel : Nat), s.pins.doe = false →
    s.answers (k + 1) = List.replicate k false ++ [true] → k = 0 ∨ k < s.env.target.length → k ≤ fuel →
    (repeatUntil waitTurn fuel s).1 = true ∧
    WireStep s (repeatUntil waitTurn fuel s).2 ∧
    (repeatUntil waitTurn fuel s).2.env.target = s.env.target.drop (k + 1) ∧
    (repeatUntil waitTurn fuel s).2.work = s.work ∧
    (repeatUntil waitTurn fuel s).2.pins = { s.pins with ck := true } ∧
    (repeatUntil waitTurn fuel s).2.log.issued = s.log.issued ∧
    (repeatUntil waitTurn fuel s).2.log.trace =
      (evSample (List.replicate k false ++ [true])).reverse ++ s.log.trace := by
  induction k with
  | zero =>
    intro s fuel hd hl _ _
    have hv : (pulseClock s).lineLevel = true := by
      rw [lineLevel_released _ (by simpa using hd)]
      rw [answers_succ] at hl
      simpa [State.nextDrive] using hl
    have hturn : waitTurn s = (true, sampled (pulseClock s)) := by simp [waitTurn, hv]
    have hrep : repeatUntil waitTurn fuel s = (true, sampled (pulseClock s)) := by
      cases fuel <;> simp [repeatUntil, hturn]
    rw [hrep]
    refine ⟨rfl, (pulseClock_step s).trans (sampled_step _), by simp, rfl, rfl, rfl, ?_⟩
    simp [evSample, evPulse, hv]
  | succ k ih =>
    intro s fuel hd hl hk hf
    have hlen : k + 1 < s.env.target.length := by omega
    rw [answers_succ, List.replicate_succ, List.cons_append] at hl
    obtain ⟨hl1, hl2⟩ := List.cons.inj hl
    have hv : (pulseClock s).lineLevel = false := by
      rw [lineLevel_released _ (by simpa using hd)]; simpa [State.nextDrive] using hl1
    have hturn : waitTurn s = (false, sampled (pulseClock s)) := by simp [waitTurn, hv]
    obtain ⟨f, rfl⟩ : ∃ f, fuel = f + 1 := ⟨fuel - 1, by omega⟩
    have hem : (sampled (pulseClock s)).env.target.isEmpty = false := by
      cases ht : s.env.target with
      | nil => simp [ht] at hlen
      | cons d r => cases r <;> simp [ht] at hlen ⊢
    have hrep : repeatUntil waitTurn (f + 1) s = repeatUntil waitTurn f (sampled (pulseClock s)) := by
      simp only [repeatUntil, hturn, hem]; rfl
    obtain ⟨h1, h2, h3, h4, h5, h6, h7⟩ := ih (sampled (pulseClock s)) f (by simpa using hd) hl2
      (by right; simp; omega) (by omega)
    rw [hrep]
    refine ⟨h1, ((pulseClock_step s).trans (sampled_step _)).trans h2, ?_, h4, ?_, h6, ?_⟩
    · rw [h3]; simp
    · rw [h5]; simp
    · rw [h7]; simp [evSample, evPulse, hv, List.replicate_succ]

/-- Every wait field, whether it ends or not: what it may have changed. -/
theorem repeatUntil_waitTurn_frame (fuel : Nat) : ∀ s : State,
    WireStep s (repeatUntil waitTurn fuel s).2 ∧
    (repeatUntil waitTurn fuel s).2.work = s.work ∧
    (repeatUntil waitTurn fuel s).2.pins = { s.pins with ck := true } ∧
    (repeatUntil waitTurn fuel s).2.log.issued = s.log.issued := by
  induction fuel with
  | zero => intro s; exact ⟨(pulseClock_step s).trans (sampled_step _), rfl, rfl, rfl⟩
  | succ n ih =>
    intro s
    have hb : WireStep s (sampled (pulseClock s)) := (pulseClock_step s).trans (sampled_step _)
    simp only [repeatUntil, waitTurn]
    cases (pulseClock s).lineLevel
    · simp only
      split
      · exact ⟨hb, rfl, rfl, rfl⟩
      · obtain ⟨h1, h2, h3, h4⟩ := ih (sampled (pulseClock s))
        exact ⟨hb.trans h1, h2, by rw [h3]; simp, h4⟩
    · exact ⟨hb, rfl, rfl, rfl⟩

/-- A line held at 0 with no listed answer left: one more pulse and sample, and the loop is entered again (R264). -/
theorem waitHigh_held (s : State) (hd : s.pins.doe = false) (ht : s.env.target = []) (hr : s.env.targetRest = .low) :
    waitHigh s = (false, sampled (pulseClock s)) := by
  have hv : (pulseClock s).lineLevel = false := by
    rw [lineLevel_released _ (by simpa using hd)]; simp [State.nextDrive, ht, hr, LineDrive.level]
  simp [waitHigh, ht, repeatUntil, waitTurn, hv]

/-! ## The four instructions (R150 to R153) -/

/-- Everything `addressWrite` does. -/
theorem addressWrite_spec (a : Byte) (s : State) :
    WireStep s (addressWrite a s) ∧ (addressWrite a s).env = s.env ∧ (addressWrite a s).work.v = s.work.v ∧
    (addressWrite a s).pins = { s.pins with ck := true, doe := false, dout := a.getLsbD 7, irqm := false } ∧
    (addressWrite a s).log.issued = .aw a :: s.log.issued ∧
    (addressWrite a s).log.trace = (evInstr ([true, true] ++ byteBits a) [] []).reverse ++ s.log.trace := by
  obtain ⟨h1, h2, h3, h4, h5, h6⟩ := wireHead_spec (addressWriteWord a) 10 (by omega) (by omega) s
  rw [addressWriteWord_bits] at h6
  refine ⟨?_, ?_, ?_, ?_, ?_, ?_⟩
  · exact h1.trans ((wireTail_step _).trans (note_step _ _))
  · simp [addressWrite, h2]
  · simp [addressWrite, h3]
  · have hb : (addressWriteWord a).getLsbD 9 = a.getLsbD 7 := by simp [addressWriteWord]
    simp only [addressWrite, note_pins, wireTail_pins, h4, hb]
  · simp [addressWrite, h5]
  · simp [addressWrite, h6, evInstr, evTail, evPulse, evSample]

/-- Everything `addressRead` does. -/
theorem addressRead_spec (s : State) :
    WireStep s (addressRead s) ∧ (addressRead s).env.target = s.env.target.drop 8 ∧
    (addressRead s).work.v = byteOfBits (s.answers 8) ∧
    (addressRead s).pins = { s.pins with ck := true, doe := false, dout := true, irqm := false } ∧
    (addressRead s).log.issued = .ar (byteOfBits (s.answers 8)) :: s.log.issued ∧
    (addressRead s).log.trace = (evInstr [false, true] [] (s.answers 8)).reverse ++ s.log.trace := by
  obtain ⟨h1, h2, h3, h4, h5, h6⟩ := wireHead_spec addressReadWord 2 (by omega) (by omega) s
  obtain ⟨g1, g2, g3, g4, g5, g6⟩ := responseTail_spec (wireHead addressReadWord 2 s) (by rw [h4])
  have ha : (wireHead addressReadWord 2 s).answers 8 = s.answers 8 := by simp [State.answers, h2]
  have hw : (List.range 2).map addressReadWord.getLsbD = [false, true] := by decide
  rw [ha] at g3 g6
  rw [hw] at h6
  refine ⟨?_, ?_, ?_, ?_, ?_, ?_⟩
  · exact (h1.trans g1).trans (noteValue_step _ _)
  · simp [addressRead, g2, h2]
  · simp [addressRead, g3]
  · have hb : addressReadWord.getLsbD 1 = true := by decide
    simp [addressRead, g4, h4, hb]
  · simp [addressRead, g5, g3, h5]
  · simp [addressRead, g6, h6, evInstr, evSample]

/-- Everything a data write does from its wait field on, when the target ends the wait. -/
theorem finishWire_dataWrite_done (d : Byte) (k : Nat) (s : State) (hd : s.pins.doe = false)
    (hl : s.answers (k + 1) = List.replicate k false ++ [true]) (hk : k = 0 ∨ k < s.env.target.length) :
    ∃ t, finishWire (.dataWrite d) s = (true, t) ∧ WireStep s t ∧ t.env.target = s.env.target.drop (k + 1) ∧
      t.work = s.work ∧ t.pins = { s.pins with ck := true, irqm := false } ∧
      t.log.issued = .dw d :: s.log.issued ∧
      t.log.trace = (evSample (List.replicate k false ++ [true]) ++ evTail).reverse ++ s.log.trace := by
  obtain ⟨h1, h2, h3, h4, h5, h6, h7⟩ := waitHigh_done k s s.env.target.length hd hl hk (by omega)
  have hw : waitHigh s = (true, (repeatUntil waitTurn s.env.target.length s).2) := Prod.ext h1 rfl
  generalize repeatUntil waitTurn s.env.target.length s = r at *
  refine ⟨note (.dw d) (wireTail r.2), by simp only [finishWire, hw],
    h2.trans ((wireTail_step _).trans (note_step _ _)), ?_, ?_, ?_, ?_, ?_⟩
  · simp [h3]
  · simp [h4]
  · simp [h5]
  · simp [h6]
  · simp [h7, evTail, evPulse]

/-- Everything a data read does from its wait field on, when the target ends the wait. -/
theorem finishWire_dataRead_done (v : Byte) (k : Nat) (s : State) (hd : s.pins.doe = false)
    (hl : s.answers (k + 9) = List.replicate k false ++ true :: byteBits v) (hk : k = 0 ∨ k < s.env.target.length) :
    ∃ t, finishWire .dataRead s = (true, t) ∧ WireStep s t ∧ t.env.target = s.env.target.drop (k + 9) ∧
      t.work.v = v ∧ t.pins = { s.pins with ck := true, irqm := false } ∧
      t.log.issued = .dr v :: s.log.issued ∧
      t.log.trace = (evSample (List.replicate k false ++ [true]) ++ evSample (byteBits v) ++ evTail).reverse ++
        s.log.trace := by
  have hl1 : s.answers (k + 1) = List.replicate k false ++ [true] := by
    rw [← answers_take s (k + 1) (k + 9) (by omega), hl, List.take_append]; simp
  obtain ⟨h1, h2, h3, h4, h5, h6, h7⟩ := waitHigh_done k s s.env.target.length hd hl1 hk (by omega)
  have hw : waitHigh s = (true, (repeatUntil waitTurn s.env.target.length s).2) := Prod.ext h1 rfl
  generalize repeatUntil waitTurn s.env.target.length s = r at *
  obtain ⟨g1, g2, g3, g4, g5, g6⟩ := responseTail_spec r.2 (by rw [h5]; exact hd)
  have ha : r.2.answers 8 = byteBits v := by
    rw [answers_drop s r.2 (k + 1) 8 h3 h2.targetRest, show k + 1 + 8 = k + 9 by omega, hl, List.drop_append]; simp
  rw [ha, byteOfBits_byteBits] at g3
  rw [ha] at g6
  generalize hq : responseTail r.2 = q at *
  refine ⟨noteValue .dr q, by simp only [finishWire, hw, hq], (h2.trans g1).trans (noteValue_step _ _),
    ?_, ?_, ?_, ?_, ?_⟩
  · simp [g2, h3]
  · simp [g3]
  · simp [g4, h5]
  · simp [g3, g5, h6]
  · simp [g6, h7]

/-- A data instruction from its wait field on, whether it ends or is held: what it may have changed. -/
theorem finishWire_frame (w : WireWait) (s : State) (hd : s.pins.doe = false) :
    WireStep s (finishWire w s).2 ∧
    (finishWire w s).2.pins =
      { s.pins with ck := true, irqm := if (finishWire w s).1 then false else s.pins.irqm } := by
  obtain ⟨h2, h4, h5, h6⟩ := repeatUntil_waitTurn_frame s.env.target.length s
  have hw : waitHigh s = repeatUntil waitTurn s.env.target.length s := rfl
  generalize repeatUntil waitTurn s.env.target.length s = r at *
  obtain ⟨b, q⟩ := r
  simp only at h2 h4 h5 h6
  cases b
  · simp only [finishWire, hw]
    exact ⟨h2, by simp [h5]⟩
  · cases w with
    | dataWrite d =>
      simp only [finishWire, hw]
      exact ⟨h2.trans ((wireTail_step _).trans (note_step _ _)), by simp [h5]⟩
    | dataRead =>
      obtain ⟨g1, g2, g3, g4, g5, g6⟩ := responseTail_spec q (by rw [h5]; exact hd)
      simp only [finishWire, hw]
      generalize responseTail q = u at *
      exact ⟨(h2.trans g1).trans (noteValue_step _ _), by simp [g4, h5]⟩

/-- Shifting in leaves everything alone that a two-wire instruction leaves alone, whoever drives the line. -/
theorem shiftIn_step (n : Nat) : ∀ s : State, WireStep s (shiftIn n s) := by
  induction n with
  | zero => exact WireStep.refl
  | succ n ih =>
    intro s
    exact ((pulseClock_step s).trans ((sampleToSr_step _).trans (nextBit_step _))).trans (ih _)

/-- The same for a data instruction from its wait field on. -/
theorem finishWire_step (w : WireWait) (s : State) : WireStep s (finishWire w s).2 := by
  obtain ⟨h, -⟩ := repeatUntil_waitTurn_frame s.env.target.length s
  have hw : waitHigh s = repeatUntil waitTurn s.env.target.length s := rfl
  generalize repeatUntil waitTurn s.env.target.length s = r at *
  obtain ⟨b, q⟩ := r
  simp only at h
  cases b
  · simp only [finishWire, hw]
    exact h
  · cases w with
    | dataWrite d =>
      simp only [finishWire, hw]
      exact h.trans ((wireTail_step _).trans (note_step _ _))
    | dataRead =>
      have g : WireStep q (responseTail q) := by
        have g1 := (loadSr_step 0#12 q).trans (shiftIn_step 8 _)
        rw [responseTail]
        generalize shiftIn 8 (loadSr 0#12 q) = u at *
        exact g1.trans (latchV_wireTail_spec u).1
      simp only [finishWire, hw]
      generalize responseTail q = u at *
      exact h.trans (g.trans (noteValue_step _ _))

/-- A wait field on a line held at 0 with no listed answer left holds the block in it (R264). -/
theorem finishWire_held (w : WireWait) (s : State) (hd : s.pins.doe = false) (ht : s.env.target = [])
    (hr : s.env.targetRest = .low) : finishWire w s = (false, sampled (pulseClock s)) := by
  simp only [finishWire, waitHigh_held s hd ht hr]

/-- Everything `dataWrite` does when the target ends the wait. -/
theorem dataWrite_done (d : Byte) (k : Nat) (s : State)
    (hl : s.answers (k + 1) = List.replicate k false ++ [true]) (hk : k = 0 ∨ k < s.env.target.length) :
    ∃ t, dataWrite d s = (true, t) ∧ WireStep s t ∧ t.env.target = s.env.target.drop (k + 1) ∧
      t.work.v = s.work.v ∧
      t.pins = { s.pins with ck := true, doe := false, dout := d.getLsbD 7, irqm := false } ∧
      t.log.issued = .dw d :: s.log.issued ∧
      t.log.trace = (evInstr ([true, false, false, false] ++ byteBits d) (List.replicate k false ++ [true]) []).reverse
        ++ s.log.trace := by
  obtain ⟨h1, h2, h3, h4, h5, h6⟩ := wireHead_spec (dataWriteWord d) 12 (by omega) (by omega) s
  have hb : (dataWriteWord d).getLsbD (12 - 1) = d.getLsbD 7 := by simp [dataWriteWord]
  rw [hb] at h4
  rw [dataWriteWord_bits] at h6
  unfold dataWrite
  generalize wireHead (dataWriteWord d) 12 s = q at *
  obtain ⟨t, g0, g1, g2, g3, g4, g5, g6⟩ := finishWire_dataWrite_done d k q (by rw [h4])
    (by rw [← hl]; simp [State.answers, h2]) (by rw [h2]; exact hk)
  refine ⟨t, g0, h1.trans g1, by rw [g2, h2], by rw [g3, h3], by simp [g4, h4], by rw [g5, h5], ?_⟩
  rw [g6, h6]; simp [evInstr, evSample]

/-- Everything `dataRead` does when the target ends the wait. -/
theorem dataRead_done (v : Byte) (k : Nat) (s : State)
    (hl : s.answers (k + 9) = List.replicate k false ++ true :: byteBits v) (hk : k = 0 ∨ k < s.env.target.length) :
    ∃ t, dataRead s = (true, t) ∧ WireStep s t ∧ t.env.target = s.env.target.drop (k + 9) ∧ t.work.v = v ∧
      t.pins = { s.pins with ck := true, doe := false, dout := false, irqm := false } ∧
      t.log.issued = .dr v :: s.log.issued ∧
      t.log.trace = (evInstr [false, false, false, false] (List.replicate k false ++ [true]) (byteBits v)).reverse
        ++ s.log.trace := by
  obtain ⟨h1, h2, h3, h4, h5, h6⟩ := wireHead_spec dataReadWord 4 (by omega) (by omega) s
  have hb : dataReadWord.getLsbD (4 - 1) = false := by decide
  rw [hb] at h4
  have hw : (List.range 4).map dataReadWord.getLsbD = [false, false, false, false] := by decide
  rw [hw] at h6
  unfold dataRead
  generalize wireHead dataReadWord 4 s = q at *
  obtain ⟨t, g0, g1, g2, g3, g4, g5, g6⟩ := finishWire_dataRead_done v k q (by rw [h4])
    (by rw [← hl]; simp [State.answers, h2]) (by rw [h2]; exact hk)
  refine ⟨t, g0, h1.trans g1, by rw [g2, h2], g3, by simp [g4, h4], by rw [g5, h5], ?_⟩
  rw [g6, h6]; simp [evInstr]

/-- A data write, whether it ends or is held in its wait field. -/
theorem dataWrite_frame (d : Byte) (s : State) :
    WireStep s (dataWrite d s).2 ∧
    (dataWrite d s).2.pins = { s.pins with
      ck := true, doe := false, dout := d.getLsbD 7, irqm := !(dataWrite d s).1 } := by
  obtain ⟨h1, h2, h3, h4, h5, h6⟩ := wireHead_spec (dataWriteWord d) 12 (by omega) (by omega) s
  have hb : (dataWriteWord d).getLsbD (12 - 1) = d.getLsbD 7 := by simp [dataWriteWord]
  rw [hb] at h4
  unfold dataWrite
  generalize wireHead (dataWriteWord d) 12 s = q at *
  obtain ⟨g1, g2⟩ := finishWire_frame (.dataWrite d) q (by rw [h4])
  generalize finishWire (.dataWrite d) q = r at *
  refine ⟨h1.trans g1, ?_⟩
  rw [g2, h4]
  cases r.1 <;> simp

/-- A data read, whether it ends or is held in its wait field. -/
theorem dataRead_frame (s : State) :
    WireStep s (dataRead s).2 ∧
    (dataRead s).2.pins = { s.pins with ck := true, doe := false, dout := false, irqm := !(dataRead s).1 } := by
  obtain ⟨h1, h2, h3, h4, h5, h6⟩ := wireHead_spec dataReadWord 4 (by omega) (by omega) s
  have hb : dataReadWord.getLsbD (4 - 1) = false := by decide
  rw [hb] at h4
  unfold dataRead
  generalize wireHead dataReadWord 4 s = q at *
  obtain ⟨g1, g2⟩ := finishWire_frame .dataRead q (by rw [h4])
  generalize finishWire .dataRead q = r at *
  refine ⟨h1.trans g1, ?_⟩
  rw [g2, h4]
  cases r.1 <;> simp

end Sys2Proof.Machine
end

