-- ==== Sys2Proof/Laws/Sequencer.lean ====
section
/-! SUPPORT. What the polls, the statements of the routines and the sequencer do, said once: their frames on every
path, and the state they end in when the surroundings let them finish. -/
namespace Sys2Proof.Machine

/-! ## Frames of the routine level -/

/-- What the statements of the routine level leave alone, the sequencer position among it. -/
structure RoutineStep (s t : State) : Prop extends RoutineFrame s t where
  seq : t.seq = s.seq

theorem RoutineStep.refl (s : State) : RoutineStep s s := { RoutineFrame.refl s with seq := rfl }

theorem RoutineStep.trans {s t u : State} (a : RoutineStep s t) (b : RoutineStep t u) : RoutineStep s u :=
  { a.toRoutineFrame.trans b.toRoutineFrame with seq := b.seq.trans a.seq }

theorem WireStep.toRoutine {s t : State} (a : WireStep s t) : RoutineStep s t :=
  { a.toRoutineFrame with seq := a.seq }

theorem KeepsFl.refl (s : State) : KeepsFl s s := ⟨rfl, fun _ => rfl⟩

theorem KeepsFl.trans {s t u : State} (a : KeepsFl s t) (b : KeepsFl t u) : KeepsFl s u :=
  ⟨b.1.trans a.1, fun i => (b.2 i).trans (a.2 i)⟩

/-- A state that differs only in pins other than `LED`, in the working registers but `ADDR`, `CKS`, `SUM`, `CNT`, in `FL`,
in `DEV_*`, in the target's listed answers and in the record. -/
theorem RoutineStep.of_eq {s t : State} (h1 : t.cfg = s.cfg) (h2 : t.frame = s.frame) (h3 : t.fb = s.fb)
    (h4 : t.pins.led = s.pins.led)
    (h5 : t.work = { s.work with
      sr := t.work.sr, bitn := t.work.bitn, v := t.work.v, idx := t.work.idx, res := t.work.res })
    (h6 : t.seq = s.seq) (h7 : t.env = { s.env with target := t.env.target }) (h8 : t.epoch = s.epoch) :
    RoutineStep s t :=
  { cfg := h1, frame := h2, fb := h3, led := h4, seq := h6, epoch := h8
    fbByte := fun a => by simp [State.fbByte, h3, h8]
    addr := by rw [h5], cks := by rw [h5], sum := by rw [h5], cnt := by rw [h5]
    rx := by rw [h7], tx := by rw [h7], txGate := by rw [h7], txGateRest := by rw [h7]
    targetRest := by rw [h7], resetIn := by rw [h7] }

/-- Setting `IDX` changes nothing else. -/
theorem setIdx_step (i : Nat) (s : State) : RoutineStep s (setIdx i s) ∧ KeepsFl s (setIdx i s) :=
  ⟨RoutineStep.of_eq rfl rfl rfl rfl rfl rfl rfl rfl, rfl, fun _ => rfl⟩

/-! ## Polls (R170, R171) -/

/-- A poll, whether its condition comes or not: what it may have changed. -/
theorem poll_frame (c : Byte → Bool) (fuel : Nat) : ∀ s : State,
    WireStep s (repeatUntil (pollTurn c) fuel s).2 ∧
    (repeatUntil (pollTurn c) fuel s).2.pins = { s.pins with ck := true, doe := false, dout := true, irqm := false } := by
  induction fuel with
  | zero =>
    intro s
    obtain ⟨h1, -, -, h4, -, -⟩ := addressRead_spec s
    exact ⟨h1, h4⟩
  | succ n ih =>
    intro s
    obtain ⟨h1, -, -, h4, -, -⟩ := addressRead_spec s
    simp only [repeatUntil, pollTurn]
    generalize addressRead s = q at *
    cases c q.work.v
    · simp only
      split
      · exact ⟨h1, h4⟩
      · obtain ⟨g1, g2⟩ := ih q
        exact ⟨h1.trans g1, by rw [g2, h4]⟩
    · exact ⟨h1, h4⟩

/-- The target answers one address read. -/
theorem answersTo_ar {v : Byte} {ds : List LineDrive} (h : AnswersTo (.ar v) ds) :
    ds.length = 8 ∧ ds.map LineDrive.level = byteBits v :=
  ⟨by simpa [byteBits] using congrArg List.length h, h⟩

/-- An address read against listed answers. -/
theorem addressRead_listed (s : State) (v : Byte) (ds rest : List LineDrive) (ht : s.env.target = ds ++ rest)
    (ha : AnswersTo (.ar v) ds) :
    WireStep s (addressRead s) ∧ (addressRead s).env.target = rest ∧ (addressRead s).work.v = v ∧
    (addressRead s).pins = { s.pins with ck := true, doe := false, dout := true, irqm := false } ∧
    (addressRead s).log.issued = .ar v :: s.log.issued ∧
    (addressRead s).log.trace = (evAr v).reverse ++ s.log.trace := by
  obtain ⟨hl, hb⟩ := answersTo_ar ha
  have h8 : s.answers 8 = byteBits v := by rw [← hl, answers_of_target s ds rest ht, hb]
  obtain ⟨h1, h2, h3, h4, h5, h6⟩ := addressRead_spec s
  rw [h8, byteOfBits_byteBits] at h3 h5
  rw [h8] at h6
  exact ⟨h1, by rw [h2, ht, ← hl, List.drop_left], h3, h4, h5, h6⟩

/-- An address read with no listed answer left. -/
theorem addressRead_unlisted (s : State) (v : Byte) (ht : s.env.target = [])
    (hv : byteOfBits (List.replicate 8 s.env.targetRest.level) = v) :
    WireStep s (addressRead s) ∧ (addressRead s).env = s.env ∧ (addressRead s).work.v = v ∧
    (addressRead s).pins = { s.pins with ck := true, doe := false, dout := true, irqm := false } ∧
    (addressRead s).log.issued = .ar v :: s.log.issued := by
  obtain ⟨h1, h2, h3, h4, h5, -⟩ := addressRead_spec s
  have h8 : s.answers 8 = List.replicate 8 s.env.targetRest.level := by
    apply List.ext_getElem
    · simp [State.answers]
    · intro i _ _
      simp [State.answers, ht]
  rw [h8, hv] at h3 h5
  refine ⟨h1, ?_, h3, h4, h5⟩
  have e1 := h1.rx
  have e2 := h1.tx
  have e3 := h1.txGate
  have e4 := h1.txGateRest
  have e5 := h1.targetRest
  have e6 := h1.resetIn
  rw [ht, List.drop_nil, ← ht] at h2
  generalize (addressRead s).env = x at *
  generalize s.env = y at *
  obtain ⟨a, b, c, d, e, f, g⟩ := x
  obtain ⟨a', b', c', d', e', f', g'⟩ := y
  simp only at e1 e2 e3 e4 e5 e6 h2
  subst e1 e2 e3 e4 e5 e6 h2
  rfl

/-- A poll that fails with no listed answer left waits at its beginning. -/
theorem poll_held (c : Byte → Bool) (s : State) (ht : s.env.target = [])
    (hv : c (byteOfBits (List.replicate 8 s.env.targetRest.level)) = false) :
    repeatUntil (pollTurn c) s.env.target.length s = (false, addressRead s) := by
  obtain ⟨-, -, h3, -, -⟩ := addressRead_unlisted s _ ht rfl
  rw [ht]
  simp only [List.length_nil, repeatUntil, pollTurn, h3, hv]

/-- The answers to a sequence split where the sequence does. -/
theorem answersAll_append (a b : List WireAccess) : ∀ ds,
    AnswersAll (a ++ b) ds ↔ ∃ d e, ds = d ++ e ∧ AnswersAll a d ∧ AnswersAll b e := by
  induction a with
  | nil => intro ds; simp [AnswersAll]
  | cons x xs ih =>
    intro ds
    simp only [List.cons_append, AnswersAll, ih]
    constructor
    · rintro ⟨d, e, rfl, hd, d', e', rfl, h1, h2⟩
      exact ⟨d ++ d', e', by simp, ⟨d, d', rfl, hd, h1⟩, h2⟩
    · rintro ⟨d, e, rfl, ⟨d', e', rfl, hd, h1⟩, h2⟩
      exact ⟨d', e' ++ e, by simp, hd, e', e, rfl, h1, h2⟩

theorem answersAll_single (a : WireAccess) (ds : List LineDrive) : AnswersAll [a] ds ↔ AnswersTo a ds := by
  simp [AnswersAll]

/-- Everything a poll does when the target's listed answers end it: reads that fail, then one that does not. -/
theorem poll_done (c : Byte → Bool) (v : Byte) (fails : List Byte) : ∀ (s : State) (ds rest : List LineDrive) (fuel : Nat),
    s.env.target = ds ++ rest → AnswersAll ((fails ++ [v]).map .ar) ds → (∀ f ∈ fails, c f = false) → c v = true →
    fails.length ≤ fuel →
    ∃ t, repeatUntil (pollTurn c) fuel s = (true, t) ∧ WireStep s t ∧ t.env.target = rest ∧ t.work.v = v ∧
      t.pins = { s.pins with ck := true, doe := false, dout := true, irqm := false } ∧
      t.log.issued = ((fails ++ [v]).map .ar).reverse ++ s.log.issued ∧
      t.log.trace = ((fails ++ [v]).flatMap evAr).reverse ++ s.log.trace := by
  induction fails with
  | nil =>
    intro s ds rest fuel ht ha _ hv _
    have ha' : AnswersTo (.ar v) ds := by simpa [AnswersAll] using ha
    obtain ⟨h1, h2, h3, h4, h5, h6⟩ := addressRead_listed s v ds rest ht ha'
    refine ⟨addressRead s, ?_, h1, h2, h3, h4, by simp [h5], by simp [h6]⟩
    cases fuel <;> simp [repeatUntil, pollTurn, h3, hv]
  | cons f fs ih =>
    intro s ds rest fuel ht ha hf hv hn
    obtain ⟨d, e, rfl, had, hae⟩ : ∃ d e, ds = d ++ e ∧ AnswersTo (.ar f) d ∧ AnswersAll ((fs ++ [v]).map .ar) e := ha
    obtain ⟨h1, h2, h3, h4, h5, h6⟩ := addressRead_listed s f d (e ++ rest) (by simp [ht]) had
    obtain ⟨n, rfl⟩ : ∃ n, fuel = n + 1 := ⟨fuel - 1, by simp at hn; omega⟩
    obtain ⟨t, g1, g2, g3, g4, g5, g6, g7⟩ := ih (addressRead s) e rest n h2 hae
      (fun x hx => hf x (List.mem_cons_of_mem _ hx)) hv (by simpa using hn)
    have he : e ≠ [] := by
      rintro rfl
      have : ∀ l : List Byte, l ≠ [] → ¬ AnswersAll (l.map .ar) [] := by
        intro l hl
        cases l with
        | nil => exact absurd rfl hl
        | cons x xs =>
          rintro ⟨d, e, hde, hx, -⟩
          have h0 : d = [] := (List.append_eq_nil_iff.1 hde.symm).1
          have := (answersTo_ar hx).1
          simp [h0] at this
      exact this (fs ++ [v]) (by simp) hae
    have hem : (addressRead s).env.target.isEmpty = false := by rw [h2]; simp [he]
    refine ⟨t, ?_, h1.trans g2, g3, g4, by rw [g5, h4], by rw [g6, h5]; simp,
      by rw [g7, h6]; simp⟩
    have hturn : pollTurn c s = (false, addressRead s) := by
      simp [pollTurn, h3, hf f (List.mem_cons_self ..)]
    simp only [repeatUntil, hturn, hem]
    exact g1

/-- The length of the listed answers bounds the reads of a poll. -/
theorem poll_fuel (l : List Byte) : ∀ ds, AnswersAll (l.map .ar) ds → l.length ≤ ds.length := by
  induction l with
  | nil => intro ds _; simp
  | cons x xs ih =>
    rintro _ ⟨d, e, rfl, hx, h⟩
    have h1 := (answersTo_ar hx).1
    have h2 := ih e h
    rw [List.length_append, List.length_cons]; omega

/-! ## Statements that run to their end -/

/-- The statements `ops` take `s` to `t` and end. -/
def RunsTo (ops : List FlashOp) (s t : State) : Prop := ∀ more, runFlash (ops ++ more) s = runFlash more t

theorem RunsTo.nil (s : State) : RunsTo [] s s := fun _ => rfl

theorem RunsTo.append {a b : List FlashOp} {s t u : State} (h : RunsTo a s t) (g : RunsTo b t u) :
    RunsTo (a ++ b) s u := fun more => by rw [List.append_assoc, h, g]

theorem RunsTo.cons {op : FlashOp} {b : List FlashOp} {s t u : State} (h : RunsTo [op] s t) (g : RunsTo b t u) :
    RunsTo (op :: b) s u := RunsTo.append h g

theorem RunsTo.of_done {op : FlashOp} {s t : State} (h : flashOp op s = .done t) : RunsTo [op] s t :=
  fun more => by simp [runFlash, h]

theorem RunsTo.done {ops : List FlashOp} {s t : State} (h : RunsTo ops s t) : runFlash ops s = ({}, t) := by
  have := h []
  rwa [List.append_nil] at this

/-- The two-wire instructions `l` have been issued, the target's listed answers `rest` are left, the lines are idle, and
nothing but what the two-wire level writes, and `IDX`, has changed. -/
structure Wires (l : List WireAccess) (rest : List LineDrive) (s t : State) : Prop where
  step : RoutineStep s t
  keeps : KeepsFl s t
  dev : t.dev = s.dev
  res : t.work.res = s.work.res
  target : t.env.target = rest
  issued : t.log.issued = l.reverse ++ s.log.issued
  idle : t.idlePins

theorem Wires.trans {a b : List WireAccess} {r1 r2 : List LineDrive} {s t u : State} (h : Wires a r1 s t)
    (g : Wires b r2 t u) : Wires (a ++ b) r2 s u where
  step := h.step.trans g.step
  keeps := h.keeps.trans g.keeps
  dev := g.dev.trans h.dev
  res := g.res.trans h.res
  target := g.target
  issued := by rw [g.issued, h.issued]; simp
  idle := g.idle

theorem Wires.refl (s : State) (h : s.idlePins) : Wires [] s.env.target s s :=
  ⟨.refl s, .refl s, rfl, rfl, rfl, rfl, h⟩

theorem WireStep.wires {s t : State} {l : List WireAccess} {rest : List LineDrive} (h : WireStep s t)
    (ht : t.env.target = rest) (hl : t.log.issued = l.reverse ++ s.log.issued) (hi : t.idlePins) :
    Wires l rest s t := ⟨h.toRoutine, h.keepsFl, h.dev, h.res, ht, hl, hi⟩

theorem addressWrite_runs (a : Byte) (s : State) :
    ∃ t, RunsTo [.addressWrite a] s t ∧ Wires [.aw a] s.env.target s t := by
  obtain ⟨h1, h2, -, h4, h5, -⟩ := addressWrite_spec a s
  exact ⟨_, .of_done rfl, h1.wires (by rw [h2]) (by rw [h5]; rfl) (by rw [State.idlePins, h4]; exact ⟨rfl, rfl, rfl⟩)⟩

/-- The target answers one data write. -/
theorem answersTo_dw {d : Byte} {ds rest : List LineDrive} {s : State} (h : AnswersTo (.dw d) ds)
    (ht : s.env.target = ds ++ rest) :
    ∃ k, ds.length = k + 1 ∧ s.answers (k + 1) = List.replicate k false ++ [true] ∧
      (k = 0 ∨ k < s.env.target.length) := by
  obtain ⟨k, hk⟩ := h
  have hl : ds.length = k + 1 := by simpa using congrArg List.length hk
  exact ⟨k, hl, by rw [← hl, answers_of_target s ds rest ht, hk], .inr (by rw [ht, List.length_append]; omega)⟩

/-- The target answers one data read. -/
theorem answersTo_dr {v : Byte} {ds rest : List LineDrive} {s : State} (h : AnswersTo (.dr v) ds)
    (ht : s.env.target = ds ++ rest) :
    ∃ k, ds.length = k + 9 ∧ s.answers (k + 9) = List.replicate k false ++ true :: byteBits v ∧
      (k = 0 ∨ k < s.env.target.length) := by
  obtain ⟨k, hk⟩ := h
  have hl : ds.length = k + 9 := by simpa [byteBits] using congrArg List.length hk
  exact ⟨k, hl, by rw [← hl, answers_of_target s ds rest ht, hk], .inr (by rw [ht, List.length_append]; omega)⟩

/-- A data write against listed answers. -/
theorem dataWrite_listed (d : Byte) (s : State) (ds rest : List LineDrive) (ht : s.env.target = ds ++ rest)
    (ha : AnswersTo (.dw d) ds) : ∃ t, dataWrite d s = (true, t) ∧ Wires [.dw d] rest s t := by
  obtain ⟨k, hl, hk, hf⟩ := answersTo_dw ha ht
  obtain ⟨t, h0, h1, h2, -, h4, h5, -⟩ := dataWrite_done d k s hk hf
  refine ⟨t, h0, h1.wires ?_ (by rw [h5]; rfl) (by rw [State.idlePins, h4]; exact ⟨rfl, rfl, rfl⟩)⟩
  rw [h2, ht, ← hl, List.drop_left]

theorem dataWrite_runs (d : Byte) (s : State) (ds rest : List LineDrive) (ht : s.env.target = ds ++ rest)
    (ha : AnswersTo (.dw d) ds) : ∃ t, RunsTo [.dataWrite d] s t ∧ Wires [.dw d] rest s t := by
  obtain ⟨t, h, w⟩ := dataWrite_listed d s ds rest ht ha
  exact ⟨t, .of_done (by simp only [flashOp, h]), w⟩

/-- The data write of a counted loop against listed answers; `IDX` is left at its index. -/
theorem dataWriteAt_listed (i : Nat) (d : Byte) (s : State) (ds rest : List LineDrive) (ht : s.env.target = ds ++ rest)
    (ha : AnswersTo (.dw d) ds) :
    ∃ t, dataWriteAt i d s = .done t ∧ Wires [.dw d] rest s t ∧ t.work.idx = BitVec.ofNat 9 i := by
  obtain ⟨hs, hk⟩ := setIdx_step i s
  obtain ⟨t, h, g⟩ := dataWrite_listed d (setIdx i s) ds rest ht ha
  have hi := (dataWrite_frame d (setIdx i s)).1.idx
  rw [h] at hi
  exact ⟨t, by simp only [dataWriteAt, h],
    ⟨hs.trans g.step, hk.trans g.keeps, g.dev, g.res, g.target, g.issued, g.idle⟩, hi⟩

theorem dataRead_runs (v : Byte) (s : State) (ds rest : List LineDrive) (ht : s.env.target = ds ++ rest)
    (ha : AnswersTo (.dr v) ds) : ∃ t, RunsTo [.dataRead] s t ∧ Wires [.dr v] rest s t ∧ t.work.v = v := by
  obtain ⟨k, hl, hk, hf⟩ := answersTo_dr ha ht
  obtain ⟨t, h0, h1, h2, h3, h4, h5, -⟩ := dataRead_done v k s hk hf
  refine ⟨t, .of_done (by simp only [flashOp, h0]), h1.wires ?_ (by rw [h5]; rfl)
    (by rw [State.idlePins, h4]; exact ⟨rfl, rfl, rfl⟩), h3⟩
  rw [h2, ht, ← hl, List.drop_left]

theorem poll_runs (op : FlashOp) (c : Byte → Bool)
    (hop : ∀ s, flashOp op s = match repeatUntil (pollTurn c) s.env.target.length s with
      | (true, q) => .done q | (false, q) => .again q)
    (v : Byte) (fails : List Byte) (s : State) (ds rest : List LineDrive) (ht : s.env.target = ds ++ rest)
    (ha : AnswersAll ((fails ++ [v]).map .ar) ds) (hf : ∀ f ∈ fails, c f = false) (hv : c v = true) :
    ∃ t, RunsTo [op] s t ∧ Wires ((fails ++ [v]).map .ar) rest s t := by
  have hn := poll_fuel _ _ ha
  obtain ⟨t, h0, h1, h2, -, h4, h5, -⟩ := poll_done c v fails s ds rest s.env.target.length ht ha hf hv
    (by rw [ht, List.length_append]; simp at hn; omega)
  exact ⟨t, .of_done (by rw [hop, h0]), h1.wires h2 h5 (by rw [State.idlePins, h4]; exact ⟨rfl, rfl, rfl⟩)⟩

theorem pollLow_runs (mask : Byte) (l : List WireAccess) (hl : PollLowRun mask l) (s : State)
    (ds rest : List LineDrive) (ht : s.env.target = ds ++ rest) (ha : AnswersAll l ds) :
    ∃ t, RunsTo [.pollBitLow mask] s t ∧ Wires l rest s t := by
  obtain ⟨fails, v, rfl, hf, hv⟩ := hl
  exact poll_runs _ (maskClear mask) (fun _ => rfl) v fails s ds rest ht ha (fun f hm => by simpa [maskClear] using hf f hm)
    (by simp [maskClear, hv])

theorem pollHigh_runs (mask : Byte) (l : List WireAccess) (hl : PollHighRun mask l) (s : State)
    (ds rest : List LineDrive) (ht : s.env.target = ds ++ rest) (ha : AnswersAll l ds) :
    ∃ t, RunsTo [.pollBitHigh mask] s t ∧ Wires l rest s t := by
  obtain ⟨fails, v, rfl, hf, hv⟩ := hl
  exact poll_runs _ (maskSet mask) (fun _ => rfl) v fails s ds rest ht ha (fun f hm => by simp [maskSet, hf f hm])
    (by simpa [maskSet] using hv)

/-! ## The steps of an exchange (R107) -/

/-- `W(x)` with a data write given by any statement that issues it. -/
theorem write_then_poll (p : Params) (x : Byte) (op : FlashOp) (l : List WireAccess) (hl : WriteStep p x l) (s : State)
    (ds rest : List LineDrive) (ht : s.env.target = ds ++ rest) (ha : AnswersAll l ds)
    (hop : ∀ d e, s.env.target = d ++ e → AnswersTo (.dw x) d → ∃ t, RunsTo [op] s t ∧ Wires [.dw x] e s t) :
    ∃ t, RunsTo [op, .pollBitLow p.busyMask] s t ∧ Wires l rest s t := by
  obtain ⟨polls, hp, rfl⟩ := hl
  obtain ⟨d, e, rfl, hd, he⟩ : ∃ d e, ds = d ++ e ∧ AnswersTo (.dw x) d ∧ AnswersAll polls e := ha
  obtain ⟨t, h1, w1⟩ := hop d (e ++ rest) (by simp [ht]) hd
  obtain ⟨u, h2, w2⟩ := pollLow_runs _ _ hp t e rest w1.target he
  exact ⟨u, RunsTo.cons h1 h2, w1.trans w2⟩

/-- `W(x)`: `fpi_write(x)` (R181). -/
theorem fpiWrite_runs (p : Params) (x : Byte) (l : List WireAccess) (hl : WriteStep p x l) (s : State)
    (ds rest : List LineDrive) (ht : s.env.target = ds ++ rest) (ha : AnswersAll l ds) :
    ∃ t, RunsTo (fpiWrite p x) s t ∧ Wires l rest s t :=
  write_then_poll p x _ l hl s ds rest ht ha fun d e h ha => dataWrite_runs x s d e h ha

/-- `A`, `A*` or `R` without what is done with the byte: ready poll, then `dataRead()` (R182, R185). -/
theorem fpiRead_runs (p : Params) (v : Byte) (l : List WireAccess) (hl : ReadStep p v l) (s : State)
    (ds rest : List LineDrive) (ht : s.env.target = ds ++ rest) (ha : AnswersAll l ds) :
    ∃ t, RunsTo (fpiRead p) s t ∧ Wires l rest s t ∧ t.work.v = v := by
  obtain ⟨polls, hp, rfl⟩ := hl
  obtain ⟨d, e, rfl, hd, he⟩ := (answersAll_append polls [.dr v] ds).1 ha
  obtain ⟨t, h1, w1⟩ := pollHigh_runs _ _ hp s d (e ++ rest) (by simp [ht]) hd
  obtain ⟨u, h2, w2, hv⟩ := dataRead_runs v t e rest w1.target ((answersAll_single _ _).1 he)
  exact ⟨u, RunsTo.cons h1 h2, w1.trans w2, hv⟩

/-- A run of `W`s. -/
theorem fpiWrites_runs (p : Params) (xs : List Byte) : ∀ (l : List WireAccess) (s : State) (ds rest : List LineDrive),
    WriteSteps p xs l → s.env.target = ds ++ rest → AnswersAll l ds → s.idlePins →
    ∃ t, RunsTo (xs.flatMap (fpiWrite p)) s t ∧ Wires l rest s t := by
  induction xs with
  | nil =>
    rintro l s ds rest rfl ht ha hi
    cases (show ds = [] from ha)
    exact ⟨s, .nil s, by simpa [ht] using Wires.refl s hi⟩
  | cons x xs ih =>
    rintro l s ds rest ⟨a, b, rfl, hx, hxs⟩ ht ha _
    obtain ⟨d, e, rfl, hd, he⟩ := (answersAll_append a b ds).1 ha
    obtain ⟨t, h1, w1⟩ := fpiWrite_runs p x a hx s d (e ++ rest) (by simp [ht]) hd
    obtain ⟨u, h2, w2⟩ := ih b t e rest hxs w1.target he w1.idle
    exact ⟨u, h1.append h2, w1.trans w2⟩

/-- A run of `R`s into `FL` (R185). -/
theorem fpiReads_runs (p : Params) (vs : List Byte) : ∀ (i : Nat) (l : List WireAccess) (s : State)
    (ds rest : List LineDrive), ReadSteps p vs l → s.env.target = ds ++ rest → AnswersAll l ds → s.idlePins →
    ∃ t, RunsTo ((List.range' i vs.length).flatMap fun i => fpiRead p ++ [.storeFl i]) s t ∧ RoutineStep s t ∧
      t.dev = s.dev ∧ t.work.res = s.work.res ∧ t.env.target = rest ∧ t.log.issued = l.reverse ++ s.log.issued ∧
      t.idlePins ∧
      ∀ a, t.flByte a = if h : i ≤ a ∧ a < i + vs.length then vs[a - i]'(by omega) else s.flByte a := by
  induction vs with
  | nil =>
    rintro i l s ds rest rfl ht ha hi
    cases (show ds = [] from ha)
    refine ⟨s, .nil s, .refl s, rfl, rfl, by simpa using ht, rfl, hi, fun a => ?_⟩
    rw [dif_neg (by simp)]
  | cons v vs ih =>
    rintro i l s ds rest ⟨a, b, rfl, hx, hxs⟩ ht ha _
    obtain ⟨d, e, rfl, hd, he⟩ := (answersAll_append a b ds).1 ha
    obtain ⟨t, h1, w1, hv⟩ := fpiRead_runs p v a hx s d (e ++ rest) (by simp [ht]) hd
    have hst : RoutineStep t (storeFlByte i t.work.v t) := RoutineStep.of_eq rfl rfl rfl rfl rfl rfl rfl rfl
    obtain ⟨u, h2, w2, w3, w4, w5, w6, w7, w8⟩ := ih (i + 1) b (storeFlByte i t.work.v t) e rest hxs w1.target he w1.idle
    refine ⟨u, ?_, (w1.step.trans hst).trans w2, w3.trans w1.dev, w4.trans w1.res, w5, ?_, w7, ?_⟩
    · rw [List.length_cons, List.range'_succ, List.flatMap_cons]
      exact (h1.append (.of_done rfl)).append h2
    · rw [w6]
      show _ ++ t.log.issued = _
      rw [w1.issued]; simp
    · intro x
      rw [w8, flByte_storeFlByte, hv]
      by_cases hxi : x = i
      · subst hxi; simp
      · by_cases hb : i + 1 ≤ x ∧ x < i + 1 + vs.length
        · have hc : i ≤ x ∧ x < i + (v :: vs).length := by simp; omega
          rw [dif_pos hb, dif_pos hc]
          have : x - i = (x - (i + 1)) + 1 := by omega
          simp [this]
        · have hc : ¬ (i ≤ x ∧ x < i + (v :: vs).length) := by simp; omega
          rw [dif_neg hb, dif_neg hc, if_neg hxi, w1.keeps.2]

/-- `fpi_open` up to its acknowledgment byte (R183). -/
theorem fpiOpen_runs (p : Params) (op ack : Byte) (l : List WireAccess) (hl : OpenRun p op ack l) (s : State)
    (ds rest : List LineDrive) (ht : s.env.target = ds ++ rest) (ha : AnswersAll l ds) :
    ∃ t, RunsTo (.addressWrite p.aFpdat :: (fpiWrite p op ++ fpiRead p)) s t ∧ Wires l rest s t ∧ t.work.v = ack := by
  obtain ⟨a, b, rfl, hw, hr⟩ := hl
  obtain ⟨d, e, rfl, rfl, he⟩ : ∃ d e, ds = d ++ e ∧ d = [] ∧ AnswersAll (a ++ b) e := ha
  obtain ⟨d, e, rfl, hd, he⟩ := (answersAll_append a b e).1 he
  obtain ⟨t, h1, w1⟩ := addressWrite_runs p.aFpdat s
  obtain ⟨u, h2, w2⟩ := fpiWrite_runs p op a hw t d (e ++ rest) (by rw [w1.target, ht]; simp) hd
  obtain ⟨x, h3, w3, hv⟩ := fpiRead_runs p ack b hr u e rest w2.target he
  exact ⟨x, RunsTo.cons h1 (h2.append h3), w1.trans (w2.trans w3), hv⟩

theorem fpiOpen_eq (p : Params) (op : Byte) (more : List FlashOp) :
    fpiOpen p op ++ more = (.addressWrite p.aFpdat :: (fpiWrite p op ++ fpiRead p)) ++ (.ackTest :: more) := by
  simp [fpiOpen, fpiAck]

/-- A good acknowledgment (R182). -/
theorem ackTest_ok (s : State) (h : s.work.v = Config.ackOk) :
    RunsTo [.ackTest] s (setRes .ok s) := by
  refine .of_done ?_
  show ackTest s = _
  simp [ackTest, isAck, h]

/-- A bad acknowledgment ends the routine (R188). -/
theorem ackTest_fail (s : State) (h : s.work.v ≠ Config.ackOk) (more : List FlashOp) :
    runFlash (.ackTest :: more) s = ({}, setRes .fail s) := by
  simp [runFlash, flashOp, ackTest, isAck, h]

/-- Either way, where the acknowledgment is the last statement. -/
theorem ackTest_last (s : State) :
    runFlash [.ackTest] s =
      ({}, setRes (if s.work.v = Config.ackOk then .ok else .fail) s) := by
  by_cases h : s.work.v = Config.ackOk
  · rw [(ackTest_ok s h).done]; simp [h]
  · rw [ackTest_fail s h]; simp [h]

/-- Setting `RES` changes nothing else. -/
theorem setRes_step (r : OpResult) (s : State) : RoutineStep s (setRes r s) ∧ KeepsFl s (setRes r s) :=
  ⟨RoutineStep.of_eq rfl rfl rfl rfl rfl rfl rfl rfl, rfl, fun _ => rfl⟩

/-- The first acknowledgment of any operation is good (R183). -/
theorem fpiOpen_ok (p : Params) (op : Byte) (l : List WireAccess) (hl : OpenRun p op Config.ackOk l) (s : State)
    (ds rest : List LineDrive) (ht : s.env.target = ds ++ rest) (ha : AnswersAll l ds) :
    ∃ t, (∀ more, runFlash (fpiOpen p op ++ more) s = runFlash more (setRes .ok t)) ∧
      Wires l rest s t := by
  obtain ⟨t, h, w, hv⟩ := fpiOpen_runs p op _ l hl s ds rest ht ha
  refine ⟨t, fun more => ?_, w⟩
  rw [fpiOpen_eq, h, ← List.singleton_append, ackTest_ok t hv]

/-- The first acknowledgment of any operation is bad (R188, R261). -/
theorem fpiOpen_fail (p : Params) (op ack : Byte) (hack : ack ≠ Config.ackOk) (l : List WireAccess)
    (hl : OpenRun p op ack l) (s : State) (ds rest : List LineDrive) (ht : s.env.target = ds ++ rest)
    (ha : AnswersAll l ds) :
    ∃ t, (∀ more, runFlash (fpiOpen p op ++ more) s = ({}, setRes .fail t)) ∧
      Wires l rest s t := by
  obtain ⟨t, h, w, hv⟩ := fpiOpen_runs p op _ l hl s ds rest ht ha
  refine ⟨t, fun more => ?_, w⟩
  rw [fpiOpen_eq, h, ackTest_fail t (by rw [hv]; exact hack)]

/-! ## Frames on every path -/

/-- The state a statement ends in or waits in. -/
def Progress.state (p : Progress) : State :=
  match p with
  | .done s => s
  | .again s => s
  | .inWire _ s => s
  | .failed s => s

/-- The lines at a place where the sequencer can rest: idle, but for an open critical section in a wait field. -/
def RestPins (held : Bool) (s : State) : Prop := s.pins.ck = true ∧ s.pins.doe = false ∧ s.pins.irqm = held

theorem RestPins.of_eq {q : State} {p : Pins} {held : Bool} (h : q.pins = p) (h1 : p.ck = true) (h2 : p.doe = false)
    (h3 : p.irqm = held) : RestPins held q := by subst h; exact ⟨h1, h2, h3⟩

/-- Is the block held inside a two-wire instruction? -/
def Progress.held (p : Progress) : Bool := match p with | .inWire _ _ => true | _ => false

/-- What the data write of a counted loop may change, whether it ends or is held. -/
theorem dataWriteAt_frame (i : Nat) (d : Byte) (s : State) :
    RoutineStep s (dataWriteAt i d s).state ∧ KeepsFl s (dataWriteAt i d s).state ∧
    (dataWriteAt i d s).state.dev = s.dev ∧ (dataWriteAt i d s).state.work.res = s.work.res ∧
    RestPins (dataWriteAt i d s).held (dataWriteAt i d s).state := by
  obtain ⟨h1, h2⟩ := dataWrite_frame d (setIdx i s)
  obtain ⟨hs, hk⟩ := setIdx_step i s
  simp only [dataWriteAt]
  generalize dataWrite d (setIdx i s) = r at *
  obtain ⟨b, q⟩ := r
  cases b <;> exact ⟨hs.trans h1.toRoutine, hk.trans h1.keepsFl, h1.dev, h1.res, .of_eq h2 rfl rfl rfl⟩

/-- What a statement of a routine may change, on every path. -/
theorem flashOp_frame (op : FlashOp) (s : State) :
    RoutineStep s (flashOp op s).state ∧
    (s.fl.wf = true → (flashOp op s).state.fl.wf = true) ∧
    ((∀ i, op ≠ .storeFl i) → KeepsFl s (flashOp op s).state) ∧
    (op ≠ .storeDevId → op ≠ .storeDevRev → (flashOp op s).state.dev = s.dev) ∧
    (s.idlePins → RestPins (flashOp op s).held (flashOp op s).state) := by
  have wire : ∀ {t : State}, WireStep s t → RoutineStep s t ∧ (s.fl.wf = true → t.fl.wf = true) ∧ KeepsFl s t ∧
      t.dev = s.dev := fun h => ⟨h.toRoutine, fun hw => by rw [h.fl]; exact hw, h.keepsFl, h.dev⟩
  have loop : ∀ i d, RoutineStep s (dataWriteAt i d s).state ∧
      (s.fl.wf = true → (dataWriteAt i d s).state.fl.wf = true) ∧ KeepsFl s (dataWriteAt i d s).state ∧
      (dataWriteAt i d s).state.dev = s.dev ∧ RestPins (dataWriteAt i d s).held (dataWriteAt i d s).state := by
    intro i d
    obtain ⟨h1, h2, h3, -, h5⟩ := dataWriteAt_frame i d s
    exact ⟨h1, fun hw => by rw [h2.1]; exact hw, h2, h3, h5⟩
  cases op with
  | clockHold =>
    exact ⟨RoutineStep.of_eq rfl rfl rfl rfl rfl rfl rfl rfl, id, fun _ => ⟨rfl, fun _ => rfl⟩, fun _ _ => rfl,
      fun h => ⟨rfl, h.2.1, h.2.2⟩⟩
  | delay t =>
    exact ⟨RoutineStep.of_eq rfl rfl rfl rfl rfl rfl rfl rfl, id, fun _ => ⟨rfl, fun _ => rfl⟩, fun _ _ => rfl,
      fun h => h⟩
  | addressWrite a =>
    obtain ⟨h1, -, -, h4, -, -⟩ := addressWrite_spec a s
    obtain ⟨w1, w2, w3, w4⟩ := wire h1
    refine ⟨w1, w2, fun _ => w3, fun _ _ => w4, fun _ => ?_⟩
    show RestPins false (addressWrite a s)
    rw [RestPins, h4]; exact ⟨rfl, rfl, rfl⟩
  | dataWrite d =>
    obtain ⟨h1, h2⟩ := dataWrite_frame d s
    simp only [flashOp]
    generalize dataWrite d s = r at *
    obtain ⟨w1, w2, w3, w4⟩ := wire h1
    obtain ⟨b, q⟩ := r
    cases b <;> exact ⟨w1, w2, fun _ => w3, fun _ _ => w4, fun _ => .of_eq h2 rfl rfl rfl⟩
  | dataWriteFl i =>
    obtain ⟨h1, h2, h3, h4, h5⟩ := loop i (s.flByte i)
    exact ⟨h1, h2, fun _ => h3, fun _ _ => h4, fun _ => h5⟩
  | dataWriteKey i =>
    obtain ⟨h1, h2, h3, h4, h5⟩ := loop i (Config.eraseKeyByte i)
    exact ⟨h1, h2, fun _ => h3, fun _ _ => h4, fun _ => h5⟩
  | dataRead =>
    obtain ⟨h1, h2⟩ := dataRead_frame s
    simp only [flashOp]
    generalize dataRead s = r at *
    obtain ⟨w1, w2, w3, w4⟩ := wire h1
    obtain ⟨b, q⟩ := r
    cases b <;> exact ⟨w1, w2, fun _ => w3, fun _ _ => w4, fun _ => .of_eq h2 rfl rfl rfl⟩
  | pollBitLow m =>
    obtain ⟨h1, h2⟩ := poll_frame (maskClear m) s.env.target.length s
    simp only [flashOp, pollBitLow]
    generalize repeatUntil (pollTurn (maskClear m)) s.env.target.length s = r at *
    obtain ⟨w1, w2, w3, w4⟩ := wire h1
    obtain ⟨b, q⟩ := r
    cases b <;> exact ⟨w1, w2, fun _ => w3, fun _ _ => w4, fun _ => .of_eq h2 rfl rfl rfl⟩
  | pollBitHigh m =>
    obtain ⟨h1, h2⟩ := poll_frame (maskSet m) s.env.target.length s
    simp only [flashOp, pollBitHigh]
    generalize repeatUntil (pollTurn (maskSet m)) s.env.target.length s = r at *
    obtain ⟨w1, w2, w3, w4⟩ := wire h1
    obtain ⟨b, q⟩ := r
    cases b <;> exact ⟨w1, w2, fun _ => w3, fun _ _ => w4, fun _ => .of_eq h2 rfl rfl rfl⟩
  | ackTest =>
    show RoutineStep s (ackTest s).state ∧ _
    simp only [flashOp, ackTest]
    split <;> exact ⟨(setRes_step _ s).1, id, fun _ => (setRes_step _ s).2, fun _ _ => rfl, fun h => h⟩
  | storeFl i =>
    exact ⟨RoutineStep.of_eq rfl rfl rfl rfl rfl rfl rfl rfl, Mem.wf_write _ _ _, fun h => absurd rfl (h i),
      fun _ _ => rfl, fun h => h⟩
  | storeDevId =>
    exact ⟨RoutineStep.of_eq rfl rfl rfl rfl rfl rfl rfl rfl, id, fun _ => ⟨rfl, fun _ => rfl⟩,
      fun h => absurd rfl h, fun h => h⟩
  | storeDevRev =>
    exact ⟨RoutineStep.of_eq rfl rfl rfl rfl rfl rfl rfl rfl, id, fun _ => ⟨rfl, fun _ => rfl⟩,
      fun _ h => absurd rfl h, fun h => h⟩

/-- What the statements of a routine may change, on every path; the sequencer rests below the Dispatcher. -/
theorem runFlash_frame (ops : List FlashOp) : ∀ s : State,
    RoutineStep s (runFlash ops s).2 ∧ (runFlash ops s).1.entry = none ∧ (runFlash ops s).1.cmd = [] ∧
    (s.fl.wf = true → (runFlash ops s).2.fl.wf = true) ∧
    ((∀ op ∈ ops, ∀ i, op ≠ .storeFl i) → KeepsFl s (runFlash ops s).2) ∧
    ((∀ op ∈ ops, op ≠ .storeDevId ∧ op ≠ .storeDevRev) → (runFlash ops s).2.dev = s.dev) ∧
    (s.idlePins → RestPins (runFlash ops s).1.wire.isSome (runFlash ops s).2) ∧
    (∀ op ∈ (runFlash ops s).1.flash, op ∈ ops) := by
  induction ops with
  | nil => intro s; exact ⟨.refl s, rfl, rfl, id, fun _ => .refl s, fun _ => rfl, fun h => h, by simp [runFlash]⟩
  | cons op rest ih =>
    intro s
    obtain ⟨h1, h2, h3, h4, h5⟩ := flashOp_frame op s
    simp only [runFlash]
    have stop : ∀ {q : State} {k : Seq}, (flashOp op s).state = q → k.entry = none → k.cmd = [] →
        (flashOp op s).held = k.wire.isSome → (∀ o ∈ k.flash, o ∈ op :: rest) →
        RoutineStep s q ∧ k.entry = none ∧ k.cmd = [] ∧ (s.fl.wf = true → q.fl.wf = true) ∧
        ((∀ o ∈ op :: rest, ∀ i, o ≠ .storeFl i) → KeepsFl s q) ∧
        ((∀ o ∈ op :: rest, o ≠ .storeDevId ∧ o ≠ .storeDevRev) → q.dev = s.dev) ∧
        (s.idlePins → RestPins k.wire.isSome q) ∧ ∀ o ∈ k.flash, o ∈ op :: rest := by
      rintro q k rfl he hc hw hm
      exact ⟨h1, he, hc, h2, fun h => h3 (h op (List.mem_cons_self ..)),
        fun h => h4 (h op (List.mem_cons_self ..)).1 (h op (List.mem_cons_self ..)).2, fun h => hw ▸ h5 h, hm⟩
    cases hf : flashOp op s with
    | done q =>
      rw [hf] at h1 h2 h3 h4 h5
      obtain ⟨g1, g2, g3, g4, g5, g6, g7, g8⟩ := ih q
      exact ⟨h1.trans g1, g2, g3, fun h => g4 (h2 h),
        fun h => (h3 (h op (List.mem_cons_self ..))).trans (g5 fun o ho => h o (List.mem_cons_of_mem _ ho)),
        fun h => (g6 fun o ho => h o (List.mem_cons_of_mem _ ho)).trans
          (h4 (h op (List.mem_cons_self ..)).1 (h op (List.mem_cons_self ..)).2),
        fun h => g7 (h5 h), fun o ho => List.mem_cons_of_mem _ (g8 o ho)⟩
    | again q => exact stop (by rw [hf]; rfl) rfl rfl (by rw [hf]; rfl) fun o ho => ho
    | inWire w q =>
      exact stop (by rw [hf]; rfl) rfl rfl (by rw [hf]; rfl) fun o ho => List.mem_cons_of_mem _ ho
    | failed q => exact stop (by rw [hf]; rfl) rfl rfl (by rw [hf]; rfl) (by simp)

/-- A statement that names no byte of `FL` and none of the key sequence. -/
def FlashOp.NoIdx (f : FlashOp) : Prop :=
  (∀ i, f ≠ .dataWriteFl i) ∧ (∀ i, f ≠ .dataWriteKey i) ∧ ∀ i, f ≠ .storeFl i

/-- Such a statement keeps `IDX`; one that compares no acknowledgment keeps `RES`. -/
theorem flashOp_work (op : FlashOp) (s : State) :
    (op.NoIdx → (flashOp op s).state.work.idx = s.work.idx) ∧
    (op ≠ .ackTest → (flashOp op s).state.work.res = s.work.res) := by
  have wire : ∀ {t : State}, WireStep s t → t.work.idx = s.work.idx ∧ t.work.res = s.work.res :=
    fun h => ⟨h.idx, h.res⟩
  cases op with
  | clockHold => exact ⟨fun _ => rfl, fun _ => rfl⟩
  | delay t => exact ⟨fun _ => rfl, fun _ => rfl⟩
  | addressWrite a =>
    obtain ⟨h1, -⟩ := addressWrite_spec a s
    exact ⟨fun _ => (wire h1).1, fun _ => (wire h1).2⟩
  | dataWrite d =>
    obtain ⟨h1, -⟩ := dataWrite_frame d s
    simp only [flashOp]
    generalize dataWrite d s = r at *
    obtain ⟨b, q⟩ := r
    cases b <;> exact ⟨fun _ => (wire h1).1, fun _ => (wire h1).2⟩
  | dataWriteFl i => exact ⟨fun h => absurd rfl (h.1 i), fun _ => (dataWriteAt_frame i _ s).2.2.2.1⟩
  | dataWriteKey i => exact ⟨fun h => absurd rfl (h.2.1 i), fun _ => (dataWriteAt_frame i _ s).2.2.2.1⟩
  | dataRead =>
    obtain ⟨h1, -⟩ := dataRead_frame s
    simp only [flashOp]
    generalize dataRead s = r at *
    obtain ⟨b, q⟩ := r
    cases b <;> exact ⟨fun _ => (wire h1).1, fun _ => (wire h1).2⟩
  | pollBitLow m =>
    obtain ⟨h1, -⟩ := poll_frame (maskClear m) s.env.target.length s
    simp only [flashOp, pollBitLow]
    generalize repeatUntil (pollTurn (maskClear m)) s.env.target.length s = r at *
    obtain ⟨b, q⟩ := r
    cases b <;> exact ⟨fun _ => (wire h1).1, fun _ => (wire h1).2⟩
  | pollBitHigh m =>
    obtain ⟨h1, -⟩ := poll_frame (maskSet m) s.env.target.length s
    simp only [flashOp, pollBitHigh]
    generalize repeatUntil (pollTurn (maskSet m)) s.env.target.length s = r at *
    obtain ⟨b, q⟩ := r
    cases b <;> exact ⟨fun _ => (wire h1).1, fun _ => (wire h1).2⟩
  | ackTest =>
    refine ⟨fun _ => ?_, fun h => absurd rfl h⟩
    simp only [flashOp, ackTest]
    split <;> rfl
  | storeFl i => exact ⟨fun h => absurd rfl (h.2.2 i), fun _ => rfl⟩
  | storeDevId => exact ⟨fun _ => rfl, fun _ => rfl⟩
  | storeDevRev => exact ⟨fun _ => rfl, fun _ => rfl⟩

/-- The same for the statements of a routine. -/
theorem runFlash_work (ops : List FlashOp) : ∀ s : State,
    ((∀ op ∈ ops, op.NoIdx) → (runFlash ops s).2.work.idx = s.work.idx) ∧
    ((∀ op ∈ ops, op ≠ .ackTest) → (runFlash ops s).2.work.res = s.work.res) := by
  induction ops with
  | nil => intro s; exact ⟨fun _ => rfl, fun _ => rfl⟩
  | cons op rest ih =>
    intro s
    obtain ⟨h1, h2⟩ := flashOp_work op s
    simp only [runFlash, List.forall_mem_cons]
    generalize flashOp op s = r at *
    cases r with
    | done q =>
      exact ⟨fun h => ((ih q).1 h.2).trans (h1 h.1), fun h => ((ih q).2 h.2).trans (h2 h.1)⟩
    | again q => exact ⟨fun h => h1 h.1, fun h => h2 h.1⟩
    | inWire w q => exact ⟨fun h => h1 h.1, fun h => h2 h.1⟩
    | failed q => exact ⟨fun h => h1 h.1, fun h => h2 h.1⟩

/-- What the statements of a Dispatcher branch leave alone, the sequencer position among it. -/
structure CommandStep (s t : State) : Prop extends CommandFrame s t where
  seq : t.seq = s.seq
  fs : t.frame.fs = s.frame.fs ∨ t.frame.fs = .awaitingAction
  addr : t.work.addr = s.work.addr
  cks : t.work.cks = s.work.cks
  sum : t.work.sum = s.work.sum
  cnt : t.work.cnt = s.work.cnt

theorem CommandStep.trans {s t u : State} (a : CommandStep s t) (b : CommandStep t u) : CommandStep s u where
  cfg := b.cfg.trans a.cfg
  fb := b.fb.trans a.fb
  fbByte i := (b.fbByte i).trans (a.fbByte i)
  action := b.action.trans a.action
  length := b.length.trans a.length
  rem := b.rem.trans a.rem
  cur := b.cur.trans a.cur
  rx := b.rx.trans a.rx
  txGateRest := b.txGateRest.trans a.txGateRest
  targetRest := b.targetRest.trans a.targetRest
  resetIn := b.resetIn.trans a.resetIn
  epoch := b.epoch.trans a.epoch
  seq := b.seq.trans a.seq
  fs := by rcases b.fs with h | h
           · rw [h]; exact a.fs
           · exact .inr h
  addr := b.addr.trans a.addr
  cks := b.cks.trans a.cks
  sum := b.sum.trans a.sum
  cnt := b.cnt.trans a.cnt

theorem RoutineStep.toCommand {s t : State} (h : RoutineStep s t) : CommandStep s t where
  cfg := h.cfg
  fb := h.fb
  fbByte := h.fbByte
  action := by rw [h.frame]
  length := by rw [h.frame]
  rem := by rw [h.frame]
  cur := by rw [h.frame]
  rx := h.rx
  txGateRest := h.txGateRest
  targetRest := h.targetRest
  resetIn := h.resetIn
  epoch := h.epoch
  seq := h.seq
  fs := .inl (by rw [h.frame])
  addr := h.addr
  cks := h.cks
  sum := h.sum
  cnt := h.cnt

theorem CommandStep.refl (s : State) : CommandStep s s := (RoutineStep.refl s).toCommand

/-- A transport that accepts in the end takes the byte (R239). -/
theorem txWrite_accepts (b : Byte) (s : State) (h : s.env.txGateRest = true) :
    ∃ g, txWrite b s = (true, transmit b g s) := by
  simp only [txWrite]
  cases s.env.txGate.dropWhile (!·) with
  | nil => exact ⟨[], by simp [h]⟩
  | cons x g => exact ⟨g, rfl⟩

/-- A transport that never accepts holds the block at the byte (U18). -/
theorem txWrite_declined (b : Byte) (s : State) (h : s.env.txGateRest = false) (hg : ∀ a ∈ s.env.txGate, a = false) :
    txWrite b s = (false, { s with env := { s.env with txGate := [] } }) := by
  have : s.env.txGate.dropWhile (!·) = [] := by
    rw [List.dropWhile_eq_nil_iff]
    intro a ha
    simp [hg a ha]
  simp [txWrite, this, h]

/-- Both paths of `tx_write`. -/
theorem txWrite_frame (b : Byte) (s : State) :
    CommandStep s (txWrite b s).2 ∧ KeepsFl s (txWrite b s).2 ∧ (txWrite b s).2.dev = s.dev ∧
    (txWrite b s).2.pins = s.pins := by
  have key : ∀ (x : List Byte) (g : List Bool) (tr : List Event),
      CommandStep s { s with env := { s.env with tx := x, txGate := g }, log := { s.log with trace := tr } } :=
    fun x g tr => { cfg := rfl, fb := rfl, fbByte := fun _ => rfl, action := rfl, length := rfl, rem := rfl, cur := rfl,
                    rx := rfl, txGateRest := rfl, targetRest := rfl, resetIn := rfl, epoch := rfl, seq := rfl,
                    fs := .inl rfl, addr := rfl, cks := rfl, sum := rfl, cnt := rfl }
  simp only [txWrite]
  split
  · exact ⟨key _ _ _, ⟨rfl, fun _ => rfl⟩, rfl, rfl⟩
  · split
    · exact ⟨key _ _ _, ⟨rfl, fun _ => rfl⟩, rfl, rfl⟩
    · exact ⟨key s.env.tx [] s.log.trace, ⟨rfl, fun _ => rfl⟩, rfl, rfl⟩

/-- What a statement of a Dispatcher branch other than a call may change. -/
theorem cmdOp_frame (op : CmdOp) (s : State) :
    CommandStep s (cmdOp op s).2 ∧ KeepsFl s (cmdOp op s).2 ∧ (cmdOp op s).2.dev = s.dev ∧
    ((cmdOp op s).2.pins = { s.pins with led := (cmdOp op s).2.pins.led }) ∧
    ((∀ b, op ≠ .led b) → (cmdOp op s).2.pins.led = s.pins.led) := by
  have tx : ∀ (b : Byte) (q : State), CommandStep s q → KeepsFl s q → q.dev = s.dev → q.pins = s.pins →
      CommandStep s (txWrite b q).2 ∧ KeepsFl s (txWrite b q).2 ∧ (txWrite b q).2.dev = s.dev ∧
      ((txWrite b q).2.pins = { s.pins with led := (txWrite b q).2.pins.led }) ∧
      ((∀ b, op ≠ .led b) → (txWrite b q).2.pins.led = s.pins.led) := by
    intro b q h1 h2 h3 h4
    obtain ⟨g1, g2, g3, g4⟩ := txWrite_frame b q
    exact ⟨h1.trans g1, h2.trans g2, g3.trans h3, by rw [g4, h4], fun _ => by rw [g4, h4]⟩
  cases op with
  | call body => exact ⟨.refl s, .refl s, rfl, rfl, fun _ => rfl⟩
  | tx b => exact tx b s (.refl s) (.refl s) rfl rfl
  | txFl i =>
    exact tx _ _ (setIdx_step i s).1.toCommand (setIdx_step i s).2 rfl rfl
  | txDevId => exact tx _ s (.refl s) (.refl s) rfl rfl
  | txDevRev => exact tx _ s (.refl s) (.refl s) rfl rfl
  | led b =>
    exact ⟨{ CommandStep.refl s with }, ⟨rfl, fun _ => rfl⟩, rfl, rfl, fun h => absurd rfl (h b)⟩
  | frameReset =>
    exact ⟨{ CommandStep.refl s with fs := .inr rfl }, ⟨rfl, fun _ => rfl⟩, rfl, rfl, fun _ => rfl⟩

/-- The routine statements inside a statement of a Dispatcher branch. -/
def CmdOp.body (op : CmdOp) : List FlashOp := match op with | .call body => body | _ => []

/-- What the statements of a Dispatcher branch may change, on every path. -/
theorem runCmd_frame (ops : List CmdOp) : ∀ s : State,
    CommandStep s (runCmd ops s).2 ∧ (runCmd ops s).1.entry = none ∧
    (s.fl.wf = true → (runCmd ops s).2.fl.wf = true) ∧
    ((∀ op ∈ ops, ∀ f ∈ op.body, ∀ i, f ≠ .storeFl i) → KeepsFl s (runCmd ops s).2) ∧
    ((∀ op ∈ ops, ∀ f ∈ op.body, f ≠ .storeDevId ∧ f ≠ .storeDevRev) → (runCmd ops s).2.dev = s.dev) ∧
    ((∀ op ∈ ops, ∀ b, op ≠ .led b) → (runCmd ops s).2.pins.led = s.pins.led) ∧
    (s.idlePins → RestPins (runCmd ops s).1.wire.isSome (runCmd ops s).2) := by
  induction ops with
  | nil => intro s; exact ⟨.refl s, rfl, id, fun _ => .refl s, fun _ => rfl, fun _ => rfl, fun h => h⟩
  | cons op rest ih =>
    intro s
    have plain : ∀ r : Bool × State, (CommandStep s r.2 ∧ KeepsFl s r.2 ∧ r.2.dev = s.dev ∧
          (r.2.pins = { s.pins with led := r.2.pins.led }) ∧ ((∀ b, op ≠ .led b) → r.2.pins.led = s.pins.led)) →
        ∀ x : Seq × State, x = (match r with | (true, q) => runCmd rest q | (false, q) => ({ cmd := op :: rest }, q)) →
        CommandStep s x.2 ∧ x.1.entry = none ∧ (s.fl.wf = true → x.2.fl.wf = true) ∧
        ((∀ o ∈ op :: rest, ∀ f ∈ o.body, ∀ i, f ≠ .storeFl i) → KeepsFl s x.2) ∧
        ((∀ o ∈ op :: rest, ∀ f ∈ o.body, f ≠ .storeDevId ∧ f ≠ .storeDevRev) → x.2.dev = s.dev) ∧
        ((∀ o ∈ op :: rest, ∀ b, o ≠ .led b) → x.2.pins.led = s.pins.led) ∧
        (s.idlePins → RestPins x.1.wire.isSome x.2) := by
      rintro ⟨b, q⟩ ⟨h1, h2, h3, h4, h5⟩ x rfl
      simp only at h1 h2 h3 h4 h5
      have hi : s.idlePins → q.idlePins := fun h => by rw [State.idlePins, h4]; exact h
      cases b
      · exact ⟨h1, rfl, fun h => by rw [h2.1]; exact h, fun _ => h2, fun _ => h3,
          fun h => h5 (h op (List.mem_cons_self ..)), hi⟩
      · obtain ⟨g1, g2, g3, g4, g5, g6, g7⟩ := ih q
        exact ⟨h1.trans g1, g2, fun h => g3 (by rw [h2.1]; exact h),
          fun h => h2.trans (g4 fun o ho => h o (List.mem_cons_of_mem _ ho)),
          fun h => (g5 fun o ho => h o (List.mem_cons_of_mem _ ho)).trans h3,
          fun h => (g6 fun o ho => h o (List.mem_cons_of_mem _ ho)).trans (h5 (h op (List.mem_cons_self ..))),
          fun h => g7 (hi h)⟩
    cases op with
    | call body =>
      obtain ⟨f1, f2, f3, f4, f5, f6, f7, -⟩ := runFlash_frame body s
      simp only [runCmd]
      generalize hr : runFlash body s = r at *
      obtain ⟨k, q⟩ := r
      simp only at f1 f2 f3 f4 f5 f6 f7
      by_cases hk : k.idle = true
      · simp only [hk, if_true]
        have hw : k.wire.isSome = false := by
          simp only [Seq.idle, Bool.and_eq_true] at hk
          simpa using hk.1.1.2
        obtain ⟨g1, g2, g3, g4, g5, g6, g7⟩ := ih q
        refine ⟨f1.toCommand.trans g1, g2, fun h => g3 (f4 h), ?_, ?_, ?_, ?_⟩
        · exact fun h => (f5 (h _ (List.mem_cons_self ..))).trans (g4 fun o ho => h o (List.mem_cons_of_mem _ ho))
        · exact fun h => (g5 fun o ho => h o (List.mem_cons_of_mem _ ho)).trans (f6 (h _ (List.mem_cons_self ..)))
        · exact fun h => (g6 fun o ho => h o (List.mem_cons_of_mem _ ho)).trans f1.led
        · intro h
          have := f7 h
          rw [hw] at this
          exact g7 this
      · simp only [Bool.not_eq_true] at hk
        simp only [hk, Bool.false_eq_true, if_false]
        exact ⟨f1.toCommand, f2, f4, fun h => f5 (h _ (List.mem_cons_self ..)),
          fun h => f6 (h _ (List.mem_cons_self ..)), fun _ => f1.led, f7⟩
    | tx b => exact plain _ (cmdOp_frame (.tx b) s) _ rfl
    | txFl i => exact plain _ (cmdOp_frame (.txFl i) s) _ rfl
    | txDevId => exact plain _ (cmdOp_frame .txDevId s) _ rfl
    | txDevRev => exact plain _ (cmdOp_frame .txDevRev s) _ rfl
    | led b => exact plain _ (cmdOp_frame (.led b) s) _ rfl
    | frameReset => exact plain _ (cmdOp_frame .frameReset s) _ rfl

/-! ## Responses that go out -/

/-- The bytes `bs` have gone to the byte stream, and nothing else but `IDX` and the transport's answers has changed. -/
structure Sends (bs : List Byte) (s t : State) : Prop where
  step : CommandStep s t
  keeps : KeepsFl s t
  frame : t.frame = s.frame
  dev : t.dev = s.dev
  pins : t.pins = s.pins
  work : t.work = { s.work with idx := t.work.idx }
  target : t.env.target = s.env.target
  tx : t.env.tx = s.env.tx ++ bs
  issued : t.log.issued = s.log.issued
  trace : t.log.trace = (bs.map .tx).reverse ++ s.log.trace

theorem Sends.refl (s : State) : Sends [] s s :=
  ⟨.refl s, .refl s, rfl, rfl, rfl, rfl, rfl, by simp, rfl, rfl⟩

theorem Sends.trans {a b : List Byte} {s t u : State} (h : Sends a s t) (g : Sends b t u) : Sends (a ++ b) s u where
  step := h.step.trans g.step
  keeps := h.keeps.trans g.keeps
  frame := g.frame.trans h.frame
  dev := g.dev.trans h.dev
  pins := g.pins.trans h.pins
  work := by rw [g.work, h.work]
  target := g.target.trans h.target
  tx := by rw [g.tx, h.tx, List.append_assoc]
  issued := g.issued.trans h.issued
  trace := by rw [g.trace, h.trace]; simp

/-- One accepted byte. -/
theorem transmit_sends (b : Byte) (g : List Bool) (s : State) : Sends [b] s (transmit b g s) where
  step := { CommandStep.refl s with }
  keeps := ⟨rfl, fun _ => rfl⟩
  frame := rfl
  dev := rfl
  pins := rfl
  work := rfl
  target := rfl
  tx := rfl
  issued := rfl
  trace := rfl

/-- Setting `IDX` sends nothing. -/
theorem setIdx_sends (i : Nat) (s : State) : Sends [] s (setIdx i s) where
  step := (setIdx_step i s).1.toCommand
  keeps := (setIdx_step i s).2
  frame := rfl
  dev := rfl
  pins := rfl
  work := rfl
  target := rfl
  tx := by simp
  issued := rfl
  trace := rfl

/-- One byte to a transport that accepts. -/
theorem runCmd_tx (b : Byte) (rest : List CmdOp) (s : State) (h : s.env.txGateRest = true) :
    ∃ t, runCmd (.tx b :: rest) s = runCmd rest t ∧ Sends [b] s t ∧ t.work = s.work := by
  obtain ⟨g, hg⟩ := txWrite_accepts b s h
  exact ⟨_, by simp only [runCmd, cmdOp, hg], transmit_sends b g s, rfl⟩

/-- `DEV_ID`, then `DEV_REV`, to a transport that accepts. -/
theorem runCmd_txDev (rest : List CmdOp) (s : State) (h : s.env.txGateRest = true) :
    ∃ t, runCmd (.txDevId :: .txDevRev :: rest) s = runCmd rest t ∧ Sends [s.dev.id, s.dev.revision] s t ∧
      t.work = s.work := by
  obtain ⟨g, hg⟩ := txWrite_accepts s.dev.id s h
  obtain ⟨g', hg'⟩ := txWrite_accepts s.dev.revision (transmit s.dev.id g s) h
  refine ⟨_, ?_, (transmit_sends s.dev.id g s).trans (transmit_sends s.dev.revision g' _), rfl⟩
  simp only [runCmd, cmdOp, hg, transmit_dev, hg']

/-- Bytes of `FL` to a transport that accepts (R236). -/
theorem runCmd_txFl (n : Nat) (rest : List CmdOp) : ∀ (i : Nat) (s : State), s.env.txGateRest = true →
    ∃ t, runCmd ((List.range' i n).map .txFl ++ rest) s = runCmd rest t ∧
      Sends ((List.range' i n).map s.flByte) s t := by
  induction n with
  | zero => intro i s _; exact ⟨s, rfl, .refl s⟩
  | succ n ih =>
    intro i s h
    obtain ⟨g, hg⟩ := txWrite_accepts (s.flByte i) (setIdx i s) h
    have h1 : Sends [s.flByte i] s (transmit (s.flByte i) g (setIdx i s)) :=
      (setIdx_sends i s).trans (transmit_sends _ g _)
    obtain ⟨t, ht, hs⟩ := ih (i + 1) (transmit (s.flByte i) g (setIdx i s)) h
    refine ⟨t, ?_, ?_⟩
    · rw [List.range'_succ, List.map_cons, List.cons_append]
      simp only [runCmd, cmdOp, hg]
      exact ht
    · rw [List.range'_succ, List.map_cons]
      exact h1.trans hs

/-- The end of a branch. -/
theorem runCmd_nil (s : State) : runCmd [] s = ({}, s) := rfl

/-- `frame_reset()` in a branch. -/
theorem runCmd_frameReset (rest : List CmdOp) (s : State) :
    runCmd (.frameReset :: rest) s = runCmd rest (frameReset s) := rfl

/-- The indicator in a branch. -/
theorem runCmd_led (b : Bool) (rest : List CmdOp) (s : State) :
    runCmd (.led b :: rest) s = runCmd rest (setLed b s) := rfl

/-- A call of which nothing remains. -/
theorem runCmd_call_nil (rest : List CmdOp) (s : State) : runCmd (.call [] :: rest) s = runCmd rest s := rfl

/-- A byte that the transport does not accept. -/
theorem runCmd_tx_declined (b : Byte) (rest : List CmdOp) (s : State) (h : s.env.txGateRest = false)
    (hg : ∀ a ∈ s.env.txGate, a = false) :
    runCmd (.tx b :: rest) s = ({ cmd := .tx b :: rest }, { s with env := { s.env with txGate := [] } }) := by
  simp only [runCmd, cmdOp, txWrite_declined b s h hg]

/-- A routine that returns lets its caller go on. -/
theorem runCmd_call (body : List FlashOp) (rest : List CmdOp) (s t : State) (h : runFlash body s = ({}, t)) :
    runCmd (.call body :: rest) s = runCmd rest t := by
  simp only [runCmd, h]; rfl

/-- What remains of nothing is what the caller had. -/
theorem Seq.push_empty (k : Seq) : ({} : Seq).push k = k := by
  simp [Seq.push]

/-- An instruction that has run to its end. -/
theorem settle_done (t : State) : settle ({}, t) = .next t := by
  simp [settle, Seq.push_empty]

end Sys2Proof.Machine
end

