-- ==== Sys2Proof/Laws/Flash.lean ====
section
/-! SUPPORT. What the three flash operations do, said once: the whole exchange, and the operation that ends at its first
acknowledgment. -/
namespace Sys2Proof.Machine

/-- The instructions `l` have been issued by a routine that has returned, with the lines idle. -/
structure Traffic (l : List WireAccess) (rest : List LineDrive) (s t : State) : Prop where
  step : RoutineStep s t
  dev : t.dev = s.dev
  target : t.env.target = rest
  issued : t.log.issued = l.reverse ++ s.log.issued
  idle : t.idlePins

theorem Wires.traffic {l : List WireAccess} {rest : List LineDrive} {s t : State} (h : Wires l rest s t) :
    Traffic l rest s t := ⟨h.step, h.dev, h.target, h.issued, h.idle⟩

theorem Traffic.trans {a b : List WireAccess} {r1 r2 : List LineDrive} {s t u : State} (h : Traffic a r1 s t)
    (g : Traffic b r2 t u) : Traffic (a ++ b) r2 s u where
  step := h.step.trans g.step
  dev := g.dev.trans h.dev
  target := g.target
  issued := by rw [g.issued, h.issued]; simp
  idle := g.idle

/-- Setting `RES` at the end of what has been issued. -/
theorem Traffic.setRes {l : List WireAccess} {rest : List LineDrive} {s t : State} (h : Traffic l rest s t)
    (r : OpResult) : Traffic l rest s (setRes r t) :=
  ⟨h.step.trans (setRes_step r t).1, h.dev, h.target, h.issued, h.idle⟩

/-- The common head names no byte of `FL` and none of the key. -/
theorem fpiOpen_noIdx (p : Params) (op : Byte) :
    ∀ o ∈ fpiOpen p op, o.NoIdx := by
  intro o h
  simp only [fpiOpen, fpiWrite, fpiAck, fpiRead, List.cons_append, List.nil_append, List.mem_cons,
    List.not_mem_nil, or_false] at h
  rcases h with rfl | rfl | rfl | rfl | rfl | rfl <;> simp [FlashOp.NoIdx]

/-- Nor does an acknowledgment. -/
theorem fpiAck_noIdx (p : Params) : ∀ o ∈ fpiAck p, o.NoIdx := by
  intro o h
  simp only [fpiAck, fpiRead, List.cons_append, List.nil_append, List.mem_cons, List.not_mem_nil, or_false] at h
  rcases h with rfl | rfl | rfl <;> simp [FlashOp.NoIdx]

/-- Statements that run to their end and name no byte keep `IDX`. -/
theorem RunsTo.idx {ops : List FlashOp} {s t : State} (h : RunsTo ops s t) (hn : ∀ o ∈ ops, o.NoIdx) :
    t.work.idx = s.work.idx := by
  have := (runFlash_work ops s).1 hn
  rwa [h.done] at this

/-- A counted loop of `W`s, over `FL` or over the key sequence (R184, R186): `x` gives the bytes, which stay the same
while `FL` does, and `IDX` is left at the last index. -/
theorem indexedWrites_runs (p : Params) (s0 : State) (op : Nat → FlashOp) (x : Nat → Byte)
    (hop : ∀ s i, KeepsFl s0 s → flashOp (op i) s = dataWriteAt i (x i) s) (n : Nat) :
    ∀ (i : Nat) (l : List WireAccess) (s : State) (ds rest : List LineDrive), KeepsFl s0 s →
    WriteSteps p ((List.range' i n).map x) l → s.env.target = ds ++ rest → AnswersAll l ds → s.idlePins →
    ∃ t, RunsTo ((List.range' i n).flatMap fun i => [op i, .pollBitLow p.busyMask]) s t ∧ Wires l rest s t ∧
      t.work.idx = if n = 0 then s.work.idx else BitVec.ofNat 9 (i + n - 1) := by
  induction n with
  | zero =>
    rintro i l s ds rest - rfl ht ha hi
    cases (show ds = [] from ha)
    exact ⟨s, .nil s, by simpa [ht] using Wires.refl s hi, rfl⟩
  | succ n ih =>
    intro i l s ds rest hk hl ht ha _
    rw [List.range'_succ, List.map_cons] at hl
    obtain ⟨a, b, rfl, ⟨polls, hp, rfl⟩, hxs⟩ := hl
    obtain ⟨d, e, rfl, hd, he⟩ : ∃ d e, ds = d ++ e ∧ AnswersTo (.dw (x i)) d ∧ AnswersAll (polls ++ b) e := ha
    obtain ⟨e1, e2, rfl, he1, he2⟩ := (answersAll_append polls b e).1 he
    obtain ⟨t, h1, w1, i1⟩ := dataWriteAt_listed i (x i) s d (e1 ++ (e2 ++ rest)) (by simp [ht]) hd
    obtain ⟨u, h2, w2⟩ := pollLow_runs _ _ hp t e1 (e2 ++ rest) w1.target he1
    have i2 := h2.idx (by simp [FlashOp.NoIdx])
    obtain ⟨v, h3, w3, i3⟩ := ih (i + 1) b u e2 rest (hk.trans (w1.keeps.trans w2.keeps)) hxs w2.target he2 w2.idle
    refine ⟨v, ?_, w1.trans (w2.trans w3), ?_⟩
    · rw [List.range'_succ, List.flatMap_cons]
      exact (RunsTo.cons (.of_done (by rw [hop s i hk, h1])) h2).append h3
    · rw [i3, i2, i1]
      by_cases hn : n = 0
      · simp [hn]
      · rw [if_neg hn, if_neg (Nat.succ_ne_zero n)]; congr 1; omega

/-- A routine whose first acknowledgment is bad: nothing further is issued (R183, R188). -/
theorem opened_fail (p : Params) (op ack : Byte) (hack : ack ≠ Config.ackOk) (l : List WireAccess)
    (hl : OpenRun p op ack l) (s : State) (ds rest : List LineDrive) (ht : s.env.target = ds ++ rest)
    (ha : AnswersAll l ds) (more : List FlashOp) :
    ∃ t, runFlash (fpiOpen p op ++ more) s = ({}, t) ∧ Traffic l rest s t ∧ KeepsFl s t ∧ t.work.res = .fail ∧
      t.work.idx = s.work.idx := by
  obtain ⟨t, h, w⟩ := fpiOpen_fail p op ack hack l hl s ds rest ht ha
  refine ⟨setRes .fail t, h more, w.traffic.setRes _, w.keeps.trans (setRes_step _ t).2, rfl, ?_⟩
  have h0 := (runFlash_work (fpiOpen p op ++ []) s).1 (by rw [List.append_nil]; exact fpiOpen_noIdx p op)
  rwa [h []] at h0

/-- The last acknowledgment of a routine (R182). -/
theorem fpiAck_done (p : Params) (ack : Byte) (l : List WireAccess) (hl : ReadStep p ack l) (s : State)
    (ds rest : List LineDrive) (ht : s.env.target = ds ++ rest) (ha : AnswersAll l ds) :
    ∃ t, runFlash (fpiAck p) s = ({}, t) ∧ Traffic l rest s t ∧ KeepsFl s t ∧
      t.work.res = if ack = Config.ackOk then .ok else .fail := by
  obtain ⟨t, h, w, hv⟩ := fpiRead_runs p ack l hl s ds rest ht ha
  refine ⟨setRes (if t.work.v = Config.ackOk then .ok else .fail) t, ?_, w.traffic.setRes _,
    w.keeps.trans (setRes_step _ t).2, by rw [hv]; rfl⟩
  rw [fpiAck, h, ackTest_last]

/-- Everything `eraseDevice()` does after a good first acknowledgment (R184); `IDX` is left at the last key byte. -/
theorem eraseDevice_done (p : Params) (ack : Byte) (l : List WireAccess) (hl : EraseRun p ack l) (s : State)
    (ds rest : List LineDrive) (ht : s.env.target = ds ++ rest) (ha : AnswersAll l ds) :
    ∃ t, runFlash (eraseDevice p) s = ({}, t) ∧ Traffic l rest s t ∧ KeepsFl s t ∧
      (t.work.res = if ack = Config.ackOk then .ok else .fail) ∧ t.work.idx = 2 := by
  obtain ⟨a, b, c, rfl, h1, h2, h3⟩ := hl
  obtain ⟨d, e, rfl, hd, he⟩ := (answersAll_append a (b ++ c) ds).1 ha
  obtain ⟨e1, e2, rfl, he1, he2⟩ := (answersAll_append b c e).1 he
  obtain ⟨t, r1, w1⟩ := fpiOpen_ok p _ a h1 s d ((e1 ++ e2) ++ rest) (by simp [ht]) hd
  obtain ⟨u, r2, w2, i2⟩ := indexedWrites_runs p (setRes .ok t) .dataWriteKey Config.eraseKeyByte (fun _ _ _ => rfl) 3 0 b
    (setRes .ok t) e1 (e2 ++ rest) (.refl _) h2 (by rw [setRes_env, w1.target]; simp) he1 w1.idle
  obtain ⟨x, r3, w3, k3, hx⟩ := fpiAck_done p ack c h3 u e2 rest w2.target he2
  refine ⟨x, by rw [eraseDevice, r1]; exact (r2 _).trans r3, (w1.traffic.setRes .ok).trans (w2.traffic.trans w3),
    (w1.keeps.trans (setRes_step _ t).2).trans (w2.keeps.trans k3), hx, ?_⟩
  have h0 := (runFlash_work (fpiAck p) u).1 (fpiAck_noIdx p)
  rw [r3] at h0
  rw [h0, i2]; rfl

/-- Everything `readFlashBlock` does after a good first acknowledgment (R185). -/
theorem readFlashBlock_done (p : Params) (address : Addr16) (count : Byte) (vs : List Byte) (l : List WireAccess)
    (hl : BlockReadRun p address count vs l) (s : State) (ds rest : List LineDrive) (ht : s.env.target = ds ++ rest)
    (ha : AnswersAll l ds) :
    ∃ t, runFlash (readFlashBlock p address count) s = ({}, t) ∧ Traffic l rest s t ∧ t.work.res = .ok ∧
      ∀ a, t.flByte a = vs.getD a (s.flByte a) := by
  obtain ⟨hn, a, b, c, d, second, rfl, h1, h2, h3, h4⟩ := hl
  obtain ⟨d1, e, rfl, hd1, he⟩ := (answersAll_append a _ ds).1 ha
  obtain ⟨d2, e, rfl, hd2, he⟩ := (answersAll_append b _ e).1 he
  obtain ⟨d3, d4, rfl, hd3, hd4⟩ := (answersAll_append c _ e).1 he
  obtain ⟨t, r1, w1⟩ := fpiOpen_ok p _ a h1 s d1 (d2 ++ (d3 ++ (d4 ++ rest))) (by simp [ht]) hd1
  obtain ⟨u, r2, w2⟩ := fpiWrites_runs p _ b (setRes .ok t) d2 (d3 ++ (d4 ++ rest)) h2
    (by rw [setRes_env, w1.target]) hd2 w1.idle
  obtain ⟨x, r3, w3, -⟩ := fpiRead_runs p second c h3 u d3 (d4 ++ rest) w2.target hd3
  obtain ⟨y, r4, w4, g1, g2, g3, g4, g5, g6⟩ := fpiReads_runs p vs 0 d x d4 rest h4 w3.target hd4 w3.idle
  refine ⟨y, ?_, (w1.traffic.setRes .ok).trans (w2.traffic.trans (w3.traffic.trans ⟨w4, g1, g3, g4, g5⟩)), ?_,
    fun i => ?_⟩
  · rw [List.range'_eq_map_range, hn] at r4
    simp only [List.flatMap_map, Nat.zero_add] at r4
    have hw : fpiWrite p (addrHigh address) ++ (fpiWrite p (addrLow address) ++ (fpiWrite p count ++
          (fpiRead p ++ (List.range count.toNat).flatMap fun i => fpiRead p ++ [.storeFl i]))) =
        [addrHigh address, addrLow address, count].flatMap (fpiWrite p) ++
          (fpiRead p ++ (List.range count.toNat).flatMap fun i => fpiRead p ++ [.storeFl i]) := by
      simp
    rw [readFlashBlock, r1, hw, r2, r3, r4.done]
  · rw [g2, w3.res, w2.res, setRes_work]
  · rw [g6, w3.keeps.2, w2.keeps.2, (setRes_step _ t).2.2, w1.keeps.2]
    by_cases hi : i < vs.length
    · rw [dif_pos ⟨Nat.zero_le i, by omega⟩]; simp [List.getD_eq_getElem?_getD, hi]
    · rw [dif_neg (by omega)]; simp [List.getD_eq_getElem?_getD, Nat.not_lt.1 hi]

/-- Everything `writeFlashBlock` does after a good first acknowledgment (R186). -/
theorem writeFlashBlock_done (p : Params) (address : Addr16) (length ack : Byte) (l : List WireAccess) (s : State)
    (hl : BlockWriteRun p address ((List.range length.toNat).map s.flByte) ack l) (ds rest : List LineDrive)
    (ht : s.env.target = ds ++ rest) (ha : AnswersAll l ds) :
    ∃ t, runFlash (writeFlashBlock p address length) s = ({}, t) ∧ Traffic l rest s t ∧ KeepsFl s t ∧
      t.work.res = if ack = Config.ackOk then .ok else .fail := by
  obtain ⟨a, b, c, rfl, h1, h2, h3⟩ := hl
  obtain ⟨d, e, rfl, hd, he⟩ := (answersAll_append a (b ++ c) ds).1 ha
  obtain ⟨e1, e2, rfl, he1, he2⟩ := (answersAll_append b c e).1 he
  obtain ⟨t, r1, w1⟩ := fpiOpen_ok p _ a h1 s d (e1 ++ (e2 ++ rest)) (by simp [ht]) hd
  obtain ⟨b1, b2, rfl, hb1, hb2⟩ : ∃ b1 b2, b = b1 ++ b2 ∧
      WriteSteps p [addrHigh address, addrLow address, length] b1 ∧
      WriteSteps p ((List.range length.toNat).map s.flByte) b2 := by
    obtain ⟨x, y, rfl, hx, z, w, rfl, hz, u, v, rfl, hu, hv⟩ := h2
    refine ⟨x ++ (z ++ u), v, by simp, ⟨x, z ++ u, rfl, hx, z, u, rfl, hz, u, [], by simp, ?_, rfl⟩, hv⟩
    simpa using hu
  obtain ⟨f1, f2, rfl, hf1, hf2⟩ := (answersAll_append b1 b2 e1).1 he1
  obtain ⟨u, r2, w2⟩ := fpiWrites_runs p _ b1 (setRes .ok t) f1 (f2 ++ (e2 ++ rest)) hb1
    (by rw [setRes_env, w1.target]; simp) hf1 w1.idle
  obtain ⟨x, r3, w3, -⟩ := indexedWrites_runs p s .dataWriteFl s.flByte
    (fun q i h => by rw [← h.2 i]; rfl) length.toNat 0 b2 u f2 (e2 ++ rest)
    ((w1.keeps.trans (setRes_step _ t).2).trans w2.keeps) (by rw [← List.range_eq_range']; exact hb2) w2.target hf2 w2.idle
  obtain ⟨y, r4, w4, k4, hy⟩ := fpiAck_done p ack c h3 x e2 rest w3.target he2
  refine ⟨y, ?_, (w1.traffic.setRes .ok).trans ?_,
    (w1.keeps.trans (setRes_step _ t).2).trans (w2.keeps.trans (w3.keeps.trans k4)), hy⟩
  · have hw : fpiWrite p (addrHigh address) ++ (fpiWrite p (addrLow address) ++ (fpiWrite p length ++
          ((List.range length.toNat).flatMap (fpiWriteFl p) ++ fpiAck p))) =
        [addrHigh address, addrLow address, length].flatMap (fpiWrite p) ++
          ((List.range length.toNat).flatMap (fpiWriteFl p) ++ fpiAck p) := by
      simp
    rw [← List.range_eq_range'] at r3
    rw [writeFlashBlock, r1, hw, r2, ← r4]
    exact r3 _
  · have := w2.traffic.trans (w3.traffic.trans w4)
    rwa [← List.append_assoc] at this

end Sys2Proof.Machine
end

