-- ==== Sys2Proof/Laws/Trace.lean ====
section
/-! SUPPORT. What the routines below the Dispatcher put on the record, on every path: events of the two wires only. -/
namespace Sys2Proof.Machine

/-- From `s` to `t` the record has grown by events of the two wires only. -/
def Trail (s t : State) : Prop := ∃ l, t.log.trace = l ++ s.log.trace ∧ ∀ e ∈ l, e.onWires = true

theorem Trail.refl (s : State) : Trail s s := ⟨[], rfl, by simp⟩

theorem Trail.trans {s t u : State} : Trail s t → Trail t u → Trail s u
  | ⟨a, h, ha⟩, ⟨b, g, hb⟩ => ⟨b ++ a, by rw [g, h, List.append_assoc], fun e he =>
      (List.mem_append.1 he).elim (hb e) (ha e)⟩

/-- A state that differs anywhere but in the record. -/
theorem Trail.of_eq {s t : State} (h : t.log.trace = s.log.trace) : Trail s t := ⟨[], h, by simp⟩

theorem emit_trail (e : Event) (s : State) (h : e.onWires = true) : Trail s (emit e s) := ⟨[e], rfl, by simpa⟩

theorem pulseClock_trail (s : State) : Trail s (pulseClock s) :=
  ⟨[.delay Config.tHalf, .ck true, .delay Config.tHalf, .ck false], rfl, by simp [Event.onWires]⟩

theorem shiftOut_trail (n : Nat) : ∀ s : State, Trail s (shiftOut n s) := by
  induction n with
  | zero => exact Trail.refl
  | succ n ih =>
    intro s
    have h : Trail s (dWrite (s.work.sr.getLsbD s.work.bitn.toNat) s) := ⟨[_], rfl, by simp [Event.onWires]⟩
    exact (h.trans (pulseClock_trail _)).trans (.trans (.of_eq rfl) (ih (nextBit _)))

theorem sampled_trail (s : State) : Trail s (sampled s) := ⟨[_], rfl, by simp [Event.onWires]⟩

theorem shiftIn_trail (n : Nat) : ∀ s : State, Trail s (shiftIn n s) := by
  induction n with
  | zero => exact Trail.refl
  | succ n ih =>
    intro s
    have h : Trail (pulseClock s) (nextBit (sampleToSr (pulseClock s))) := ⟨[_], rfl, by simp [Event.onWires]⟩
    exact ((pulseClock_trail s).trans h).trans (ih _)

theorem loadSr_trail (w : WireWord) (s : State) : Trail s (loadSr w s) := .of_eq rfl

theorem wireHead_trail (word : WireWord) (width : Nat) (s : State) : Trail s (wireHead word width s) := by
  have h1 : Trail (pulseClock s) (dOutput (irqOff (pulseClock s))) := ⟨[_, _], rfl, by simp [Event.onWires]⟩
  have h2 : ∀ q, Trail q (dInput q) := fun q => ⟨[_], rfl, by simp [Event.onWires]⟩
  unfold wireHead
  exact ((pulseClock_trail s).trans h1).trans ((loadSr_trail _ _).trans ((shiftOut_trail width _).trans (h2 _)))

theorem wireTail_trail (s : State) : Trail s (wireTail s) :=
  (pulseClock_trail s).trans ⟨[_], rfl, by simp [Event.onWires]⟩

theorem latchV_trail (s : State) : Trail s (latchV s) := .of_eq rfl

theorem note_trail (a : WireAccess) (s : State) : Trail s (note a s) := .of_eq rfl

theorem noteValue_trail (a : Byte → WireAccess) (s : State) : Trail s (noteValue a s) := .of_eq rfl

theorem responseTail_trail (s : State) : Trail s (responseTail s) := by
  unfold responseTail
  exact (((loadSr_trail _ s).trans (shiftIn_trail 8 _)).trans (wireTail_trail _)).trans (latchV_trail _)

theorem addressRead_trail (s : State) : Trail s (addressRead s) := by
  unfold addressRead
  exact ((wireHead_trail _ _ s).trans (responseTail_trail _)).trans (noteValue_trail _ _)

theorem addressWrite_trail (a : Byte) (s : State) : Trail s (addressWrite a s) := by
  unfold addressWrite
  exact ((wireHead_trail _ _ s).trans (wireTail_trail _)).trans (note_trail _ _)

/-- A loop leaves the trail of its turns. -/
theorem repeatUntil_trail (body : State → Bool × State) (h : ∀ s, Trail s (body s).2) (fuel : Nat) :
    ∀ s, Trail s (repeatUntil body fuel s).2 := by
  induction fuel with
  | zero => exact h
  | succ n ih =>
    intro s
    have h0 := h s
    simp only [repeatUntil]
    generalize body s = r at *
    obtain ⟨b, q⟩ := r
    cases b
    · simp only
      split
      · exact h0
      · exact h0.trans (ih q)
    · exact h0

theorem finishWire_trail (w : WireWait) (s : State) : Trail s (finishWire w s).2 := by
  have h : Trail s (waitHigh s).2 :=
    repeatUntil_trail _ (fun q => (pulseClock_trail q).trans (sampled_trail _)) _ s
  simp only [finishWire]
  generalize waitHigh s = r at *
  obtain ⟨b, q⟩ := r
  cases b
  · exact h
  · cases w with
    | dataWrite d => exact h.trans ((wireTail_trail q).trans (note_trail _ _))
    | dataRead => exact h.trans ((responseTail_trail q).trans (noteValue_trail _ _))

theorem dataWrite_trail (d : Byte) (s : State) : Trail s (dataWrite d s).2 := by
  unfold dataWrite
  exact (wireHead_trail _ _ s).trans (finishWire_trail _ _)

theorem dataRead_trail (s : State) : Trail s (dataRead s).2 := by
  unfold dataRead
  exact (wireHead_trail _ _ s).trans (finishWire_trail _ _)

/-- A statement of a routine, whether it ends or waits. -/
theorem flashOp_trail (op : FlashOp) (s : State) : Trail s (flashOp op s).state := by
  have loop : ∀ i d, Trail s (dataWriteAt i d s).state := by
    intro i d
    have h0 : Trail s (setIdx i s) := .of_eq rfl
    have h := h0.trans (dataWrite_trail d (setIdx i s))
    simp only [dataWriteAt]
    generalize dataWrite d (setIdx i s) = r at *
    obtain ⟨b, q⟩ := r
    cases b <;> exact h
  have poll : ∀ c, Trail s (repeatUntil (pollTurn c) s.env.target.length s).2 := fun c =>
    repeatUntil_trail _ addressRead_trail _ s
  cases op with
  | clockHold => exact ⟨[_, _, _, _], rfl, by simp [Event.onWires]⟩
  | delay t => exact emit_trail _ s rfl
  | addressWrite a => exact addressWrite_trail a s
  | dataWrite d =>
    have h := dataWrite_trail d s
    simp only [flashOp]
    generalize dataWrite d s = r at *
    obtain ⟨b, q⟩ := r
    cases b <;> exact h
  | dataWriteFl i => exact loop _ _
  | dataWriteKey i => exact loop _ _
  | dataRead =>
    have h := dataRead_trail s
    simp only [flashOp]
    generalize dataRead s = r at *
    obtain ⟨b, q⟩ := r
    cases b <;> exact h
  | pollBitLow m =>
    have h := poll (maskClear m)
    simp only [flashOp, pollBitLow]
    generalize repeatUntil (pollTurn (maskClear m)) s.env.target.length s = r at *
    obtain ⟨b, q⟩ := r
    cases b <;> exact h
  | pollBitHigh m =>
    have h := poll (maskSet m)
    simp only [flashOp, pollBitHigh]
    generalize repeatUntil (pollTurn (maskSet m)) s.env.target.length s = r at *
    obtain ⟨b, q⟩ := r
    cases b <;> exact h
  | ackTest =>
    simp only [flashOp, ackTest]
    split <;> exact .of_eq rfl
  | storeFl i => exact .of_eq rfl
  | storeDevId => exact .of_eq rfl
  | storeDevRev => exact .of_eq rfl

/-- The statements of a routine, on every path. -/
theorem runFlash_trail (ops : List FlashOp) : ∀ s : State, Trail s (runFlash ops s).2 := by
  induction ops with
  | nil => exact Trail.refl
  | cons op rest ih =>
    intro s
    have h := flashOp_trail op s
    simp only [runFlash]
    generalize flashOp op s = r at *
    cases r with
    | done q => exact Trail.trans h (ih q)
    | again q => exact h
    | inWire w q => exact h
    | failed q => exact h

/-- A routine that returns. -/
theorem trail_of_run {ops : List FlashOp} {s t : State} (h : runFlash ops s = ({}, t)) : Trail s t := by
  have := runFlash_trail ops s
  rwa [h] at this

end Sys2Proof.Machine
end

