-- ==== Sys2Proof/Laws/Step.lean ====
section
/-! SUPPORT. The step and the runs, taken apart once. -/
namespace Sys2Proof.Machine

/-- With the reset input quiet a step is a pass. -/
theorem step_pass (s : State) (ha : s.cfg.Admissible) (hr : s.env.resetIn = none) : step s = Machine.pass s := by
  unfold step
  rw [if_pos ha, hr]

/-- With the reset input asserted a step is the pass that it cuts. -/
theorem step_strike (k : Nat) (s : State) (ha : s.cfg.Admissible) (hr : s.env.resetIn = some k) :
    step s = resetDuringPass k s := by
  unfold step
  rw [if_pos ha, hr]

/-- Everything a pass that the reset cuts can answer: a state just reset, or, for a pass that stops before the reset comes,
its stop. -/
theorem resetDuringPass_cases (k : Nat) (s : State) :
    (∃ q, q.cfg = s.cfg ∧ resetDuringPass k s = .next (hardReset q)) ∨
      ((∀ t, Machine.pass s ≠ .next t) ∧ resetDuringPass k s = Machine.pass s) := by
  simp only [resetDuringPass]
  cases Machine.pass s with
  | next t => exact .inl ⟨cutAfter k s t, rfl, rfl⟩
  | fault f =>
    dsimp only
    split
    · exact .inr ⟨by simp, rfl⟩
    · exact .inl ⟨cutAfter k s (beforeStop s), rfl, rfl⟩
  | refused r =>
    dsimp only
    split
    · exact .inr ⟨by simp, rfl⟩
    · exact .inl ⟨cutAfter k s (beforeStop s), rfl, rfl⟩

/-- A step of a block that waits. -/
theorem step_resume (s : State) (ha : s.cfg.Admissible) (hr : s.env.resetIn = none) (he : s.seq.entry = none)
    (hi : s.seq.idle = false) : step s = .next (resume s) := by
  rw [step_pass s ha hr]
  simp [Machine.pass, he, hi]

/-- At the top of the main loop no level of the sequencer has anything left. -/
theorem seq_of_idle (k : Seq) (h : k.idle = true) : k = {} := by
  obtain ⟨e, w, f, c⟩ := k
  simp [Seq.idle] at h
  obtain ⟨⟨⟨rfl, rfl⟩, rfl⟩, rfl⟩ := h
  rfl

/-- A step at the top of the main loop. -/
theorem step_mainLoop (s : State) (ha : s.cfg.Admissible) (hr : s.env.resetIn = none) (hi : s.seq.idle = true) :
    step s = mainLoop s := by
  rw [step_pass s ha hr]
  simp [Machine.pass, seq_of_idle _ hi, Seq.idle]

/-- A run goes on from the state after its first step. -/
theorem run_succ (n : Nat) (s t : State) (h : step s = .next t) : run (n + 1) s = run n t := by
  have hc : core.step s = Host.Outcome.next t := h
  show Host.Core.run core (n + 1) s = Host.Core.run core n t
  simp only [Host.Core.run, hc]

/-- A step that changes nothing makes every run change nothing. -/
theorem run_of_fixed (s : State) (h : step s = .next s) : ∀ n, run n s = .next s := by
  intro n
  induction n with
  | zero => rfl
  | succ n ih => rw [run_succ n s s h]; exact ih

/-- What the sequencer does when it goes on below the wait field. -/
theorem resume_routine (s : State) (h : s.seq.wire = none) :
    resume s = goOn s.seq s := by
  simp only [resume, h]

end Sys2Proof.Machine
end

