-- ==== Sys2Proof/Laws/Frame.lean ====
section
/-! SUPPORT. What any instruction, and the sequencer going on after a wait, may change: said once for all of them. -/
namespace Sys2Proof.Machine

/-- A routine ran from `s` and left `k` to do and the state `q`: what it kept. The three conditions say when `FL`,
`DEV_*` and `LED` are among it. -/
structure Ran (fl dev led : Prop) (s : State) (k : Seq) (q : State) : Prop where
  frame : CommandFrame s q
  fs : q.frame.fs = s.frame.fs ∨ q.frame.fs = .awaitingAction
  entry : k.entry = none
  wf : s.fl.wf = true → q.fl.wf = true
  fl : fl → KeepsFl s q
  dev : dev → q.dev = s.dev
  led : led → q.pins.led = s.pins.led
  rest : s.idlePins → RestPins k.wire.isSome q
  seq : q.seq = s.seq

/-- A statement that stores nothing in `FL` and nothing in `DEV_*`. -/
def FlashOp.Plain (f : FlashOp) : Prop := (∀ i, f ≠ .storeFl i) ∧ f ≠ .storeDevId ∧ f ≠ .storeDevRev

/-- A Dispatcher branch. -/
theorem ran_cmd (ops : List CmdOp) (s : State) (fl dev led : Prop)
    (hf : fl → ∀ op ∈ ops, ∀ f ∈ op.body, ∀ i, f ≠ .storeFl i)
    (hd : dev → ∀ op ∈ ops, ∀ f ∈ op.body, f ≠ .storeDevId ∧ f ≠ .storeDevRev)
    (hl : led → ∀ op ∈ ops, ∀ b, op ≠ .led b) : Ran fl dev led s (runCmd ops s).1 (runCmd ops s).2 := by
  obtain ⟨h1, h2, h3, h4, h5, h6, h7⟩ := runCmd_frame ops s
  exact ⟨h1.toCommandFrame, h1.fs, h2, h3, fun h => h4 (hf h), fun h => h5 (hd h), fun h => h6 (hl h), h7, h1.seq⟩

/-- A routine of the level below. -/
theorem ran_flash (ops : List FlashOp) (s : State) (fl dev : Prop) (hf : fl → ∀ f ∈ ops, ∀ i, f ≠ .storeFl i)
    (hd : dev → ∀ f ∈ ops, f ≠ .storeDevId ∧ f ≠ .storeDevRev) :
    Ran fl dev True s (runFlash ops s).1 (runFlash ops s).2 := by
  obtain ⟨h1, h2, h3, h4, h5, h6, h7, -⟩ := runFlash_frame ops s
  exact ⟨h1.toCommand.toCommandFrame, h1.toCommand.fs, h2, h4, fun h => h5 (hf h), fun h => h6 (hd h), fun _ => h1.led,
    h7, h1.seq⟩

/-- The conditions may be strengthened. -/
theorem Ran.mono {a b c a' b' c' : Prop} {s : State} {k : Seq} {q : State} (h : Ran a b c s k q) (ha : a' → a)
    (hb : b' → b) (hc : c' → c) : Ran a' b' c' s k q :=
  { h with fl := fun x => h.fl (ha x), dev := fun x => h.dev (hb x), led := fun x => h.led (hc x) }

/-- A settled routine. -/
theorem ran_settle {r : Seq × State} {a b c : Prop} {s t : State} (h : Ran a b c s r.1 r.2) (ht : settle r = .next t) :
    ∃ k q, t = { q with seq := k.push s.seq } ∧ Ran a b c s k q := by
  simp only [settle] at ht
  injection ht with ht
  subst ht
  exact ⟨r.1, r.2, by rw [h.seq], h⟩

/-- A two-wire instruction. -/
theorem ran_wire {s q : State} (h : WireStep s q) (k : Seq) (he : k.entry = none) (hp : RestPins k.wire.isSome q) :
    Ran True True True s k q :=
  ⟨h.toRoutine.toCommand.toCommandFrame, h.toRoutine.toCommand.fs, he, fun w => by rw [h.fl]; exact w,
    fun _ => h.keepsFl, fun _ => h.dev, fun _ => h.led, fun _ => hp, h.seq⟩

theorem CommandFrame.trans {s t u : State} (a : CommandFrame s t) (b : CommandFrame t u) : CommandFrame s u where
  cfg := b.cfg.trans a.cfg
  fb := b.fb.trans a.fb
  fbByte i := (b.fbByte i).trans (a.fbByte i)
  action := b.action.trans a.action
  length := b.length.trans a.length
  rem := b.rem.trans a.rem
  cur := b.cur.trans a.cur
  rx := b.rx.trans a.rx
  txGateRest := b.txGateRest.trans a.txGateRest
  targetRest := b.targetRest.trans a.targetRest
  resetIn := b.resetIn.trans a.resetIn
  epoch := b.epoch.trans a.epoch

/-- A state that differs only in `FL` and the working registers. -/
structure DataStep (s q : State) : Prop where
  cfg : q.cfg = s.cfg
  frame : q.frame = s.frame
  fb : q.fb = s.fb
  dev : q.dev = s.dev
  pins : q.pins = s.pins
  seq : q.seq = s.seq
  env : q.env = s.env
  epoch : q.epoch = s.epoch
  wf : s.fl.wf = true → q.fl.wf = true

theorem DataStep.frameOf {s q : State} (h : DataStep s q) : CommandFrame s q where
  cfg := h.cfg
  fb := h.fb
  fbByte a := by simp [State.fbByte, h.fb, h.epoch]
  action := by rw [h.frame]
  length := by rw [h.frame]
  rem := by rw [h.frame]
  cur := by rw [h.frame]
  rx := by rw [h.env]
  txGateRest := by rw [h.env]
  targetRest := by rw [h.env]
  resetIn := by rw [h.env]
  epoch := h.epoch

/-- A prologue that only moves data comes before. -/
theorem Ran.pre {a b c : Prop} {s s' : State} {k : Seq} {q : State} (h : Ran a b c s' k q) (g : DataStep s s')
    (hf : a → KeepsFl s s') : Ran a b c s k q where
  frame := g.frameOf.trans h.frame
  fs := by rw [← g.frame]; exact h.fs
  entry := h.entry
  wf w := h.wf (g.wf w)
  fl x := (hf x).trans (h.fl x)
  dev x := (h.dev x).trans g.dev
  led x := (h.led x).trans (by rw [g.pins])
  rest x := h.rest (by rw [State.idlePins, g.pins]; exact x)
  seq := h.seq.trans g.seq

/-! ## Which statements the routines hold -/

theorem fpiWrite_plain (p : Params) (x : Byte) : ∀ f ∈ fpiWrite p x, f.Plain := by
  intro f h
  simp [fpiWrite] at h
  rcases h with rfl | rfl <;> simp [FlashOp.Plain]

theorem fpiWriteFl_plain (p : Params) (x : Nat) : ∀ f ∈ fpiWriteFl p x, f.Plain := by
  intro f h
  simp [fpiWriteFl] at h
  rcases h with rfl | rfl <;> simp [FlashOp.Plain]

theorem fpiWriteKey_plain (p : Params) (x : Nat) : ∀ f ∈ fpiWriteKey p x, f.Plain := by
  intro f h
  simp [fpiWriteKey] at h
  rcases h with rfl | rfl <;> simp [FlashOp.Plain]

theorem fpiRead_plain (p : Params) : ∀ f ∈ fpiRead p, f.Plain := by
  intro f h
  simp [fpiRead] at h
  rcases h with rfl | rfl <;> simp [FlashOp.Plain]

theorem fpiAck_plain (p : Params) : ∀ f ∈ fpiAck p, f.Plain := by
  intro f h
  rw [fpiAck, List.mem_append] at h
  rcases h with h | h
  · exact fpiRead_plain p f h
  · simp at h; subst h; simp [FlashOp.Plain]

theorem fpiOpen_plain (p : Params) (x : Byte) : ∀ f ∈ fpiOpen p x, f.Plain := by
  intro f h
  rw [fpiOpen, List.mem_cons, List.mem_append] at h
  rcases h with rfl | h | h
  · simp [FlashOp.Plain]
  · exact fpiWrite_plain p x f h
  · exact fpiAck_plain p f h

theorem eraseDevice_plain (p : Params) : ∀ f ∈ eraseDevice p, f.Plain := by
  intro f h
  rw [eraseDevice, List.mem_append, List.mem_append, List.mem_flatMap] at h
  rcases h with h | ⟨x, -, h⟩ | h
  · exact fpiOpen_plain _ _ f h
  · exact fpiWriteKey_plain _ _ f h
  · exact fpiAck_plain _ f h

theorem writeFlashBlock_plain (p : Params) (a : Addr16) (n : Byte) : ∀ f ∈ writeFlashBlock p a n, f.Plain := by
  intro f h
  simp only [writeFlashBlock, List.mem_append, List.mem_flatMap] at h
  rcases h with h | h | h | h | ⟨x, -, h⟩ | h
  · exact fpiOpen_plain _ _ f h
  · exact fpiWrite_plain _ _ f h
  · exact fpiWrite_plain _ _ f h
  · exact fpiWrite_plain _ _ f h
  · exact fpiWriteFl_plain _ _ f h
  · exact fpiAck_plain _ f h

theorem readFlashBlock_noDev (p : Params) (a : Addr16) (n : Byte) :
    ∀ f ∈ readFlashBlock p a n, f ≠ .storeDevId ∧ f ≠ .storeDevRev := by
  intro f h
  simp only [readFlashBlock, List.mem_append, List.mem_flatMap] at h
  rcases h with h | h | h | h | h | ⟨x, -, h | h⟩
  · exact (fpiOpen_plain _ _ f h).2
  · exact (fpiWrite_plain _ _ f h).2
  · exact (fpiWrite_plain _ _ f h).2
  · exact (fpiWrite_plain _ _ f h).2
  · exact (fpiRead_plain _ f h).2
  · exact (fpiRead_plain _ f h).2
  · simp at h; subst h; simp

theorem initTarget_noFl (p : Params) : ∀ f ∈ initTarget p, ∀ i, f ≠ .storeFl i := by
  intro f h
  simp [initTarget] at h
  rcases h with rfl | rfl | rfl | rfl | rfl | rfl | rfl | rfl <;> simp

theorem deviceInfo_noFl (p : Params) : ∀ f ∈ deviceInfo p, ∀ i, f ≠ .storeFl i := by
  intro f h
  simp [deviceInfo] at h
  rcases h with rfl | rfl | rfl | rfl | rfl | rfl <;> simp

/-! ## Instructions -/

/-- The instructions that do not write `FL`. -/
def LeavesFl (i : Instr) : Prop :=
  (∀ payload, i ≠ .write payload) ∧ (∀ payload, i ≠ .read payload) ∧ ∀ address count, i ≠ .blockRead address count

/-- The instructions that do not write `DEV_ID` and `DEV_REV`. -/
def LeavesDev (i : Instr) : Prop := ∀ payload, i ≠ .init payload

/-- The instructions that do not write `LED`. -/
def LeavesLed (i : Instr) : Prop := (∀ payload, i ≠ .init payload) ∧ ∀ payload, i ≠ .reset payload

/-- Where an instruction has gone when it has ended or waits. -/
def InstrRan (i : Instr) (s t : State) : Prop :=
  ∃ k q, t = { q with seq := k.push s.seq } ∧ Ran (LeavesFl i) (LeavesDev i) (LeavesLed i) s k q

/-- A branch without calls that does not write `LED`. -/
theorem ran_reply (i : Instr) (ops : List CmdOp) (s t : State) (hb : ∀ op ∈ ops, op.body = [])
    (hl : ∀ op ∈ ops, ∀ b, op ≠ .led b) (h : settle (runCmd ops s) = .next t) : InstrRan i s t :=
  ran_settle (ran_cmd ops s _ _ _ (fun _ op ho f hf => by rw [hb op ho] at hf; cases hf)
    (fun _ op ho f hf => by rw [hb op ho] at hf; cases hf) fun _ => hl) h

/-- A routine that stores nothing. -/
theorem ran_plain (i : Instr) (ops : List FlashOp) (s t : State) (hp : ∀ f ∈ ops, f.Plain)
    (h : settle (runFlash ops s) = .next t) : InstrRan i s t :=
  ran_settle ((ran_flash ops s True True (fun _ f hf => (hp f hf).1) fun _ f hf => (hp f hf).2).mono
    (fun _ => trivial) (fun _ => trivial) fun _ => trivial) h

/-- A two-wire instruction that ends. -/
theorem ran_wire_done (i : Instr) {s t : State} (h : WireStep s t) (hp : RestPins false t) : InstrRan i s t :=
  ⟨{}, t, by rw [Seq.push_empty, ← h.seq],
    (ran_wire h {} rfl hp).mono (fun _ => trivial) (fun _ => trivial) fun _ => trivial⟩

/-- A data instruction, ended or held. -/
theorem ran_settleWire (i : Instr) (w : WireWait) {s t : State} {r : Bool × State} (h : WireStep s r.2)
    (hp : r.2.pins.ck = true ∧ r.2.pins.doe = false ∧ r.2.pins.irqm = !r.1) (ht : settleWire w r = .next t) :
    InstrRan i s t := by
  obtain ⟨b, q⟩ := r
  refine ran_settle ((ran_wire h _ ?_ ?_).mono (fun _ => trivial) (fun _ => trivial) fun _ => trivial) ht
  · cases b <;> rfl
  · cases b <;> exact hp

theorem readResponse_ops (n : Byte) : ∀ op ∈ readResponse n, op.body = [] ∧ ∀ b, op ≠ .led b := by
  intro op ho
  simp only [readResponse, List.mem_cons, List.mem_map] at ho
  rcases ho with rfl | ⟨x, -, rfl⟩ <;> simp [CmdOp.body]

/-- WRITE's prologue. -/
theorem writePrologue_step (high low cks : Byte) (data : List Byte) (s : State) :
    DataStep s (writePrologue high low cks data s) := by
  obtain ⟨p1, p2, p3, p4, p5, p6, p7, -, p9, -, -, p12⟩ := copyToFl_spec data 0
    { s with work := { s.work with
        cnt := BitVec.ofNat 8 data.length, addr := writeAddr s.work.addr high low, cks := cks } }
  exact ⟨p1, p2, p3, p4, p5, p6, p7, p9, p12⟩

/-- WRITE. -/
theorem ran_write (payload : List Byte) (s t : State) (h : execWrite payload s = .next t) :
    InstrRan (.write payload) s t := by
  match payload, h with
  | [], h => cases h
  | [_], h => cases h
  | [_, _], h => cases h
  | high :: low :: cks :: data, h =>
    simp only [execWrite] at h
    split at h
    · cases h
    · have g := writePrologue_step high low cks data s
      generalize writePrologue high low cks data s = q at *
      obtain ⟨k, u, e, r⟩ := ran_settle (a := LeavesFl (.write (high :: low :: cks :: data))) (b := True) (c := True)
        (ran_cmd (writeBranch q) q _ _ _ (fun x => absurd rfl (x.1 _))
          (fun _ => by
            simp only [writeBranch]
            split <;> simp [CmdOp.body]
            exact fun f hf => (writeFlashBlock_plain _ _ _ f hf).2)
          (fun _ => by simp only [writeBranch]; split <;> simp)) h
      exact ⟨k, u, by rw [← g.seq]; exact e,
        (r.pre g fun x => absurd rfl (x.1 _)).mono id (fun _ => trivial) fun _ => trivial⟩

/-- READ. -/
theorem ran_read (payload : List Byte) (s t : State) (h : execRead payload s = .next t) :
    InstrRan (.read payload) s t := by
  match payload, h with
  | [], h => cases h
  | [_], h => cases h
  | [_, _], h => cases h
  | [_, _, _], h => cases h
  | count :: a2 :: a1 :: a0 :: more, h =>
    simp only [execRead] at h
    split at h
    · cases h
    · obtain ⟨q, hq, g⟩ : ∃ q : State, { s with work := { s.work with cnt := count, addr := readAddr a2 a1 a0 } } = q ∧
          DataStep s q := ⟨_, rfl, ⟨rfl, rfl, rfl, rfl, rfl, rfl, rfl, rfl, id⟩⟩
      rw [hq] at h
      obtain ⟨k, u, e, r⟩ := ran_settle (a := LeavesFl (.read (count :: a2 :: a1 :: a0 :: more))) (b := True) (c := True)
        (ran_cmd (readBranch q) q _ _ _
          (fun x => absurd rfl (x.2.1 _))
          (fun _ op ho f hf => by
            rcases List.mem_cons.1 ho with rfl | ho
            · exact readFlashBlock_noDev _ _ _ f hf
            · rcases List.mem_cons.1 ho with rfl | ho
              · cases hf
              · rw [(readResponse_ops _ op ho).1] at hf; cases hf)
          (fun _ op ho => by
            rcases List.mem_cons.1 ho with rfl | ho
            · simp
            · rcases List.mem_cons.1 ho with rfl | ho
              · simp
              · exact (readResponse_ops _ op ho).2)) h
      exact ⟨k, u, by rw [← g.seq]; exact e,
        (r.pre g fun x => absurd rfl (x.2.1 _)).mono id (fun _ => trivial) fun _ => trivial⟩

/-- Loading `CNT` only moves data. -/
theorem setCnt_step (n : Byte) (s : State) : DataStep s (setCnt n s) ∧ KeepsFl s (setCnt n s) :=
  ⟨⟨rfl, rfl, rfl, rfl, rfl, rfl, rfl, rfl, id⟩, rfl, fun _ => rfl⟩

/-- BLOCK_READ. -/
theorem ran_blockRead (address : Addr16) (count : Byte) (s t : State) (h : execBlockRead address count s = .next t) :
    InstrRan (.blockRead address count) s t := by
  simp only [execBlockRead] at h
  split at h
  · cases h
  · exact (ran_settle (ran_flash _ (setCnt count s) False True (fun x => x.elim) fun _ => readFlashBlock_noDev _ _ _) h).imp
      fun k ⟨q, e, r⟩ => ⟨q, e, (r.pre (setCnt_step count s).1 fun x => x.elim).mono
        (fun x => absurd rfl (x.2.2 address count)) (fun _ => trivial) fun _ => trivial⟩

/-- BLOCK_WRITE. -/
theorem ran_blockWrite (address : Addr16) (length : Byte) (s t : State)
    (h : execBlockWrite address length s = .next t) : InstrRan (.blockWrite address length) s t := by
  simp only [execBlockWrite] at h
  split at h
  · cases h
  · obtain ⟨g1, g2⟩ := setCnt_step length s
    have hp := writeFlashBlock_plain s.cfg address length
    exact (ran_settle (ran_flash _ (setCnt length s) True True (fun _ f hf => (hp f hf).1) fun _ f hf => (hp f hf).2) h).imp
      fun k ⟨q, e, r⟩ => ⟨q, e, (r.pre g1 fun _ => g2).mono (fun _ => trivial) (fun _ => trivial) fun _ => trivial⟩

/-- What an instruction that answers a next state has kept, whether it has ended or waits. -/
theorem exec_ran (i : Instr) (s t : State) (h : exec i s = .next t) : InstrRan i s t := by
  cases i with
  | ack payload => exact ran_reply _ _ s t (by simp [CmdOp.body]) (by simp) h
  | init payload =>
    refine ran_settle (ran_cmd _ s _ _ _ ?_ (fun x => absurd rfl (x payload)) fun x => absurd rfl (x.1 payload)) h
    intro _
    simp [CmdOp.body]
    exact ⟨initTarget_noFl _, deviceInfo_noFl _⟩
  | reset payload =>
    exact ran_settle (ran_cmd _ s _ _ _ (by simp [CmdOp.body]) (by simp [CmdOp.body])
      fun x => absurd rfl (x.2 payload)) h
  | write payload => exact ran_write payload s t h
  | erase payload =>
    refine ran_settle (ran_cmd _ s _ _ _ ?_ ?_ (by simp)) h <;> intro _ <;> simp [CmdOp.body]
    · exact fun f hf => (eraseDevice_plain _ f hf).1
    · exact fun f hf => (eraseDevice_plain _ f hf).2
  | read payload => exact ran_read payload s t h
  | info payload => exact ran_reply _ _ s t (by simp [CmdOp.body, infoResponse]) (by simp [infoResponse]) h
  | addressWrite a =>
    obtain ⟨h1, -, -, h4, -, -⟩ := addressWrite_spec a s
    have ht : addressWrite a s = t := by injection h
    rw [ht] at h1 h4
    exact ran_wire_done _ h1 (.of_eq h4 rfl rfl rfl)
  | addressRead =>
    obtain ⟨h1, -, -, h4, -, -⟩ := addressRead_spec s
    have ht : addressRead s = t := by injection h
    rw [ht] at h1 h4
    exact ran_wire_done _ h1 (.of_eq h4 rfl rfl rfl)
  | dataWrite d =>
    obtain ⟨h1, h2⟩ := dataWrite_frame d s
    exact ran_settleWire _ _ h1 (by rw [h2]; exact ⟨rfl, rfl, rfl⟩) h
  | dataRead =>
    obtain ⟨h1, h2⟩ := dataRead_frame s
    exact ran_settleWire _ _ h1 (by rw [h2]; exact ⟨rfl, rfl, rfl⟩) h
  | deviceErase => exact ran_plain _ _ s t (eraseDevice_plain _) h
  | blockRead a c => exact ran_blockRead a c s t h
  | blockWrite a c => exact ran_blockWrite a c s t h
  | rspAck => exact ran_reply _ _ s t (by simp [CmdOp.body]) (by simp) h
  | rspInit => exact ran_reply _ _ s t (by simp [CmdOp.body]) (by simp) h
  | rspReset => exact ran_reply _ _ s t (by simp [CmdOp.body]) (by simp) h
  | rspWrite => exact ran_reply _ _ s t (by simp [CmdOp.body]) (by simp) h
  | rspChecksumFail => exact ran_reply _ _ s t (by simp [CmdOp.body]) (by simp) h
  | rspErase => exact ran_reply _ _ s t (by simp [CmdOp.body]) (by simp) h
  | rspRead =>
    simp only [exec, execRspRead] at h
    split at h
    · cases h
    · exact ran_reply _ _ s t (fun op ho => (readResponse_ops _ op ho).1) (fun op ho => (readResponse_ops _ op ho).2) h
  | rspInfo => exact ran_reply _ _ s t (by simp [CmdOp.body, infoResponse]) (by simp [infoResponse]) h

/-- What the sequencer, going on from where it waits, has kept (R35). -/
theorem resume_ran (s : State) : ∃ k q, resume s = { q with seq := k } ∧ CommandFrame s q ∧
    (q.frame.fs = s.frame.fs ∨ q.frame.fs = .awaitingAction) ∧ (k.entry = none ∨ k = s.seq) ∧
    (s.fl.wf = true → q.fl.wf = true) ∧
    (RestPins s.seq.wire.isSome s → RestPins k.wire.isSome q) := by
  have go : ∀ q0 : State, WireStep s q0 → (RestPins s.seq.wire.isSome s → q0.idlePins) →
      ∃ k q, { (runCmd (.call s.seq.flash :: s.seq.cmd) { q0 with seq := {} }).2 with
        seq := (runCmd (.call s.seq.flash :: s.seq.cmd) { q0 with seq := {} }).1 } = { q with seq := k } ∧
      CommandFrame s q ∧ (q.frame.fs = s.frame.fs ∨ q.frame.fs = .awaitingAction) ∧
      (k.entry = none ∨ k = s.seq) ∧ (s.fl.wf = true → q.fl.wf = true) ∧
      (RestPins s.seq.wire.isSome s → RestPins k.wire.isSome q) := by
    intro q0 h0 hpin
    obtain ⟨h1, h2, h3, -, -, -, h7⟩ := runCmd_frame (.call s.seq.flash :: s.seq.cmd) { q0 with seq := {} }
    generalize runCmd (.call s.seq.flash :: s.seq.cmd) { q0 with seq := {} } = r at *
    have h9 := h0.toRoutine.toCommand
    have hfr : CommandFrame q0 r.2 := { h1.toCommandFrame with }
    have hc : CommandStep s { r.2 with seq := q0.seq } :=
      h9.trans { hfr with seq := rfl, fs := h1.fs, addr := h1.addr, cks := h1.cks, sum := h1.sum, cnt := h1.cnt }
    exact ⟨r.1, r.2, rfl, { hc.toCommandFrame with }, hc.fs, .inl h2,
      fun h => h3 (by show q0.fl.wf = true; rw [h0.fl]; exact h),
      fun h => h7 (hpin h)⟩
  rcases hw : s.seq.wire with _ | w
  · rw [resume_routine s hw]
    rw [hw] at go
    exact go s (WireStep.refl s) (fun h => h)
  · have g1 := finishWire_step w s
    have g2 : s.pins.doe = false → (finishWire w s).2.pins =
        { s.pins with ck := true, irqm := if (finishWire w s).1 then false else s.pins.irqm } :=
      fun h => (finishWire_frame w s h).2
    simp only [resume, hw]
    rw [hw] at go
    generalize finishWire w s = r at *
    obtain ⟨b, q⟩ := r
    cases b
    · refine ⟨s.seq, q, ?_, { g1.toRoutine.toCommand.toCommandFrame with }, g1.toRoutine.toCommand.fs, .inr rfl,
        fun h => by rw [g1.fl]; exact h, ?_⟩
      · show q = _
        rw [← g1.seq]
      · intro h
        rw [hw]
        exact .of_eq (g2 h.2.1) rfl h.2.1 h.2.2
    · exact go q g1 (fun h => by
        simp only [State.idlePins]
        rw [g2 h.2.1]
        exact ⟨rfl, h.2.1, rfl⟩)

end Sys2Proof.Machine
end

