-- ==== Sys2Proof/Laws/PerInstr.lean ====
section
/-! SUPPORT. Per instruction: its encoded form has the size its format gives it (spec/30_encoding.md R91, R93, R99 to R103,
R107). -/
namespace Sys2Proof.Laws.EncodedSize

/-- The size of an encoded form: a frame has its two head bytes, a payload that fits the frame buffer and a length byte
that counts it; a two-wire word fits its width; an FPI command has one byte or four; a response is one byte. -/
def Sized (p : Params) (e : Encoded) : Prop :=
  match e with
  | .frame bytes => ∃ n, n ≤ p.nPayload ∧ bytes.length = n + 2 ∧ bytes[1]? = some (BitVec.ofNat 8 n)
  | .wire width word => (width = 10 ∨ width = 2 ∨ width = 12 ∨ width = 4) ∧ word.toNat < 2 ^ width
  | .fpi bytes => bytes.length = 1 ∨ bytes.length = 4
  | .response _ => True

/-- The family's statement. -/
def Statement (i : Instr) : Prop := ∀ p : Params, WellFormed p i → Sized p (encode p i)

/-- A frame's size is its payload's and two more. -/
theorem frame_sized (p : Params) (a : Byte) (payload : List Byte) (h : payload.length ≤ p.nPayload) :
    Sized p (.frame (frameBytes a payload)) := ⟨payload.length, h, by simp [frameBytes], by simp [frameBytes]⟩

theorem ack (payload : List Byte) : Statement (.ack payload) := fun p h => frame_sized p _ payload h
theorem init (payload : List Byte) : Statement (.init payload) := fun p h => frame_sized p _ payload h
theorem reset (payload : List Byte) : Statement (.reset payload) := fun p h => frame_sized p _ payload h
theorem write (payload : List Byte) : Statement (.write payload) := fun p h => frame_sized p _ payload h
theorem erase (payload : List Byte) : Statement (.erase payload) := fun p h => frame_sized p _ payload h
theorem read (payload : List Byte) : Statement (.read payload) := fun p h => frame_sized p _ payload h
theorem info (payload : List Byte) : Statement (.info payload) := fun p h => frame_sized p _ payload h
theorem addressWrite (address : Byte) : Statement (.addressWrite address) := by
  intro p _
  refine ⟨.inl rfl, ?_⟩
  have : ∀ a : Byte, (addressWriteWord a).toNat < 2 ^ 10 := by decide
  exact this address
theorem addressRead : Statement .addressRead := fun _ _ => ⟨.inr (.inl rfl), by decide⟩
theorem dataWrite (data : Byte) : Statement (.dataWrite data) :=
  fun _ _ => ⟨.inr (.inr (.inl rfl)), (dataWriteWord data).isLt⟩
theorem dataRead : Statement .dataRead := fun _ _ => ⟨.inr (.inr (.inr rfl)), by decide⟩
theorem deviceErase : Statement .deviceErase := fun _ _ => .inl rfl
theorem blockRead (address : Addr16) (count : Byte) : Statement (.blockRead address count) := fun _ _ => .inr rfl
theorem blockWrite (address : Addr16) (length : Byte) : Statement (.blockWrite address length) := fun _ _ => .inr rfl
theorem rspAck : Statement .rspAck := fun _ _ => trivial
theorem rspInit : Statement .rspInit := fun _ _ => trivial
theorem rspReset : Statement .rspReset := fun _ _ => trivial
theorem rspWrite : Statement .rspWrite := fun _ _ => trivial
theorem rspChecksumFail : Statement .rspChecksumFail := fun _ _ => trivial
theorem rspErase : Statement .rspErase := fun _ _ => trivial
theorem rspRead : Statement .rspRead := fun _ _ => trivial
theorem rspInfo : Statement .rspInfo := fun _ _ => trivial

end Sys2Proof.Laws.EncodedSize
end

