-- ==== Sys2Proof/Tests/Slice0.lean ====
section
/-! SUPPORT. Tests of the author: ill-formed terms, words written out from spec/30_encoding.md, one-step checks against the
vectors V<n> of spec/95_test_vectors.md, and for every statement with hypotheses a state and operands that meet them. -/
namespace Sys2Proof.Tests
open Sys2Proof.Machine
-- One test at a time: tests the kernel evaluates otherwise wait side by side, each in a thread of its own.
set_option Elab.async false

/-! ## Small states -/

/-- The defaults of R8, with the dispatch mode that dispatches once. -/
def cfg : Params := { Config.defaults with dispatchMode := .edge }

/-- A block at rest at those parameters. -/
def base : State := { State.reset with cfg := cfg }

/-- A target that drives one level. -/
def drive (b : Bool) : LineDrive := if b then .high else .low

/-- A target that answers the next samples with these levels. -/
def answering (bits : List Bool) (s : State) : State := { s with env := { s.env with target := bits.map drive } }

/-- The levels with which a target that never makes the block wait answers an instruction. -/
def answersFor (a : WireAccess) : List Bool :=
  match a with
  | .aw _ => []
  | .ar v => byteBits v
  | .dw _ => [true]
  | .dr v => true :: byteBits v

/-- A target that answers the instructions `l` so. -/
def cooperative (l : List WireAccess) (s : State) : State := answering (l.flatMap answersFor) s

/-- A target that holds the line at 0. -/
def lineLow (s : State) : State := { s with env := { s.env with targetRest := .low } }

/-- A block that waits in `Complete` with the frame `bytes`. -/
def framed (p : Params) (bytes : List Byte) : State :=
  { base with
    cfg := p
    frame := { fs := .complete, action := bytes.getD 0 0, length := bytes.getD 1 0, rem := 0
               cur := BitVec.ofNat 9 bytes.length }
    fb := (List.range bytes.length).zip bytes }

/-- A block whose transport holds these received bytes. -/
def receiving (bytes : List Byte) (s : State) : State := { s with env := { s.env with rx := bytes } }

/-- The scratch buffer filled from index 0. -/
def scratch (bytes : List Byte) (s : State) : State := { s with fl := (List.range bytes.length).zip bytes }

/-- The outcome is a next state, and the state passes `p`. -/
def check (o : Host.Outcome State Fault Refusal) (p : State → Bool) : Bool :=
  match o with
  | .next t => p t
  | _ => false

/-- The state of an outcome that has one. -/
def stateOf (o : Host.Outcome State Fault Refusal) : State :=
  match o with
  | .next t => t
  | _ => base

theorem next_of {o : Host.Outcome State Fault Refusal} (h : check o (fun _ => true) = true) : o = .next (stateOf o) := by
  cases o with
  | next t => rfl
  | fault r => cases h
  | refused r => cases h

/-! ## WellFormed refuses ill-formed terms -/

theorem test_payload_beyond_frame_buffer :
    ¬ WellFormed { cfg with nPayload := 1 } (.ack [1, 2]) ∧ ¬ WellFormed { cfg with nPayload := 1 } (.init [1, 2]) ∧
    ¬ WellFormed { cfg with nPayload := 1 } (.reset [1, 2]) ∧ ¬ WellFormed { cfg with nPayload := 1 } (.write [1, 2]) ∧
    ¬ WellFormed { cfg with nPayload := 1 } (.erase [1, 2]) ∧ ¬ WellFormed { cfg with nPayload := 1 } (.read [1, 2]) ∧
    ¬ WellFormed { cfg with nPayload := 1 } (.info [1, 2]) := by decide
theorem test_count_beyond_scratch_buffer :
    ¬ WellFormed { cfg with nFlash := 3 } (.blockRead 0 4) ∧ ¬ WellFormed { cfg with nFlash := 3 } (.blockWrite 0 4) ∧
    WellFormed { cfg with nFlash := 3 } (.blockRead 0 3) := by decide
theorem test_inadmissible_parameters :
    ¬ Params.Admissible { cfg with actRead := 1 } ∧ ¬ Params.Admissible { cfg with busyMask := 6 } ∧
    ¬ Params.Admissible { cfg with readyMask := 0 } ∧ ¬ Params.Admissible { cfg with readyMask := 2 } ∧
    ¬ Params.Admissible { cfg with nPayload := 256 } ∧ ¬ Params.Admissible { cfg with nFlash := 0 } := by decide

/-! ## Decoding: words written out from R91, R97, R100 to R103, R107 -/

theorem test_decode_frames :
    decode cfg (.frame [0x01, 0x00]) = .ok (.ack []) ∧ decode cfg (.frame [0x02, 0x00]) = .ok (.init []) ∧
    decode cfg (.frame [0x03, 0x00]) = .ok (.reset []) ∧
    decode cfg (.frame [0x04, 0x06, 0x01, 0x00, 0x07, 0x01, 0x02, 0x03]) = .ok (.write [1, 0, 7, 1, 2, 3]) ∧
    decode cfg (.frame [0x05, 0x02, 0xAA, 0xBB]) = .ok (.erase [0xAA, 0xBB]) ∧
    decode cfg (.frame [0x06, 0x04, 0x04, 0x00, 0x00, 0x00]) = .ok (.read [4, 0, 0, 0]) ∧
    decode cfg (.frame [0x09, 0x00]) = .ok (.info []) := by decide
/-- V5 to V9, V17: the words of the vectors. -/
theorem test_decode_wire_words :
    decode cfg (.wire 10 0b000000000011#12) = .ok (.addressWrite 0x00) ∧
    decode cfg (.wire 10 0b001010101011#12) = .ok (.addressWrite 0xAA) ∧
    decode cfg (.wire 10 0b001011010011#12) = .ok (.addressWrite 0xB4) ∧
    decode cfg (.wire 2 0b000000000010#12) = .ok .addressRead ∧
    decode cfg (.wire 12 0b101001010001#12) = .ok (.dataWrite 0xA5) ∧
    decode cfg (.wire 12 0b000000100001#12) = .ok (.dataWrite 0x02) ∧
    decode cfg (.wire 4 0b000000000000#12) = .ok .dataRead := by decide
/-- V21 to V23: the bytes written to `FPDAT`. -/
theorem test_decode_fpi_commands :
    decode cfg (.fpi [0x03]) = .ok .deviceErase ∧ decode cfg (.fpi [0x06, 0x12, 0x34, 0x02]) = .ok (.blockRead 0x1234 2) ∧
    decode cfg (.fpi [0x07, 0x01, 0x00, 0x03]) = .ok (.blockWrite 0x0100 3) := by decide
theorem test_decode_responses :
    [0x80, 0x81, 0x82, 0x83, 0x43, 0x84, 0x85, 0x88].map (fun c => (decode cfg (.response c)).toOption) =
      [some .rspAck, some .rspInit, some .rspReset, some .rspWrite, some .rspChecksumFail, some .rspErase,
        some .rspRead, some .rspInfo] := by decide
/-- R104, R111, R114, U17: what is no instruction is refused by name. -/
theorem test_decode_refuses :
    decode cfg (.frame [0x00, 0x00]) = .error (.unknownAction 0x00) ∧ decode cfg (.frame [0x01]) = .error .truncated ∧
    decode cfg (.frame [0x01, 0x01]) = .error .lengthMismatch ∧
    decode cfg (.wire 10 0x001#12) = .error (.badWireWord 10 0x001#12) ∧
    decode cfg (.wire 12 0x002#12) = .error (.badWireWord 12 0x002#12) ∧
    decode cfg (.fpi [0x06, 0x12]) = .error (.badFpi [0x06, 0x12]) ∧
    decode cfg (.response 0x86) = .error (.unknownResponse 0x86) := by decide
/-- The opcode table's numbering of bits, one word for each format (log 9). -/
theorem test_decode_table_words :
    decodeTableWord 8 0x01 = some (.ack []) ∧ decodeTableWord 16 0x2D3 = some (.addressWrite 0xB4) ∧
    decodeTableWord 16 0xA51 = some (.dataWrite 0xA5) ∧ decodeTableWord 8 0x00 = some .dataRead ∧
    decodeTableWord 8 0x07 = some (.blockWrite 0 0) ∧ decodeTableWord 8 0x43 = some .rspChecksumFail := by decide
theorem test_encode_words :
    encode cfg (.addressWrite 0xAA) = .wire 10 0x2AB#12 ∧ encode cfg (.dataWrite 0xDE) = .wire 12 0xDE1#12 ∧
    encode cfg (.blockWrite 0xFF01 0) = .fpi [0x07, 0xFF, 0x01, 0x00] := by decide

/-! ## One step of each instruction, against the vectors -/

/-- V7. -/
theorem test_addressWrite : check (exec (.addressWrite 0xAA) base) (fun t =>
    t.pins.dout && t.pins.ck && !t.pins.doe && pulses t.log.trace == 12 &&
      drivenBits t.log.trace.reverse == [true, true, false, true, false, true, false, true, false, true]) = true := by
  decide +kernel
/-- V10. -/
theorem test_addressRead : check (exec .addressRead (answering [false, true, false, false, false, false, false, false] base))
    (fun t => t.work.v == 0x02 && t.pins.dout && pulses t.log.trace == 12) = true := by decide +kernel
/-- V12. -/
theorem test_dataWrite : check (exec (.dataWrite 0x02) (answering [false, true] base)) (fun t =>
    pulses t.log.trace == 16 && t.log.issued == [.dw 0x02] &&
      drivenBits t.log.trace.reverse == [true, false, false, false, false, true, false, false, false, false, false, false])
    = true := by decide +kernel
/-- V14. -/
theorem test_dataWrite_held : check (exec (.dataWrite 0x02) (lineLow base)) (fun t =>
    t.pins.irqm && !t.pins.doe && pulses t.log.trace == 14 && t.seq.wire == some (.dataWrite 0x02)) = true := by
  decide +kernel
/-- V16. -/
theorem test_dataRead : check (exec .dataRead (answering ([false, false, true] ++
    [true, false, true, false, false, true, false, true]) base)) (fun t =>
    t.work.v == 0xA5 && pulses t.log.trace == 17 && !t.pins.dout) = true := by decide +kernel

/-- V21. -/
def eraseTraffic : List WireAccess :=
  [.aw 0xB4, .dw 0x03, .ar 1, .ar 1, .dr 0x0D, .dw 0xDE, .ar 0, .dw 0xAD, .ar 0, .dw 0xA5, .ar 1, .ar 1, .dr 0x0D]
/-- V23. -/
def writeTraffic : List WireAccess :=
  [.aw 0xB4, .dw 0x07, .ar 1, .ar 1, .dr 0x0D, .dw 0x01, .ar 0, .dw 0x00, .ar 0, .dw 0x03, .ar 0, .dw 0x01, .ar 0,
    .dw 0x02, .ar 0, .dw 0x03, .ar 1, .ar 1, .dr 0x0D]
/-- V22. -/
def readTraffic : List WireAccess :=
  [.aw 0xB4, .dw 0x06, .ar 1, .ar 1, .dr 0x0D, .dw 0x12, .ar 0, .dw 0x34, .ar 0, .dw 0x02, .ar 1, .ar 1, .dr 0x0D,
    .ar 1, .dr 0xAB, .ar 1, .dr 0xCD]

theorem test_deviceErase : check (exec .deviceErase (cooperative eraseTraffic base)) (fun t =>
    t.log.issued.reverse == eraseTraffic && pulses t.log.trace == 174 && t.work.res == .ok && t.work.idx == 2 && t.seq.idle) = true := by
  decide +kernel
/-- V24. -/
theorem test_deviceErase_refused :
    check (exec .deviceErase (cooperative [.aw 0xB4, .dw 0x03, .ar 1, .ar 1, .dr 0x00] base)) (fun t =>
      t.log.issued.length == 5 && pulses t.log.trace == 66 && t.work.res == .fail && t.seq.idle) = true := by
  decide +kernel
theorem test_blockRead : check (exec (.blockRead 0x1234 2) (cooperative readTraffic base)) (fun t =>
    t.log.issued.reverse == readTraffic && pulses t.log.trace == 228 && t.fl == [(0, 0xAB), (1, 0xCD)] &&
      t.work.res == .ok) = true := by decide +kernel
theorem test_blockWrite : check (exec (.blockWrite 0x0100 3) (scratch [1, 2, 3] (cooperative writeTraffic base))) (fun t =>
    t.log.issued.reverse == writeTraffic && pulses t.log.trace == 255 && t.work.res == .ok && t.work.cnt == 3) = true := by decide +kernel
/-- V41. -/
theorem test_ack : check (exec (.ack []) (framed cfg [1, 0])) (fun t =>
    t.env.tx == [0x80] && t.frame.fs == .awaitingAction) = true := by decide +kernel
/-- V42. -/
theorem test_init : check (exec (.init []) (cooperative [.dw 2, .dw 4, .dw 1, .dr 0x30, .dr 0x01] (framed cfg [2, 0])))
    (fun t => t.env.tx == [0x81] && t.dev == ⟨0x30, 0x01⟩ && t.pins.led && pulses t.log.trace == 112 &&
      t.log.issued.length == 8) = true := by decide +kernel
/-- V43. -/
theorem test_reset : check (exec (.reset []) { framed cfg [3, 0] with pins := { base.pins with led := true } }) (fun t =>
    t.env.tx == [0x82] && !t.pins.led && t.frame.fs == .awaitingAction) = true := by decide +kernel
/-- V44. -/
theorem test_write : check (exec (.write [1, 0, 7, 1, 2, 3]) (cooperative writeTraffic (framed cfg [4, 6, 1, 0, 7, 1, 2, 3])))
    (fun t => t.env.tx == [0x83] && t.fl == [(0, 1), (1, 2), (2, 3)] && t.log.issued.reverse == writeTraffic &&
      t.frame.fs == .awaitingAction) = true := by decide +kernel
/-- V45. -/
theorem test_write_mismatch : check (exec (.write [1, 0, 8, 1, 2, 3]) (framed cfg [4, 6, 1, 0, 8, 1, 2, 3])) (fun t =>
    t.env.tx == [0x43] && t.log.issued == [] && t.frame.fs == .complete && t.work.sum == 7 && t.work.cks == 8) = true := by
  decide +kernel
/-- V49. -/
theorem test_erase : check (exec (.erase []) (cooperative eraseTraffic (framed cfg [5, 0]))) (fun t =>
    t.env.tx == [0x84] && t.log.issued.reverse == eraseTraffic && t.frame.fs == .awaitingAction) = true := by
  decide +kernel
/-- V52, with the data of V22. -/
theorem test_read : check (exec (.read [2, 1, 0x12, 0x34]) (cooperative readTraffic (framed cfg [6, 4, 2, 1, 0x12, 0x34])))
    (fun t => t.env.tx == [0x85, 0xAB, 0xCD] && t.log.issued.reverse == readTraffic && t.work.addr == 0x011234) = true := by
  decide +kernel
/-- V53. -/
theorem test_read_refused : check (exec (.read [4, 0, 0, 0]) (scratch [0xA0, 0xA1, 0xA2, 0xA3]
    (cooperative [.aw 0xB4, .dw 0x06, .ar 1, .ar 1, .dr 0x00] (framed cfg [6, 4, 4, 0, 0, 0])))) (fun t =>
      t.env.tx == [0x85, 0xA0, 0xA1, 0xA2, 0xA3] && t.log.issued.length == 5) = true := by decide +kernel
/-- V55. -/
theorem test_info : check (exec (.info []) { framed cfg [9, 0] with dev := ⟨0x30, 0x01⟩ }) (fun t =>
    t.env.tx == [0x88, 0x30, 0x01] && t.frame.fs == .awaitingAction) = true := by decide +kernel
/-- R97: the bytes of the responses. -/
theorem test_responses :
    ([.rspAck, .rspInit, .rspReset, .rspWrite, .rspChecksumFail, .rspErase].map fun i => (stateOf (exec i base)).env.tx) =
      [[0x80], [0x81], [0x82], [0x83], [0x43], [0x84]] := by decide +kernel
theorem test_rspRead : check (exec .rspRead (scratch [7, 8] { base with work := { base.work with cnt := 2 } })) (fun t =>
    t.env.tx == [0x85, 7, 8]) = true := by decide +kernel
theorem test_rspInfo : check (exec .rspInfo { base with dev := ⟨0x30, 0x01⟩ }) (fun t =>
    t.env.tx == [0x88, 0x30, 0x01]) = true := by decide +kernel

/-! ## Steps -/

/-- V34, V35: the framer. -/
theorem test_step_takes_a_byte : check (step (receiving [1, 0] base)) (fun t =>
    t.frame.fs == .awaitingLength && t.env.rx == [0] && t.fb == [(0, 1)]) = true := by decide +kernel
/-- R217: `EDGE` does nothing in `Complete`, `LEVEL` dispatches again. -/
theorem test_step_in_complete :
    check (step (framed cfg [1, 0])) (fun t => t.env.tx == [] && t.frame.fs == .complete) = true ∧
    check (step (framed { cfg with dispatchMode := .level } [1, 0])) (fun t => t.env.tx == [0x80]) = true := by
  decide +kernel
/-- R290: a reset in the middle of an instruction keeps the events up to there and nothing else. -/
theorem test_step_reset_mid_instruction :
    check (step { base with seq := { entry := some (.wire 10 0x2D3#12) }, env := { base.env with resetIn := some 8 } }) (fun t =>
      t.log.trace.length == 8 && t.log.issued == [] && t.seq.idle && !t.pins.irqm && t.epoch == 1) = true := by
  decide +kernel
/-- R266, R290: a length byte above `N_PAYLOAD` and a reset that comes right after the byte, or later than the fault. -/
def overlong (k : Nat) : State :=
  { receiving [17, 5] { base with cfg := { cfg with nPayload := 16 }
                                  frame := { base.frame with fs := .awaitingLength, action := 6, cur := 1 }
                                  fb := [(0, 6)] } with
    env := { base.env with rx := [17, 5], resetIn := some k } }
theorem test_step_reset_and_fault :
    check (step (overlong 0)) (fun t => t.env.rx == [17, 5] && t.log.trace == [] && t.epoch == 1) = true ∧
    check (step (overlong 1)) (fun t => t.env.rx == [5] && t.log.trace == [.rx 17] && t.epoch == 1) = true ∧
    step (overlong 2) = .fault .overflow := by
  refine ⟨by decide +kernel, by decide +kernel, rfl⟩
/-- Log 9: an instruction placed where the step fetches is the one that runs. -/
theorem test_withFetchWord :
    check (step (base.withFetchWord 8 0x03)) (fun t => t.env.tx == [0x82]) = true ∧
    check (step (base.withFetchWord 16 0xA51)) (fun t => t.log.issued == [.dw 0xA5]) = true ∧
    check (step (base.withFetchWord 8 0x88)) (fun t => t.env.tx.head? == some 0x88) = true := by decide +kernel

/-! ## Exchanges for the witnesses -/

/-- `W(x)` and `R(v)` with no extra poll. -/
def w (x : Byte) : List WireAccess := [.dw x, .ar 0]
def r (v : Byte) : List WireAccess := [.ar 1, .dr v]

/-- The common head, the erase, the block read and the block write of those. -/
def opening (code ack : Byte) : List WireAccess := .aw 0xB4 :: (w code ++ r ack)
def erasing (ack : Byte) : List WireAccess := opening 3 0x0D ++ (Config.eraseKey.flatMap w ++ r ack)
def reading (address : Addr16) (vs : List Byte) : List WireAccess :=
  opening 6 0x0D ++
    ([addrHigh address, addrLow address, BitVec.ofNat 8 vs.length].flatMap w ++ (r 0x55 ++ vs.flatMap r))
def writing (address : Addr16) (xs : List Byte) (ack : Byte) : List WireAccess :=
  opening 7 0x0D ++
    ((addrHigh address :: addrLow address :: BitVec.ofNat 8 xs.length :: xs).flatMap w ++ r ack)

theorem writeStep_w (x : Byte) : WriteStep cfg x (w x) := ⟨[.ar 0], ⟨[], 0, rfl, by simp, by decide⟩, rfl⟩
theorem readStep_r (v : Byte) : ReadStep cfg v (r v) := ⟨[.ar 1], ⟨[], 1, rfl, by simp, by decide⟩, rfl⟩
theorem writeSteps_w (xs : List Byte) : WriteSteps cfg xs (xs.flatMap w) := by
  induction xs with
  | nil => rfl
  | cons x rest ih => exact ⟨w x, rest.flatMap w, rfl, writeStep_w x, ih⟩
theorem readSteps_r (vs : List Byte) : ReadSteps cfg vs (vs.flatMap r) := by
  induction vs with
  | nil => rfl
  | cons v rest ih => exact ⟨r v, rest.flatMap r, rfl, readStep_r v, ih⟩
theorem openRun_opening (code ack : Byte) : OpenRun cfg code ack (opening code ack) :=
  ⟨w code, r ack, rfl, writeStep_w code, readStep_r ack⟩
theorem eraseRun_erasing (ack : Byte) : EraseRun cfg ack (erasing ack) :=
  ⟨opening 3 0x0D, _, r ack, rfl, openRun_opening 3 0x0D, writeSteps_w _, readStep_r ack⟩
theorem blockReadRun_reading (address : Addr16) (vs : List Byte) (h : vs.length < 256) :
    BlockReadRun cfg address (BitVec.ofNat 8 vs.length) vs (reading address vs) :=
  ⟨by simp; omega, opening 6 0x0D, _, r 0x55, _, 0x55, rfl, openRun_opening 6 0x0D, writeSteps_w _, readStep_r 0x55,
    readSteps_r vs⟩
theorem blockWriteRun_writing (address : Addr16) (xs : List Byte) (ack : Byte) :
    BlockWriteRun cfg address xs ack (writing address xs ack) :=
  ⟨opening 7 0x0D, _, r ack, rfl, openRun_opening 7 0x0D, writeSteps_w _, readStep_r ack⟩
theorem level_drive (bits : List Bool) : (bits.map drive).map LineDrive.level = bits := by
  induction bits with
  | nil => rfl
  | cons b rest ih => simp only [List.map_cons, ih]; cases b <;> rfl
/-- A cooperative target answers the instructions it was made for. -/
theorem answersAll_cooperative (l : List WireAccess) : AnswersAll l ((l.flatMap answersFor).map drive) := by
  induction l with
  | nil => rfl
  | cons a rest ih =>
    refine ⟨(answersFor a).map drive, _, by rw [List.flatMap_cons, List.map_append], ?_, ih⟩
    cases a with
    | aw x => rfl
    | ar v => exact level_drive _
    | dw d => exact ⟨0, level_drive _⟩
    | dr v => exact ⟨0, level_drive _⟩
/-- The state whose target answers `l`, as the statements ask for it. -/
theorem cooperative_target (l : List WireAccess) (s : State) :
    (cooperative l s).env.target = (l.flatMap answersFor).map drive ++ [] := by rw [List.append_nil]; rfl

/-! ## States and operands that meet the hypotheses of the statements -/

theorem witness_DecodeEncodeRoundTrip : cfg.Admissible ∧ cfg.fpiCodes.Nodup ∧
    WellFormed cfg (.write (List.replicate 255 0xA5)) ∧ WellFormed cfg (.blockRead 0xFFFF 0xFF) := by decide +kernel
theorem witness_AcceptedFormsAreEncodings :
    decode cfg (.frame [0x05, 0x01, 0xFF]) = .ok (.erase [0xFF]) ∧ decode cfg (.wire 12 0xFF1#12) = .ok (.dataWrite 0xFF) := by
  decide
theorem witness_DataWriteEffect :
    base.answers 1 = waits 0 ∧
    (answering [false, false, false, true] base).answers 4 = waits 3 ∧
      3 < (answering [false, false, false, true] base).env.target.length := by decide
theorem witness_DataReadEffect :
    base.answers 9 = waits 0 ++ byteBits 0xFF ∧
    (answering (waits 2 ++ byteBits 0x0D) base).answers 11 = waits 2 ++ byteBits 0x0D ∧
      2 < (answering (waits 2 ++ byteBits 0x0D) base).env.target.length := by decide
/-- V13 with V16. -/
theorem witness_DataRoundTrip : ∃ s t : State, s.answers 1 = waits 0 ∧ exec (.dataWrite 0xA5) s = .next t ∧
    t.answers 11 = waits 2 ++ (drivenBits (newEvents s t)).drop 4 ∧ 2 < t.env.target.length :=
  ⟨answering ([true] ++ waits 2 ++ byteBits 0xA5) base, _, by decide, next_of (by decide +kernel), by decide +kernel,
    by decide +kernel⟩
theorem witness_InstructionPulseCounts : base.answers 1 = waits 0 ∧ base.answers 9 = waits 0 ++ byteBits 0xFF := by decide
theorem witness_DataInstructionHeld : (lineLow base).env.target = [] ∧ (lineLow base).env.targetRest = .low := by decide

/-- A block held in the wait field of a data instruction. -/
def held (k : WireWait) : State :=
  { lineLow base with seq := { wire := some k }, pins := { base.pins with irqm := true } }

theorem witness_WaitFieldHangs : (held .dataRead).cfg.Admissible ∧ (held .dataRead).env.resetIn = none ∧
    (held .dataRead).seq.entry = none ∧ (held .dataRead).seq.wire = some .dataRead ∧ (held .dataRead).pins.doe = false ∧
    (held .dataRead).pins.irqm = true ∧ (held .dataRead).env.target = [] ∧ (held .dataRead).env.targetRest = .low := by
  decide
/-- One that waits inside ERASE, and one that waits on its own. -/
theorem witness_HeldInstructionEnds : cfg.Admissible ∧
    (∃ s : State, s.cfg = cfg ∧ s.env.resetIn = none ∧ s.seq.entry = none ∧ s.pins.doe = false ∧
      s.seq.wire = some (.dataWrite 0xDE) ∧ s.seq.flash = .pollBitLow 0x02 :: fpiAck cfg ∧
      s.seq.cmd = [.frameReset, .tx 0x84] ∧ s.answers 2 = waits 1 ∧ 1 < s.env.target.length) ∧
    ∃ s : State, s.cfg = cfg ∧ s.env.resetIn = none ∧ s.pins.doe = false ∧ s.seq = { wire := some .dataRead } ∧
      s.answers 9 = waits 0 ++ byteBits 0x80 :=
  ⟨by decide, ⟨{ answering (waits 1) (held (.dataWrite 0xDE)) with
      seq := { wire := some (.dataWrite 0xDE), flash := .pollBitLow 0x02 :: fpiAck cfg
               cmd := [.frameReset, .tx 0x84] } }, by decide⟩,
    answering (waits 0 ++ byteBits 0x80) (held .dataRead), by decide⟩
theorem witness_PollsReadUntilCondition :
    (∃ s : State, ∃ ds rest, s.env.target = ds ++ rest ∧ AnswersAll (([0x00, 0x02] ++ [0x01]).map .ar) ds ∧
      (∀ f ∈ [0x00, 0x02], f &&& (0x01 : Byte) = 0) ∧ (0x01 : Byte) &&& 0x01 ≠ 0) ∧
    ∃ s : State, ∃ ds rest, s.env.target = ds ++ rest ∧ AnswersAll (([] ++ [0x01]).map .ar) ds ∧
      (∀ f ∈ ([] : List Byte), f &&& (0x02 : Byte) ≠ 0) ∧ (0x01 : Byte) &&& 0x02 = 0 :=
  ⟨⟨cooperative (([0x00, 0x02] ++ [0x01]).map .ar) base, _, _, cooperative_target _ _, answersAll_cooperative _, by decide,
      by decide⟩,
    ⟨cooperative (([] ++ [0x01]).map .ar) base, _, _, cooperative_target _ _, answersAll_cooperative _, by simp, by decide⟩⟩
theorem witness_PollHangs : cfg.Admissible ∧
    (∃ s : State, s.cfg = cfg ∧ s.env.resetIn = none ∧ s.seq.entry = none ∧ s.seq.wire = none ∧ s.env.target = [] ∧
      s.seq.flash = [.pollBitLow 0x02] ∧ byteOfBits (List.replicate 8 s.env.targetRest.level) &&& 0x02 ≠ 0) ∧
    ∃ s : State, s.cfg = cfg ∧ s.env.resetIn = none ∧ s.seq.entry = none ∧ s.seq.wire = none ∧ s.env.target = [] ∧
      s.seq.flash = [.pollBitHigh 0x01, .dataRead] ∧ byteOfBits (List.replicate 8 s.env.targetRest.level) &&& 0x01 = 0 :=
  ⟨by decide, ⟨{ base with seq := { flash := [.pollBitLow 0x02] } }, by decide⟩,
    { lineLow base with seq := { flash := [.pollBitHigh 0x01, .dataRead] } }, by decide⟩
theorem witness_EraseExchange : ∃ s : State, ∃ l ds rest,
    EraseRun s.cfg 0x0D l ∧ AnswersAll l ds ∧ s.env.target = ds ++ rest :=
  ⟨cooperative (erasing 0x0D) base, _, _, _, eraseRun_erasing 0x0D, answersAll_cooperative _, cooperative_target _ _⟩
theorem witness_BlockReadExchange : ∃ s : State, ∃ l ds rest, CountFits s.cfg 0x02 ∧
    BlockReadRun s.cfg 0x1234 0x02 [0xAB, 0xCD] l ∧ AnswersAll l ds ∧ s.env.target = ds ++ rest :=
  ⟨cooperative (reading 0x1234 [0xAB, 0xCD]) base, _, _, _, by decide, blockReadRun_reading 0x1234 [0xAB, 0xCD] (by decide),
    answersAll_cooperative _, cooperative_target _ _⟩
theorem witness_BlockWriteExchange : ∃ s : State, ∃ l ds rest, CountFits s.cfg 0x02 ∧
    BlockWriteRun s.cfg 0x0100 ((List.range (0x02 : Byte).toNat).map s.flByte) 0x00 l ∧ AnswersAll l ds ∧
    s.env.target = ds ++ rest :=
  ⟨scratch [1, 2] (cooperative (writing 0x0100 [1, 2] 0x00) base), _, _, _, by decide,
    blockWriteRun_writing 0x0100 [1, 2] 0x00, answersAll_cooperative _, cooperative_target _ _⟩
theorem witness_FirstAckMismatchEndsOperation : ∃ s : State, ∃ l ds rest,
    CountFits s.cfg 0xFF ∧ OpenRun s.cfg s.cfg.fpiBlockWrite 0x00 l ∧ (0x00 : Byte) ≠ Config.ackOk ∧ AnswersAll l ds ∧
    s.env.target = ds ++ rest :=
  ⟨cooperative (opening 7 0x00) base, _, _, _, by decide, openRun_opening 7 0x00, by decide, answersAll_cooperative _,
    cooperative_target _ _⟩
theorem witness_FirstAckMismatchEndsOperation_others : ∃ s t : State, ∃ l m ds es,
    CountFits t.cfg 0x00 ∧ OpenRun s.cfg s.cfg.fpiDeviceErase 0xFF l ∧ OpenRun t.cfg t.cfg.fpiBlockRead 0x0C m ∧
    AnswersAll l ds ∧ AnswersAll m es ∧ s.env.target = ds ++ [] ∧ t.env.target = es ++ [] :=
  ⟨cooperative (opening 3 0xFF) base, cooperative (opening 6 0x0C) base, _, _, _, _, by decide, openRun_opening 3 0xFF,
    openRun_opening 6 0x0C, answersAll_cooperative _, answersAll_cooperative _, cooperative_target _ _,
    cooperative_target _ _⟩
theorem witness_BlockCountBeyondScratchFaults : ¬ CountFits { cfg with nFlash := 3 } 0x04 ∧
    ¬ CountFits { cfg with nFlash := 254 } 0xFF := by decide

/-- A transport that accepts: the hypothesis of the three commands and the seven responses that only answer. -/
theorem witness_AckCommandEffect : base.env.txGateRest = true := rfl
theorem witness_ResetCommandEffect : base.env.txGateRest = true := rfl
theorem witness_InfoCommandEffect : base.env.txGateRest = true := rfl
theorem witness_InfoResponseEffect : base.env.txGateRest = true := rfl
theorem witness_SingleByteResponses : base.env.txGateRest = true ∧
    (Instr.rspChecksumFail, (0x43 : Byte)) ∈ [(Instr.rspAck, (0x80 : Byte)), (.rspInit, 0x81), (.rspReset, 0x82),
      (.rspWrite, 0x83), (.rspChecksumFail, 0x43), (.rspErase, 0x84)] := by decide
theorem witness_ReadResponseEffect : base.env.txGateRest = true ∧ CountFits cfg base.work.cnt ∧ CountFits cfg 0xFF ∧
    ¬ CountFits { cfg with nFlash := 254 } 0xFF := by decide
theorem witness_InitCommandEffect : ∃ s : State, ∃ ds rest, s.env.txGateRest = true ∧ s.env.target = ds ++ rest ∧
    ds.map LineDrive.level =
      waits 0 ++ (waits 1 ++ (waits 2 ++ (waits 0 ++ byteBits 0x30 ++ (waits 3 ++ byteBits 0x01)))) :=
  ⟨answering (waits 0 ++ (waits 1 ++ (waits 2 ++ (waits 0 ++ byteBits 0x30 ++ (waits 3 ++ byteBits 0x01))))) base, _, [], rfl,
    (List.append_nil _).symm, level_drive _⟩
theorem witness_InitWithoutTarget :
    base.env.txGateRest = true ∧ base.env.target = [] ∧ base.env.targetRest = .released := by decide
/-- V45, and V46 with a wrong checksum. -/
theorem witness_WriteChecksumMismatch : base.env.txGateRest = true ∧ [1, 2, 3].length ≤ base.cfg.nFlash ∧
    checksum 0x01 0x00 [1, 2, 3] ≠ 0x08 ∧ checksum 0xFF 0x01 [] ≠ 0x01 := by decide
/-- V44, V46, and the longest data a frame carries. -/
theorem witness_WriteCommandEffect : ∃ s : State, ∃ l ds rest, s.env.txGateRest = true ∧ [1, 2, 3].length ≤ s.cfg.nFlash ∧
    [1, 2, 3].length ≤ 252 ∧ checksum 0x01 0x00 [1, 2, 3] = 0x07 ∧
    BlockWriteRun s.cfg ((0x01 : Byte) ++ (0x00 : Byte)) [1, 2, 3] 0x0D l ∧ AnswersAll l ds ∧ s.env.target = ds ++ rest :=
  ⟨cooperative (writing 0x0100 [1, 2, 3] 0x0D) base, _, _, _, rfl, by decide, by decide, by decide,
    blockWriteRun_writing 0x0100 [1, 2, 3] 0x0D, answersAll_cooperative _, cooperative_target _ _⟩
theorem witness_WriteCommandEffect_refused : ∃ s : State, ∃ l ds rest, s.env.txGateRest = true ∧
    (List.replicate 252 (0 : Byte)).length ≤ s.cfg.nFlash ∧ (List.replicate 252 (0 : Byte)).length ≤ 252 ∧
    checksum 0xFF 0x01 (List.replicate 252 0) = 0x00 ∧ (0x00 : Byte) ≠ Config.ackOk ∧
    OpenRun s.cfg s.cfg.fpiBlockWrite 0x00 l ∧ AnswersAll l ds ∧ s.env.target = ds ++ rest :=
  ⟨cooperative (opening 7 0x00) base, _, _, _, rfl, by decide +kernel, by decide +kernel, by decide +kernel, by decide,
    openRun_opening 7 0x00,
    answersAll_cooperative _, cooperative_target _ _⟩
theorem witness_EraseCommandEffect : ∃ s t : State, ∃ l m ds es, s.env.txGateRest = true ∧ t.env.txGateRest = true ∧
    EraseRun s.cfg 0x00 l ∧ OpenRun t.cfg t.cfg.fpiDeviceErase 0x00 m ∧ (0x00 : Byte) ≠ Config.ackOk ∧ AnswersAll l ds ∧
    AnswersAll m es ∧ s.env.target = ds ++ [] ∧ t.env.target = es ++ [] :=
  ⟨cooperative (erasing 0x00) base, cooperative (opening 3 0x00) base, _, _, _, _, rfl, rfl, eraseRun_erasing 0x00,
    openRun_opening 3 0x00, by decide, answersAll_cooperative _, answersAll_cooperative _, cooperative_target _ _,
    cooperative_target _ _⟩
theorem witness_ReadCommandEffect : ∃ s : State, ∃ l ds rest, s.env.txGateRest = true ∧ CountFits s.cfg 0x02 ∧
    BlockReadRun s.cfg ((0x12 : Byte) ++ (0x34 : Byte)) 0x02 [0x5A, 0xA5] l ∧ AnswersAll l ds ∧ s.env.target = ds ++ rest :=
  ⟨cooperative (reading 0x1234 [0x5A, 0xA5]) base, _, _, _, rfl, by decide, blockReadRun_reading 0x1234 [0x5A, 0xA5] (by decide),
    answersAll_cooperative _, cooperative_target _ _⟩
theorem witness_ReadAfterFailureSendsStaleBytes : ∃ s : State, ∃ l ds rest, s.env.txGateRest = true ∧ CountFits s.cfg 0xFF ∧
    (0x00 : Byte) ≠ Config.ackOk ∧ OpenRun s.cfg s.cfg.fpiBlockRead 0x00 l ∧ AnswersAll l ds ∧ s.env.target = ds ++ rest :=
  ⟨cooperative (opening 6 0x00) base, _, _, _, rfl, by decide, by decide, openRun_opening 6 0x00, answersAll_cooperative _,
    cooperative_target _ _⟩
/-- V58, and the counts just above the buffer. -/
theorem witness_ShortAndLargeFramesFault : ([1, 0] : List Byte).length < 3 ∧ ([4, 0, 0] : List Byte).length < 4 ∧
    ({ cfg with nFlash := 1 } : Params).nFlash < ([1, 0, 8, 5, 2] : List Byte).length - 3 ∧
    4 ≤ ([2, 0, 0, 0] : List Byte).length ∧
    ({ cfg with nFlash := 1 } : Params).nFlash < (([2, 0, 0, 0] : List Byte).headD 0).toNat := by decide
/-- At a response code, at a byte of `FL` and at both bytes of INFO. -/
theorem witness_DecliningTransportHolds :
    ∀ op ∈ [CmdOp.tx 0x80, .txFl 255, .txDevId, .txDevRev], ∃ s : State, s.cfg.Admissible ∧ s.env.resetIn = none ∧
      s.seq = { cmd := [op] } ∧ s.env.txGateRest = false ∧ s.env.txGate = [] :=
  fun op _ => ⟨{ base with seq := { cmd := [op] }, env := { base.env with txGateRest := false } },
    (by decide : cfg.Admissible), rfl, rfl, rfl, rfl⟩

/-- A block that has taken the action byte `06`, at a frame buffer of 16 payload bytes. -/
def hasAction : State :=
  { base with
    cfg := { cfg with nPayload := 16 }
    frame := { base.frame with fs := .awaitingLength, action := 6, cur := 1 }
    fb := [(0, 6)] }

/-- A block that has taken `06 02`, and then one payload byte. -/
def hasLength : State :=
  { hasAction with
    frame := { fs := .awaitingPayload, action := 6, length := 2, rem := 2, cur := 2 }
    fb := [(0, 6), (1, 2)] }
def hasPayload : State :=
  { hasAction with
    frame := { fs := .awaitingPayload, action := 6, length := 2, rem := 1, cur := 3 }
    fb := [(0, 6), (1, 2), (2, 9)] }

theorem witness_ActionByteStored : base.frame.fs = .awaitingAction := rfl
theorem witness_LengthByteStored : hasAction.frame.fs = .awaitingLength ∧ FramingInv hasAction ∧
    hasAction.cfg.nPayload < (17 : Byte).toNat ∧ (16 : Byte).toNat ≤ hasAction.cfg.nPayload ∧
    (0 : Byte).toNat ≤ hasAction.cfg.nPayload := ⟨rfl, ⟨rfl, rfl, .inl rfl⟩, by decide, by decide, by decide⟩
theorem witness_PayloadByteStored : hasLength.frame.fs = .awaitingPayload ∧ FramingInv hasLength ∧
    hasPayload.frame.fs = .awaitingPayload ∧ FramingInv hasPayload ∧ hasPayload.frame.rem = 1 :=
  ⟨rfl, ⟨rfl, rfl, by decide, by decide, by decide, by decide, by decide⟩, rfl,
    ⟨rfl, rfl, by decide, by decide, by decide, by decide, by decide⟩, rfl⟩
/-- A frame that decodes, the longest there is, and one with an unknown action; the shortest has no payload. -/
theorem witness_FrameAssembledAndDispatched : cfg.Admissible ∧ base.env.resetIn = none ∧ base.seq.idle = true ∧
    base.frame.fs = .awaitingAction ∧ (List.replicate 255 (0xFF : Byte)).length ≤ cfg.nPayload ∧
    (receiving (frameBytes 1 [] ++ [1, 0]) base).env.rx = frameBytes 1 [] ++ [1, 0] ∧
    decodeFrame cfg (frameBytes 5 (List.replicate 255 0xFF)) = .ok (.erase (List.replicate 255 0xFF)) ∧
    (0x00 : Byte) ∉ cfg.actionCodes := by decide +kernel
theorem witness_StepRunsDecodedFrame : ∃ s q : State, s.cfg.Admissible ∧ s.env.resetIn = none ∧ s.seq.idle = true ∧
    s.seq.entry = none ∧ s.frame.fs ≠ .complete ∧ s.env.rx = 0 :: [7] ∧
    frameStep 0 (emit (.rx 0) { s with env := { s.env with rx := [7] } }) = .next q ∧ q.frame.fs = .complete ∧
    decodeFrame q.cfg (fetchFrame q) = .ok (.ack []) ∧ WellFormed q.cfg (.ack []) :=
  ⟨receiving [0, 7] { base with frame := { base.frame with fs := .awaitingLength, action := 1, cur := 1 }, fb := [(0, 1)] }, _,
    by decide, rfl, rfl, rfl, by decide, rfl, next_of (by decide), by decide, by decide, by decide⟩
theorem witness_StepRunsDecodedEntry : ∃ s : State, s.cfg.Admissible ∧ s.env.resetIn = none ∧
    s.seq.entry = some (.fpi [0x06, 0x12, 0x34, 0x02]) ∧ decode s.cfg (.fpi [0x06, 0x12, 0x34, 0x02]) = .ok (.blockRead 0x1234 2) :=
  ⟨{ base with seq := { entry := some (.fpi [0x06, 0x12, 0x34, 0x02]) } }, by decide⟩
theorem witness_IdlePassDoesNothing : base.cfg.Admissible ∧ base.env.resetIn = none ∧ base.seq.idle = true ∧
    base.env.rx = [] ∧ base.frame.fs ≠ .complete := by decide
theorem heldComplete_framed (bytes : List Byte) (m : DispatchMode) :
    (framed { cfg with dispatchMode := m } bytes).heldComplete :=
  ⟨rfl, rfl, rfl, (by decide : cfg.Admissible)⟩
theorem witness_CompletePassTakesNoByte : (framed { cfg with dispatchMode := .level } [1, 0]).heldComplete ∧
    (framed { cfg with dispatchMode := .edge } [1, 0]).heldComplete := ⟨heldComplete_framed _ _, heldComplete_framed _ _⟩
theorem witness_OneByteTakenPerPass : ∃ t, (receiving [1, 0] base).env.resetIn = none ∧ step (receiving [1, 0] base) = .next t :=
  ⟨_, rfl, next_of (by decide +kernel)⟩
theorem witness_UnknownActionStalls : (framed cfg [0, 0]).heldComplete ∧
    (framed cfg [0, 0]).frame.length.toNat ≤ cfg.nPayload ∧ (framed cfg [0, 0]).frame.action ∉ cfg.actionCodes :=
  ⟨heldComplete_framed _ .edge, by decide, by decide⟩
theorem witness_EdgeStallIsSilent : (framed cfg [1, 0]).heldComplete ∧ (framed cfg [1, 0]).cfg.dispatchMode = .edge :=
  ⟨heldComplete_framed _ .edge, rfl⟩

/-- V45 under `LEVEL`, and the shortest such frame. -/
def badWrite : State := framed { cfg with dispatchMode := .level } [4, 6, 1, 0, 8, 1, 2, 3]
def shortBadWrite : State := framed { cfg with dispatchMode := .level } [4, 3, 0xFF, 1, 1]

theorem witness_LevelChecksumStallStreams : badWrite.heldComplete ∧ badWrite.cfg.dispatchMode = .level ∧
    badWrite.env.txGateRest = true ∧ badWrite.frame.action = badWrite.cfg.actWrite ∧ 3 ≤ badWrite.frame.length.toNat ∧
    badWrite.frame.length.toNat ≤ badWrite.cfg.nPayload ∧ badWrite.frame.length.toNat - 3 ≤ badWrite.cfg.nFlash ∧
    checksum (badWrite.fbByte 2) (badWrite.fbByte 3) ((List.range 3).map fun i => badWrite.fbByte (i + 5)) ≠
      badWrite.fbByte 4 :=
  ⟨heldComplete_framed _ .level, rfl, rfl, rfl, by decide, by decide, by decide, by decide⟩
theorem witness_LevelChecksumStallStreams_shortest : shortBadWrite.heldComplete ∧ 3 ≤ shortBadWrite.frame.length.toNat ∧
    checksum (shortBadWrite.fbByte 2) (shortBadWrite.fbByte 3) [] ≠ shortBadWrite.fbByte 4 :=
  ⟨heldComplete_framed _ .level, by decide, by decide⟩
theorem witness_EraseWithoutTargetHangs : base.cfg.Admissible ∧ base.env.resetIn = none ∧ base.seq = {} ∧
    base.env.target = [] ∧ base.env.targetRest = .released := by decide
theorem witness_InstructionsKeepFrameBuffer : ∃ t u, exec (.ack []) (framed cfg [1, 0]) = .next t ∧
    exec (.dataWrite 0) (lineLow base) = .next u := ⟨_, _, next_of (by decide +kernel), next_of (by decide +kernel)⟩
theorem witness_OnlyInitWritesDeviceInfo : ∃ t, (∀ payload, Instr.erase [] ≠ .init payload) ∧
    exec (.erase []) (framed cfg [5, 0]) = .next t := ⟨_, by simp, next_of (by decide +kernel)⟩
theorem witness_OnlyInitAndResetWriteLed : ∃ t, (∀ payload, Instr.rspReset ≠ .init payload) ∧
    (∀ payload, Instr.rspReset ≠ .reset payload) ∧ exec .rspReset base = .next t :=
  ⟨_, by simp, by simp, next_of (by decide +kernel)⟩
theorem witness_OnlyWriteAndReadsWriteScratch : ∃ t, (∀ payload, Instr.blockWrite 0 1 ≠ .write payload) ∧
    (∀ payload, Instr.blockWrite 0 1 ≠ .read payload) ∧ (∀ address count, Instr.blockWrite 0 1 ≠ .blockRead address count) ∧
    exec (.blockWrite 0 1) base = .next t := ⟨_, by simp, by simp, by simp, next_of (by decide +kernel)⟩
/-- A block in mid-frame, and one held in a wait field. -/
theorem witness_InvariantKeptByEveryStep :
    (∃ s t : State, s.Inv ∧ s.frame.fs = .awaitingPayload ∧ step s = .next t) ∧
    ∃ s t : State, s.Inv ∧ s.pins.irqm = true ∧ step s = .next t :=
  ⟨⟨receiving [9, 9] hasLength, _,
      ⟨by decide, rfl, rfl, rfl, rfl, rfl, fun _ => rfl, rfl, rfl, by decide, by decide, by decide, by decide, by decide⟩, rfl,
      next_of (by decide +kernel)⟩,
    ⟨held .dataRead, _, ⟨by decide, rfl, rfl, rfl, rfl, rfl, fun h => (by cases h), .inl rfl, .inl rfl⟩, rfl, next_of (by decide +kernel)⟩⟩
theorem witness_ParametersFixedAndChecked : (∃ t, step base = .next t) ∧
    ¬ Params.Admissible { cfg with readyMask := cfg.busyMask } := ⟨⟨_, next_of (by decide +kernel)⟩, by decide⟩
/-- A reset before any event, one in mid-instruction, and one right before a fault. -/
theorem witness_HardwareResetStep : (∃ s u : State, s.cfg.Admissible ∧ s.env.resetIn = some 0 ∧ Machine.pass s = .next u) ∧
    (∃ s u : State, s.cfg.Admissible ∧ s.env.resetIn = some 8 ∧ s.seq.entry = some (.wire 10 0x2D3#12) ∧
      Machine.pass s = .next u) ∧
    (overlong 1).cfg.Admissible ∧ (overlong 1).env.resetIn = some 1 ∧ Machine.pass (overlong 1) = .fault .overflow ∧
    1 ≤ (overlong 1).eventsBeforeFault.length :=
  ⟨⟨{ base with env := { base.env with resetIn := some 0 } }, _, by decide, rfl, next_of (by decide +kernel)⟩,
    ⟨{ base with seq := { entry := some (.wire 10 0x2D3#12) }, env := { base.env with resetIn := some 8 } }, _, by decide,
      rfl, rfl, next_of (by decide +kernel)⟩, by decide, rfl, rfl, by decide⟩
/-- The byte is taken before the fault, and a BLOCK_READ entered on its own faults before any event. -/
theorem witness_FaultBeforeResetStands : (overlong 2).cfg.Admissible ∧ (overlong 2).env.resetIn = some 2 ∧
    Machine.pass (overlong 2) = .fault .overflow ∧ (overlong 2).eventsBeforeFault.length < 2 ∧
    ∃ s : State, s.cfg.Admissible ∧ s.env.resetIn = some 1 ∧ Machine.pass s = .fault .overflow ∧
      s.eventsBeforeFault.length < 1 :=
  ⟨by decide, rfl, rfl, by decide,
    { base with cfg := { cfg with nFlash := 1 }, seq := { entry := some (.fpi [6, 0, 0, 2]) }
                env := { base.env with resetIn := some 1 } }, by decide, rfl, rfl, by decide⟩
/-- Both polls, inside ERASE and inside an operation of its own. -/
theorem witness_WaitingPollGoesOn : cfg.Admissible ∧
    (∃ s : State, ∃ ds, s.cfg = cfg ∧ s.env.resetIn = none ∧ s.seq.entry = none ∧ s.seq.wire = none ∧
      s.env.target = ds ++ [] ∧ AnswersAll (([0x00, 0x02] ++ [0x01]).map .ar) ds ∧
      s.seq.flash = .pollBitHigh 0x01 :: [.dataRead, .ackTest] ∧ s.seq.cmd = [.frameReset, .tx 0x84] ∧
      (∀ f ∈ [0x00, 0x02], f &&& (0x01 : Byte) = 0) ∧ (0x01 : Byte) &&& 0x01 ≠ 0) ∧
    ∃ s : State, ∃ ds, s.cfg = cfg ∧ s.env.resetIn = none ∧ s.seq.entry = none ∧ s.seq.wire = none ∧
      s.env.target = ds ++ [] ∧ AnswersAll (([] ++ [0xFD]).map .ar) ds ∧ s.seq.flash = .pollBitLow 0x02 :: [] ∧
      (∀ f ∈ ([] : List Byte), f &&& (0x02 : Byte) ≠ 0) ∧ (0xFD : Byte) &&& 0x02 = 0 :=
  ⟨by decide,
    ⟨{ cooperative (([0x00, 0x02] ++ [0x01]).map .ar) base with
        seq := { flash := [.pollBitHigh 0x01, .dataRead, .ackTest], cmd := [.frameReset, .tx 0x84] } }, _, rfl, rfl, rfl, rfl,
      cooperative_target _ base, answersAll_cooperative _, rfl, rfl, by decide, by decide⟩,
    { cooperative (([] ++ [0xFD]).map .ar) base with seq := { flash := [.pollBitLow 0x02] } }, _, rfl, rfl, rfl, rfl,
    cooperative_target _ base, answersAll_cooperative _, rfl, by simp, by decide⟩
/-- The shortest frame of each command, the longest, and one with an unknown action. -/
theorem witness_CommandRunsEnd : cfg.Admissible ∧ base.env.resetIn = none ∧ base.seq.idle = true ∧
    base.frame.fs = .awaitingAction ∧ (List.replicate 255 (0xFF : Byte)).length ≤ cfg.nPayload ∧
    (receiving (frameBytes cfg.actReset [] ++ [1]) base).env.rx = frameBytes cfg.actReset [] ++ [1] ∧
    base.env.txGateRest = true ∧ (0x00 : Byte) ∉ cfg.actionCodes ∧ base.idlePins :=
  ⟨by decide, rfl, rfl, rfl, by decide +kernel, rfl, rfl, by decide, rfl, rfl, rfl⟩

end Sys2Proof.Tests
end

/-! PROOFS. The statements about the scope of the model (spec/00_scope.md): the parameters, the state right after reset, and
the command runs, with the facts about passes, the framer and the replies that they need. -/
namespace Sys2Proof.Machine

/-! ## The invariant right after reset (R43) -/

/-- The defaults of R8 meet its constraints, whatever the dispatch mode. -/
theorem defaults_admissible : Config.defaults.Admissible := by decide

/-- Settles O54: every clause of the invariant is read off the reset values; no byte of `FB` has been written. -/
theorem invariantHoldsAtReset : Obligations.InvariantHoldsAtReset where
  cfg := defaults_admissible
  fb := reset_buffers_wf.1
  fl := reset_buffers_wf.2
  clock := rfl
  input := rfl
  critical := rfl
  entry _ := rfl
  framing := ⟨.inl rfl, .inl rfl⟩

/-! ## The parameters (R8) -/

/-- Storing a received byte changes the framing registers and `FB` only. -/
theorem appendByte_next {b : Byte} {g : Framing → Framing} {s q : State} (h : appendByte b g s = .next q) :
    q = { s with frame := q.frame, fb := q.fb } := by
  unfold appendByte at h
  split at h
  · cases h
  · injection h with h
    subst h
    rfl

/-- The framer changes the framing registers and `FB` only (R210). -/
theorem frameStep_next {b : Byte} {s q : State} (h : frameStep b s = .next q) :
    q = { s with frame := q.frame, fb := q.fb } := by
  unfold frameStep at h
  split at h
  case h_1 => exact (appendByte_next (s := { s with frame := _ }) h :)
  case h_2 =>
    unfold frameLength at h
    split at h
    · cases h
    · exact (appendByte_next (s := { s with frame := _ }) h :)
  case h_3 => exact appendByte_next h
  case h_4 => cases h

theorem frameStep_cfg {b : Byte} {s q : State} (h : frameStep b s = .next q) : q.cfg = s.cfg := by
  rw [frameStep_next h]

/-- No instruction changes the parameters. -/
theorem exec_cfg {i : Instr} {s t : State} (h : exec i s = .next t) : t.cfg = s.cfg := by
  obtain ⟨k, q, rfl, hq⟩ := exec_ran i s t h
  exact hq.frame.cfg

theorem dispatch_cfg {s t : State} (h : dispatch s = .next t) : t.cfg = s.cfg := by
  unfold dispatch at h
  split at h
  · cases h
  · split at h
    · exact exec_cfg h
    · injection h with h
      rw [h]

theorem dispatchIf_cfg {took : Bool} {s t : State} (h : dispatchIf took s = .next t) : t.cfg = s.cfg := by
  unfold dispatchIf at h
  split at h
  · exact dispatch_cfg h
  · injection h with h
    rw [h]

theorem mainLoop_cfg {s t : State} (h : mainLoop s = .next t) : t.cfg = s.cfg := by
  unfold mainLoop at h
  split at h
  · exact dispatchIf_cfg h
  · split at h
    · exact dispatchIf_cfg h
    · split at h
      case h_1 hq => exact (dispatchIf_cfg h).trans (frameStep_cfg hq :)
      case h_2 hq => exact absurd h (hq t)

/-- A pass, whether it enters a routine, makes a turn of the main loop or goes on after a wait. -/
theorem pass_cfg {s t : State} (h : Machine.pass s = .next t) : t.cfg = s.cfg := by
  unfold Machine.pass at h
  split at h
  · split at h
    · exact (exec_cfg h :)
    · cases h
  · split at h
    · exact mainLoop_cfg h
    · injection h with h
      obtain ⟨k, q, hr, hq, -⟩ := resume_ran s
      rw [← h, hr]
      exact hq.cfg

/-- A step, a hardware reset included. -/
theorem step_cfg {s t : State} (h : step s = .next t) : t.cfg = s.cfg := by
  unfold step at h
  split at h
  · split at h
    case h_1 k _ =>
      obtain ⟨q, hq, hr⟩ | ⟨hp, hr⟩ := resetDuringPass_cases k s
      · rw [hr] at h
        injection h with h
        rw [← h]
        exact hq
      · rw [hr] at h
        exact absurd h (hp t)
    case h_2 => exact pass_cfg h
  · cases h

/-- Settles O55: each thing a step can be keeps the parameters, and the check of R8 comes before all of them. -/
theorem parametersFixedAndChecked : Obligations.ParametersFixedAndChecked :=
  fun _ _ => ⟨step_cfg, fun h => if_neg h⟩

/-! ## One byte at a time (R210 to R217) -/

/-- The block is at the top of the main loop and nothing disturbs it. -/
structure AtTop (s : State) : Prop where
  admissible : s.cfg.Admissible
  quiet : s.env.resetIn = none
  idle : s.seq.idle = true

/-- R26: the frame buffer's payload part has at most 255 bytes. -/
theorem AtTop.nPayload_le {s : State} (h : AtTop s) : s.cfg.nPayload ≤ 255 := by
  obtain ⟨-, -, -, -, hn, -⟩ := h.admissible
  exact hn

/-- The framer's part of a pass leaves the block at the top of the main loop. -/
theorem AtTop.received {s : State} (h : AtTop s) (b : Byte) (rest : List Byte) (m : Mem) (f : Framing) :
    AtTop { takeByte b rest s with fb := m, frame := f } := ⟨h.admissible, h.quiet, h.idle⟩

/-- `AwaitingAction` (R211). -/
theorem frameStep_awaitingAction (b : Byte) (s : State) (h : s.frame.fs = .awaitingAction) :
    frameStep b s = .next { s with
      fb := s.fb.write 0 b
      frame := { s.frame with fs := .awaitingLength, action := b, cur := 1 } } := by
  simp [frameStep, h, frameAction, appendByte]

/-- `AwaitingLength` with a length that fits (R212). -/
theorem frameStep_awaitingLength (b : Byte) (s : State) (h : s.frame.fs = .awaitingLength)
    (hb : b.toNat ≤ s.cfg.nPayload) (hc : s.frame.cur.toNat ≤ s.cfg.nPayload + 1) :
    frameStep b s = .next { s with
      fb := s.fb.write s.frame.cur.toNat b
      frame := { s.frame with
        fs := if b = 0 then .complete else .awaitingPayload, length := b, rem := b, cur := s.frame.cur + 1 } } := by
  simp [frameStep, h, frameLength, appendByte, Nat.not_lt.2 hb, Nat.not_lt.2 hc]

/-- `AwaitingPayload` with the cursor inside `FB` (R213). -/
theorem frameStep_awaitingPayload (b : Byte) (s : State) (h : s.frame.fs = .awaitingPayload)
    (hc : s.frame.cur.toNat ≤ s.cfg.nPayload + 1) :
    frameStep b s = .next { s with
      fb := s.fb.write s.frame.cur.toNat b
      frame := { s.frame with
        fs := if s.frame.rem - 1 = 0 then .complete else .awaitingPayload, rem := s.frame.rem - 1
        cur := s.frame.cur + 1 } } := by
  simp [frameStep, h, framePayload, appendByte, Nat.not_lt.2 hc]

/-- A pass that takes a byte and leaves the frame incomplete ends there (R216). -/
theorem step_of_incomplete {b : Byte} {rest : List Byte} {s q : State} (h : AtTop s) (hfs : s.frame.fs ≠ .complete)
    (hrx : s.env.rx = b :: rest) (hq : frameStep b (takeByte b rest s) = .next q) (hn : q.frame.fs ≠ .complete) :
    step s = .next q := by
  rw [step_mainLoop s h.admissible h.quiet h.idle]
  simp [mainLoop, hrx, hfs, hq, dispatchIf, hn]

/-- A pass that takes the last byte of a frame dispatches it, in both dispatch modes (R216, R217). -/
theorem step_of_complete {b : Byte} {rest : List Byte} {s q : State} (h : AtTop s) (hfs : s.frame.fs ≠ .complete)
    (hrx : s.env.rx = b :: rest) (hq : frameStep b (takeByte b rest s) = .next q) (hc : q.frame.fs = .complete) :
    step s = dispatch q := by
  rw [step_mainLoop s h.admissible h.quiet h.idle]
  simp [mainLoop, hrx, hfs, hq, dispatchIf, hc]

/-! ## A whole frame (R218) -/

/-- A run of one step is the step. -/
theorem run_one (s : State) : run 1 s = step s := by
  show Host.Core.run core 1 s = core.step s
  simp only [Host.Core.run]
  cases core.step s <;> rfl

/-- The framer stands inside a frame. -/
def MidFrame (s : State) : Prop := s.frame.fs = .awaitingLength ∨ s.frame.fs = .awaitingPayload

theorem MidFrame.not_commandOver {s : State} (h : MidFrame s) : ¬ s.commandOver := by
  rintro ⟨-, hs⟩
  rcases h with h | h <;> simp [h] at hs

/-- The `n` steps from `s` assemble a frame, and the last of them dispatches it in `q`. -/
structure Assembles (n : Nat) (s q : State) : Prop where
  dispatched : run n s = dispatch q
  before : ∀ k, 0 < k → k < n → ∃ u, run k s = .next u ∧ MidFrame u

theorem Assembles.of_last {s q : State} (h : step s = dispatch q) : Assembles 1 s q where
  dispatched := (run_one s).trans h
  before k h0 h1 := by omega

theorem Assembles.of_step {n : Nat} {s m q : State} (h : step s = .next m) (hm : MidFrame m) (g : Assembles n m q) :
    Assembles (n + 1) s q where
  dispatched := (run_succ n s m h).trans g.dispatched
  before k h0 h1 := by
    obtain ⟨j, rfl⟩ : ∃ j, k = j + 1 := ⟨k - 1, by omega⟩
    rw [run_succ j s m h]
    rcases Nat.eq_zero_or_pos j with rfl | hj
    · exact ⟨m, rfl, hm⟩
    · exact g.before j hj (by omega)

/-- `bytes` written at consecutive indices of a buffer, from `i` on. -/
def Mem.writeAll (i : Nat) (bytes : List Byte) (m : Mem) : Mem :=
  match bytes with
  | [] => m
  | b :: rest => Mem.writeAll (i + 1) rest (m.write i b)

/-- The block when the framer has taken the bytes `payload` that complete a frame, `more` still waiting. -/
def payloadTaken (payload more : List Byte) (s : State) : State :=
  { s with
    frame := { s.frame with fs := .complete, rem := 0, cur := s.frame.cur + BitVec.ofNat 9 payload.length }
    fb := s.fb.writeAll s.frame.cur.toNat payload
    env := { s.env with rx := more }
    log := { s.log with trace := (payload.map .rx).reverse ++ s.log.trace } }

/-- The first of several payload bytes, and then the others. -/
theorem payloadTaken_cons (b : Byte) (payload more : List Byte) (fs : FramingState) (rem : Byte) (s : State)
    (hc : s.frame.cur.toNat + 1 < 512) :
    payloadTaken payload more { takeByte b (payload ++ more) s with
      fb := s.fb.write s.frame.cur.toNat b
      frame := { s.frame with fs := fs, rem := rem, cur := s.frame.cur + 1 } } =
    payloadTaken (b :: payload) more s := by
  have hend : s.frame.cur + 1#9 + BitVec.ofNat 9 payload.length = s.frame.cur + BitVec.ofNat 9 (payload.length + 1) := by
    bv_omega
  simp [payloadTaken, Mem.writeAll, takeByte, emit, Nat.mod_eq_of_lt hc, hend]

/-- The payload's bytes, one step each; the last one dispatches. -/
theorem assembles_payload (payload more : List Byte) : ∀ (b : Byte) (s : State), AtTop s →
    s.frame.fs = .awaitingPayload → s.frame.rem = BitVec.ofNat 8 (payload.length + 1) →
    s.frame.cur.toNat + payload.length ≤ s.cfg.nPayload + 1 → payload.length + 1 ≤ 255 →
    s.env.rx = b :: (payload ++ more) →
    Assembles (payload.length + 1) s (payloadTaken (b :: payload) more s) := by
  induction payload with
  | nil =>
    intro b s ht hfs hrem hcur _ hrx
    have hq := frameStep_awaitingPayload b (takeByte b more s) hfs (by simpa using hcur)
    refine .of_last ((step_of_complete ht (by simp [hfs]) hrx hq (by simp [hrem])).trans ?_)
    rw [← payloadTaken_cons b [] more .complete 0 s (by have := ht.nPayload_le; rw [List.length_nil] at hcur; omega)]
    simp [hrem, payloadTaken, Mem.writeAll]
  | cons c rest ih =>
    intro b s ht hfs hrem hcur hlen hrx
    simp only [List.length_cons] at hrem hcur hlen
    have hq := frameStep_awaitingPayload b (takeByte b (c :: rest ++ more) s) hfs
      (by simp only [takeByte_frame, takeByte_cfg]; omega)
    have hleft : s.frame.rem - 1 = BitVec.ofNat 8 (rest.length + 1) := by
      rw [hrem]; bv_omega
    have hmore : s.frame.rem - 1 ≠ 0 := by
      rw [hleft]; bv_omega
    have hnext : (s.frame.cur + 1).toNat = s.frame.cur.toNat + 1 := by
      have := ht.nPayload_le; bv_omega
    simp only [takeByte_frame, hmore, if_false] at hq
    have hs := step_of_incomplete ht (by simp [hfs]) hrx hq (by simp)
    rw [← payloadTaken_cons b (c :: rest) more .awaitingPayload (s.frame.rem - 1) s
      (by have := ht.nPayload_le; omega)]
    refine .of_step hs (.inr rfl) (ih c _ (ht.received b _ _ _) rfl hleft ?_ (by omega) rfl)
    show (s.frame.cur + 1).toNat + rest.length ≤ s.cfg.nPayload + 1
    omega

/-- The block when the framer has taken an action byte (R211). -/
def actionTaken (action : Byte) (rest : List Byte) (s : State) : State :=
  { takeByte action rest s with
    fb := s.fb.write 0 action
    frame := { s.frame with fs := .awaitingLength, action := action, cur := 1 } }

/-- The block when the framer has taken the length byte of a frame with a payload (R212). -/
def lengthTaken (length : Byte) (rest : List Byte) (s : State) : State :=
  { takeByte length rest s with
    fb := s.fb.write s.frame.cur.toNat length
    frame := { s.frame with fs := .awaitingPayload, length := length, rem := length, cur := s.frame.cur + 1 } }

/-- The block when the framer has taken a whole frame, `more` still waiting. -/
def frameTaken (action : Byte) (payload more : List Byte) (s : State) : State :=
  { s with
    frame := { fs := .complete, action := action, length := BitVec.ofNat 8 payload.length, rem := 0
               cur := BitVec.ofNat 9 (payload.length + 2) }
    fb := s.fb.writeAll 0 (frameBytes action payload)
    env := { s.env with rx := more }
    log := { s.log with trace := ((frameBytes action payload).map .rx).reverse ++ s.log.trace } }

/-- The three parts of a frame together. -/
theorem payloadTaken_lengthTaken_actionTaken (action : Byte) (payload more rest : List Byte) (s : State) :
    payloadTaken payload more
        (lengthTaken (BitVec.ofNat 8 payload.length) (payload ++ more) (actionTaken action rest s)) =
      frameTaken action payload more s := by
  have hcur : 1#9 + 1#9 + BitVec.ofNat 9 payload.length = BitVec.ofNat 9 (payload.length + 2) := by bv_omega
  simp [payloadTaken, lengthTaken, actionTaken, frameTaken, frameBytes, Mem.writeAll, takeByte, emit, ← hcur]

/-- The action byte, which never completes a frame. -/
theorem step_actionByte {action : Byte} {rest : List Byte} {s : State} (ht : AtTop s)
    (hfs : s.frame.fs = .awaitingAction) (hrx : s.env.rx = action :: rest) :
    step s = .next (actionTaken action rest s) :=
  step_of_incomplete ht (by simp [hfs]) hrx (frameStep_awaitingAction action (takeByte action rest s) hfs)
    (by simp [actionTaken])

/-- The length byte and the payload; a frame without payload is dispatched at its length byte. -/
theorem assembles_length (payload more : List Byte) (s : State) (ht : AtTop s)
    (hfs : s.frame.fs = .awaitingLength) (hcur : s.frame.cur = 1) (hlen : payload.length ≤ s.cfg.nPayload)
    (hrx : s.env.rx = BitVec.ofNat 8 payload.length :: (payload ++ more)) :
    Assembles (payload.length + 1) s
      (payloadTaken payload more (lengthTaken (BitVec.ofNat 8 payload.length) (payload ++ more) s)) := by
  have hmax := ht.nPayload_le
  have hq := frameStep_awaitingLength (BitVec.ofNat 8 payload.length)
    (takeByte (BitVec.ofNat 8 payload.length) (payload ++ more) s) hfs
    (by simp only [BitVec.toNat_ofNat, takeByte_cfg]; omega) (by simp [hcur])
  cases payload with
  | nil =>
    refine .of_last ((step_of_complete ht (by simp [hfs]) hrx hq rfl).trans ?_)
    simp [payloadTaken, lengthTaken, Mem.writeAll]
  | cons b tail =>
    simp only [List.length_cons] at hmax hlen hq hrx ⊢
    have hpos : BitVec.ofNat 8 (tail.length + 1) ≠ 0 := by bv_omega
    simp only [hpos, if_false] at hq
    refine .of_step (step_of_incomplete ht (by simp [hfs]) hrx hq (by simp)) (.inr rfl) ?_
    refine assembles_payload tail more b _ (ht.received _ _ _ _) rfl rfl ?_ (by omega) rfl
    show (s.frame.cur + 1).toNat + tail.length ≤ s.cfg.nPayload + 1
    rw [hcur]
    show 2 + tail.length ≤ s.cfg.nPayload + 1
    omega

/-- A whole frame that fits `FB`, and then `more`, waits for a block that stands at the beginning of a frame. -/
structure FrameWaits (action : Byte) (payload more : List Byte) (s : State) : Prop extends AtTop s where
  start : s.frame.fs = .awaitingAction
  fits : payload.length ≤ s.cfg.nPayload
  bytes : s.env.rx = frameBytes action payload ++ more

/-- A whole frame, one step for each byte; the last one dispatches (R91, R216, R218). -/
theorem FrameWaits.assembles {action : Byte} {payload more : List Byte} {s : State}
    (h : FrameWaits action payload more s) :
    Assembles (payload.length + 2) s (frameTaken action payload more s) := by
  rw [← payloadTaken_lengthTaken_actionTaken action payload more (BitVec.ofNat 8 payload.length :: (payload ++ more))]
  exact .of_step (step_actionByte h.toAtTop h.start h.bytes) (.inl rfl)
    (assembles_length payload more _ (h.toAtTop.received _ _ _ _) rfl rfl h.fits rfl)

/-- The length byte of the assembled frame fits the frame buffer. -/
theorem FrameWaits.length_le {action : Byte} {payload more : List Byte} {s : State}
    (h : FrameWaits action payload more s) :
    (frameTaken action payload more s).frame.length.toNat ≤ (frameTaken action payload more s).cfg.nPayload := by
  have hmax := h.nPayload_le
  have hfits := h.fits
  show (BitVec.ofNat 8 payload.length).toNat ≤ s.cfg.nPayload
  rw [BitVec.toNat_ofNat]
  omega

/-! ## The Dispatcher's selection (R230, R238) -/

/-- The payload of the frame the Dispatcher sees, `FB[2 .. LENGTH+1]` (R79). -/
def fetchPayload (s : State) : List Byte := (List.range s.frame.length.toNat).map fun k => s.fbByte (k + 2)

/-- The frame fetched from `FB` has the length its length byte says, so only its action decides. -/
theorem decodeFrame_fetchFrame (s : State) :
    decodeFrame s.cfg (fetchFrame s) = decodeAction s.cfg s.frame.action (fetchPayload s) := by
  simp [decodeFrame, fetchFrame, fetchPayload]

/-- A frame whose action is known runs its command. -/
theorem dispatch_of_decodes {i : Instr} {s : State} (hl : s.frame.length.toNat ≤ s.cfg.nPayload)
    (hd : decodeAction s.cfg s.frame.action (fetchPayload s) = .ok i) : dispatch s = exec i s := by
  rw [← decodeFrame_fetchFrame] at hd
  simp only [dispatch, hd, if_neg (Nat.not_lt.2 hl)]

theorem decodeAction_ack (p : Params) (payload : List Byte) : decodeAction p p.actAck payload = .ok (.ack payload) := by
  simp [decodeAction]

theorem decodeAction_reset (p : Params) (h : p.actionCodes.Nodup) (payload : List Byte) :
    decodeAction p p.actReset payload = .ok (.reset payload) := by
  simp only [Params.actionCodes, List.nodup_cons, List.mem_cons, not_or] at h
  obtain ⟨⟨-, hack, -⟩, ⟨hinit, -⟩, -⟩ := h
  simp [decodeAction, Ne.symm hack, Ne.symm hinit]

theorem decodeAction_info (p : Params) (h : p.actionCodes.Nodup) (payload : List Byte) :
    decodeAction p p.actInfo payload = .ok (.info payload) := by
  simp only [Params.actionCodes, List.nodup_cons, List.mem_cons, not_or] at h
  obtain ⟨⟨-, -, -, -, -, hack, -⟩, ⟨-, -, -, -, hinit, -⟩, ⟨-, -, -, hreset, -⟩, ⟨-, -, hwrite, -⟩, ⟨-, herase, -⟩,
    ⟨hread, -⟩, -⟩ := h
  simp [decodeAction, Ne.symm hack, Ne.symm hinit, Ne.symm hreset, Ne.symm hwrite, Ne.symm herase, Ne.symm hread]

theorem decodeAction_unknown (p : Params) (action : Byte) (h : action ∉ p.actionCodes) (payload : List Byte) :
    decodeAction p action payload = .error (.unknownAction action) := by
  simp only [Params.actionCodes, List.mem_cons, not_or] at h
  simp [decodeAction, h]

/-- An unknown action is dispatched without any effect (R238). -/
theorem dispatch_unknown {s : State} (hl : s.frame.length.toNat ≤ s.cfg.nPayload)
    (ha : s.frame.action ∉ s.cfg.actionCodes) : dispatch s = .next s := by
  have hd := (decodeFrame_fetchFrame s).trans (decodeAction_unknown s.cfg s.frame.action ha _)
  simp only [dispatch, hd, if_neg (Nat.not_lt.2 hl)]

/-- ACK's branch ends with its `frame_reset`, not with a byte (R243). -/
theorem not_endsWithByte_ack (p : Params) (h : p.actionCodes.Nodup) : ¬ endsWithByte p p.actAck := by
  simp only [Params.actionCodes, List.nodup_cons, List.mem_cons, not_or] at h
  obtain ⟨⟨-, hreset, -, herase, hread, hinfo, -⟩, -⟩ := h
  simp [endsWithByte, hreset, herase, hread, hinfo]

/-! ## The commands that only answer, to a transport that accepts in the end (R231, R233, R237) -/

/-- A command that only answers the host has ended in `t`: these events, `frame_reset`, no byte taken, and no pin moved
but the indicator. -/
structure Replied (events : List Event) (s t : State) : Prop where
  cfg : t.cfg = s.cfg
  fs : t.frame.fs = .awaitingAction
  seq : t.seq = s.seq
  rx : t.env.rx = s.env.rx
  pins : t.pins = { s.pins with led := t.pins.led }
  trace : t.log.trace = events.reverse ++ s.log.trace

/-- ACK sends its byte, then resets the framing state. -/
theorem exec_ack_replied (payload : List Byte) (s : State) (h : s.env.txGateRest = true) :
    ∃ t, exec (.ack payload) s = .next t ∧ Replied [.tx 0x80] s t := by
  obtain ⟨u, hrun, hu, -⟩ := runCmd_tx 0x80 [.frameReset] s h
  refine ⟨frameReset u, ?_, ⟨hu.step.cfg, rfl, hu.step.seq, hu.step.rx, ?_, hu.trace⟩⟩
  · rw [← settle_done, ← runCmd_nil, ← runCmd_frameReset, ← hrun]
    rfl
  · simp [hu.pins]

/-- RESET resets the framing state, sends its byte, then turns the indicator off. -/
theorem exec_reset_replied (payload : List Byte) (s : State) (h : s.env.txGateRest = true) :
    ∃ t, exec (.reset payload) s = .next t ∧ Replied [.tx 0x82, .led false] s t := by
  obtain ⟨u, hrun, hu, -⟩ := runCmd_tx 0x82 [.led false] (frameReset s) h
  refine ⟨setLed false u, ?_, ⟨hu.step.cfg, by simp [hu.frame], hu.step.seq, hu.step.rx, ?_, by simp [hu.trace]⟩⟩
  · rw [← settle_done, ← runCmd_nil, ← runCmd_led, ← hrun]
    rfl
  · simp [hu.pins]

/-- INFO resets the framing state, then sends its three bytes. -/
theorem exec_info_replied (payload : List Byte) (s : State) (h : s.env.txGateRest = true) :
    ∃ t, exec (.info payload) s = .next t ∧
      Replied [.tx 0x88, .tx s.dev.id, .tx s.dev.revision] s t := by
  obtain ⟨u, hcode, hu, -⟩ := runCmd_tx 0x88 [.txDevId, .txDevRev] (frameReset s) h
  obtain ⟨t, hdev, ht, -⟩ := runCmd_txDev [] u (by rw [hu.step.txGateRest]; exact h)
  rw [hu.dev] at ht
  have hs := hu.trans ht
  refine ⟨t, ?_, ⟨hs.step.cfg, by rw [hs.frame]; rfl, hs.step.seq, hs.step.rx, by simp [hs.pins], by simp [hs.trace]⟩⟩
  rw [← settle_done, ← runCmd_nil, ← hdev, ← hcode]
  rfl

/-! ## Command runs (R15, log 25) -/

/-- A command run is over at the first step at which it can be. -/
theorem CommandRun.le {n m : Nat} {s t u : State} (h : CommandRun n s t) (g : CommandRun m s u) : n ≤ m :=
  Nat.not_lt.1 fun hlt => h.first m u g.stepped hlt g.steps g.returned

/-- From a state there is at most one command run. -/
theorem CommandRun.unique {n m : Nat} {s t u : State} (h : CommandRun n s t) (g : CommandRun m s u) : t = u := by
  obtain rfl : n = m := Nat.le_antisymm (h.le g) (g.le h)
  have hrun := h.steps.symm.trans g.steps
  injection hrun

/-- The command run of a frame whose branch returns in `t` has one step for each of the frame's bytes. -/
theorem FrameWaits.commandRun {action : Byte} {payload more : List Byte} {s t : State}
    (h : FrameWaits action payload more s) (hd : dispatch (frameTaken action payload more s) = .next t)
    (hover : t.commandOver) : CommandRun (payload.length + 2) s t where
  start := h.start
  top := h.idle
  byte := by simp [h.bytes, frameBytes]
  quiet := h.quiet
  steps := h.assembles.dispatched.trans hd
  stepped := by omega
  returned := hover
  first m u h0 hm hu := by
    obtain ⟨v, hv, hmid⟩ := h.assembles.before m h0 hm
    have huv := hu.symm.trans hv
    injection huv with huv
    rw [huv]
    exact hmid.not_commandOver

/-- What is on the record since an earlier state. -/
theorem newEvents_of_trace {events : List Event} {s t : State} (h : t.log.trace = events.reverse ++ s.log.trace) :
    newEvents s t = events := by
  simp [newEvents, h]

/-- A sequence that ends with a `TX` is whole up to its last `TX`. -/
theorem upToLastTx_append_tx (l : List Event) (b : Byte) : upToLastTx (l ++ [.tx b]) = l ++ [.tx b] := by
  simp [upToLastTx, Event.txByte?]

/-- What comes after the last `TX` is cut. -/
theorem upToLastTx_append_other (l : List Event) (e : Event) (h : e.txByte? = none) :
    upToLastTx (l ++ [e]) = upToLastTx l := by
  simp [upToLastTx, h]

/-- A frame whose command only answers the host makes a final command run. -/
theorem FrameWaits.finalRun {action : Byte} {payload more : List Byte} {s : State} {i : Instr} {events : List Event}
    (h : FrameWaits action payload more s)
    (hi : decodeAction s.cfg action (fetchPayload (frameTaken action payload more s)) = .ok i)
    (hr : ∃ t, exec i (frameTaken action payload more s) = .next t ∧
      Replied events (frameTaken action payload more s) t) :
    ∃ n t, FinalRun n s t ∧ t.cfg = s.cfg ∧ newEvents s t = (frameBytes action payload).map .rx ++ events ∧
      (s.idlePins → more = [] → t.quiescent) := by
  obtain ⟨t, hexec, hrep⟩ := hr
  have hd := (dispatch_of_decodes h.length_le hi).trans hexec
  have hover : t.commandOver := ⟨by rw [hrep.seq]; exact h.idle, .inl hrep.fs⟩
  refine ⟨_, t, ⟨h.commandRun hd hover, hrep.fs⟩, hrep.cfg, newEvents_of_trace ?_, ?_⟩
  · simp [hrep.trace, frameTaken]
  · rintro ⟨hck, hdoe, hirq⟩ rfl
    refine ⟨hrep.fs, ?_, ?_, ?_, hrep.rx⟩ <;> rw [hrep.pins]
    exacts [hirq, hdoe, hck]

/-- A frame of an unknown action makes a command run, which leaves the block in `Complete` and so is not final. -/
theorem FrameWaits.not_finalRun {action : Byte} {payload more : List Byte} {s : State}
    (h : FrameWaits action payload more s) (ha : action ∉ s.cfg.actionCodes) (n : Nat) (t : State) :
    ¬ FinalRun n s t := by
  rintro ⟨hrun, hfinal⟩
  have hstall := h.commandRun (dispatch_unknown h.length_le ha) ⟨h.idle, .inr rfl⟩
  rw [hrun.unique hstall] at hfinal
  cases hfinal

/-- Settles O60: the frame is assembled byte by byte with the block in mid-frame until its last byte, whose pass runs the
branch to its end; for an unknown action that pass leaves `Complete`, and a state has one command run only. -/
theorem commandRunsEnd : Obligations.CommandRunsEnd := by
  intro action payload more s ha hq hidle hfs hlen hrx hgate
  have h : FrameWaits action payload more s := ⟨⟨ha, hq, hidle⟩, hfs, hlen, hrx⟩
  refine ⟨?_, h.not_finalRun⟩
  rintro response (⟨rfl, rfl⟩ | ⟨rfl, rfl⟩ | ⟨rfl, rfl⟩)
  case inl =>
    obtain ⟨n, t, hrun, hcfg, hev, hquiet⟩ := h.finalRun (decodeAction_ack _ _) (exec_ack_replied _ _ hgate)
    refine ⟨n, t, hrun, ?_, hquiet⟩
    rw [commandEvents, hcfg, if_neg (not_endsWithByte_ack s.cfg ha.1), hev]
    rfl
  case inr.inl =>
    obtain ⟨n, t, hrun, hcfg, hev, hquiet⟩ := h.finalRun (decodeAction_reset _ ha.1 _) (exec_reset_replied _ _ hgate)
    refine ⟨n, t, hrun, ?_, hquiet⟩
    rw [commandEvents, hcfg, if_pos (.inl rfl), hev]
    rw [List.append_cons, upToLastTx_append_other _ _ rfl, upToLastTx_append_tx]
    rfl
  case inr.inr =>
    obtain ⟨n, t, hrun, hcfg, hev, hquiet⟩ := h.finalRun (decodeAction_info _ ha.1 _) (exec_info_replied _ _ hgate)
    refine ⟨n, t, hrun, ?_, hquiet⟩
    rw [commandEvents, hcfg, if_pos (.inr (.inr (.inr rfl))), hev]
    rw [List.append_cons, List.append_cons, upToLastTx_append_tx]
    simp [frameTaken]

end Sys2Proof.Machine

/-! PROOFS. The statements about the state (spec/10_state.md): the invariant, the reset state and hardware reset, the framer
and the main loop, who writes what, and the waits, with what a step can be said once for all of them. -/
namespace Sys2Proof.Machine

/-! ## What a step can be (R216, R240, R290) -/

/-- The Dispatcher runs an instruction in the state it finds, or leaves the state as it is. -/
theorem dispatchIf_cases {took : Bool} {s t : State} (h : dispatchIf took s = .next t) :
    t = s ∨ ∃ i, exec i s = .next t := by
  unfold dispatchIf at h
  split at h
  · unfold dispatch at h
    split at h
    · cases h
    · split at h
      · exact .inr ⟨_, h⟩
      · injection h with h
        exact .inl h.symm
  · injection h with h
    exact .inl h.symm

/-- A pass of the main loop takes no byte, or gives the oldest byte to the framer, before the Dispatcher's turn. -/
theorem mainLoop_cases {s t : State} (h : mainLoop s = .next t) :
    dispatchIf false s = .next t ∨
      ∃ b rest q, s.env.rx = b :: rest ∧ s.frame.fs ≠ .complete ∧ frameStep b (takeByte b rest s) = .next q ∧
        dispatchIf true q = .next t := by
  unfold mainLoop at h
  split at h
  · exact .inl h
  case h_2 b rest hrx =>
    split at h
    · exact .inl h
    case isFalse hfs =>
      split at h
      case h_1 q hq => exact .inr ⟨b, rest, q, hrx, hfs, hq, h⟩
      case h_2 hq => exact absurd h (hq t)

/-- A pass enters a routine, makes a turn of the main loop, or goes on after a wait. -/
theorem pass_cases {s t : State} (h : Machine.pass s = .next t) :
    (∃ i, exec i { s with seq := { s.seq with entry := none } } = .next t ∧ s.seq.entry.isSome = true) ∨
      (s.seq.idle = true ∧ mainLoop s = .next t) ∨ (s.seq.entry = none ∧ t = resume s) := by
  unfold Machine.pass at h
  split at h
  case h_1 e he =>
    split at h
    case h_1 i _ => exact .inl ⟨i, h, by rw [he]; rfl⟩
    case h_2 => cases h
  case h_2 he =>
    split at h
    case isTrue hidle => exact .inr (.inl ⟨hidle, h⟩)
    case isFalse =>
      injection h with h
      exact .inr (.inr ⟨he, h.symm⟩)

/-- A step is a pass, or ends in a state just reset. -/
theorem step_cases {s t : State} (h : step s = .next t) :
    Machine.pass s = .next t ∨ ∃ k q, s.env.resetIn = some k ∧ q.cfg = s.cfg ∧ t = hardReset q := by
  unfold step at h
  split at h
  · split at h
    case h_1 k hk =>
      obtain ⟨q, hq, hr⟩ | ⟨hp, hr⟩ := resetDuringPass_cases k s
      · rw [hr] at h
        injection h with h
        exact .inr ⟨k, q, hk, hq, h.symm⟩
      · rw [hr] at h
        exact absurd h (hp t)
    case h_2 => exact .inl h
  · cases h

/-! ## What an instruction keeps (R28, R32, R46, R61, R62, R240, R243) -/

/-- The frame of a command says nothing of the sequencer. -/
theorem CommandFrame.withSeq {s q : State} (h : CommandFrame s q) (k : Seq) : CommandFrame s { q with seq := k } :=
  { h with fbByte := h.fbByte }

/-- Settles O49: every instruction keeps this frame, whatever it leaves to do. -/
theorem instructionsKeepFrameBuffer : Obligations.InstructionsKeepFrameBuffer := by
  intro i s t h
  obtain ⟨k, q, rfl, hq⟩ := exec_ran i s t h
  exact ⟨hq.frame.withSeq _, hq.fs⟩

/-- Settles O50: `storeDevId` and `storeDevRev` stand in INIT's branch only. -/
theorem onlyInitWritesDeviceInfo : Obligations.OnlyInitWritesDeviceInfo := by
  intro i s t hi h
  obtain ⟨k, q, rfl, hq⟩ := exec_ran i s t h
  exact hq.dev hi

/-- Settles O51: a statement that sets the indicator stands in the branches of INIT and RESET only. -/
theorem onlyInitAndResetWriteLed : Obligations.OnlyInitAndResetWriteLed := by
  intro i s t hinit hreset h
  obtain ⟨k, q, rfl, hq⟩ := exec_ran i s t h
  exact hq.led ⟨hinit, hreset⟩

/-- Settles O52: WRITE's copy and the stores of the block read are the only ones into `FL`. -/
theorem onlyWriteAndReadsWriteScratch : Obligations.OnlyWriteAndReadsWriteScratch := by
  intro i s t hwrite hread hblock h
  obtain ⟨k, q, rfl, hq⟩ := exec_ran i s t h
  exact hq.fl ⟨hwrite, hread, hblock⟩

/-! ## At most one byte a pass (R216) -/

/-- Instructions take no byte. -/
theorem exec_rx {i : Instr} {s t : State} (h : exec i s = .next t) : t.env.rx = s.env.rx :=
  (instructionsKeepFrameBuffer i s t h).1.rx

theorem dispatchIf_rx {took : Bool} {s t : State} (h : dispatchIf took s = .next t) : t.env.rx = s.env.rx := by
  obtain rfl | ⟨i, hi⟩ := dispatchIf_cases h
  · rfl
  · exact exec_rx hi

/-- The framer stores the byte it is given and takes none itself. -/
theorem frameStep_rx {b : Byte} {s q : State} (h : frameStep b s = .next q) : q.env.rx = s.env.rx := by
  rw [frameStep_next h]

theorem resume_rx (s : State) : (resume s).env.rx = s.env.rx := by
  obtain ⟨k, q, hr, hq, -⟩ := resume_ran s
  rw [hr]
  exact hq.rx

/-- Settles O44: only the main loop takes a byte, before the framer and the Dispatcher, which take none. -/
theorem oneByteTakenPerPass : Obligations.OneByteTakenPerPass := by
  intro s t hquiet h
  obtain hp | ⟨k, -, hk, -⟩ := step_cases h
  · obtain ⟨i, hi, -⟩ | ⟨hidle, hm⟩ | ⟨-, rfl⟩ := pass_cases hp
    · have hrx := exec_rx hi
      exact .inl hrx
    · obtain hd | ⟨b, rest, q, hrx, hfs, hq, hd⟩ := mainLoop_cases hm
      · exact .inl (dispatchIf_rx hd)
      · exact .inr ⟨hidle, hfs, b, by rw [dispatchIf_rx hd, frameStep_rx hq, hrx]; rfl⟩
    · exact .inl (resume_rx s)
  · rw [hquiet] at hk
    cases hk

/-! ## The invariant of the framing registers (R22, R23, R44, R218) -/

/-- In every framing state `ACTION` and `LENGTH` are their bytes of `FB`, once those are written. -/
theorem FramingInv.onceWritten {s : State} (h : FramingInv s) :
    OnceWritten (s.fb.read 0) s.frame.action ∧ OnceWritten (s.fb.read 1) s.frame.length := by
  unfold FramingInv at h
  split at h
  case h_1 => exact h
  case h_2 =>
    obtain ⟨-, haction, hlength⟩ := h
    exact ⟨.inr haction, hlength⟩
  case h_3 =>
    obtain ⟨haction, hlength, -⟩ := h
    exact ⟨.inr haction, .inr hlength⟩
  case h_4 =>
    obtain ⟨-, -, haction, hlength, -⟩ := h
    exact ⟨.inr haction, .inr hlength⟩

/-- What keeps `FB` and the framing registers but for a `frame_reset` keeps their invariant. -/
theorem FramingInv.of_commandFrame {s t : State} (hs : FramingInv s) (h : CommandFrame s t)
    (hfs : t.frame.fs = s.frame.fs ∨ t.frame.fs = .awaitingAction) : FramingInv t := by
  obtain hfs | hfs := hfs
  · simp only [FramingInv, hfs, h.cfg, h.fb, h.action, h.length, h.rem, h.cur]
    exact hs
  · simp only [FramingInv, hfs, h.fb, h.action, h.length]
    exact hs.onceWritten

/-- The first `n` bytes of a buffer are written. -/
def Mem.Filled (m : Mem) (n : Nat) : Prop := ∀ i, i < n → (m.read i).isSome = true

/-- Writing the byte after them makes one more. -/
theorem Mem.Filled.write {m : Mem} {n : Nat} (h : m.Filled n) (v : Byte) : (m.write n v).Filled (n + 1) := by
  intro i hi
  rw [Mem.read_write]
  split
  · rfl
  · exact h i (by omega)

/-- The invariant in `AwaitingLength`. -/
theorem FramingInv.awaitingLength {s : State} (h : FramingInv s) (hfs : s.frame.fs = .awaitingLength) :
    s.frame.cur = 1 ∧ s.fb.read 0 = some s.frame.action ∧ OnceWritten (s.fb.read 1) s.frame.length := by
  simp only [FramingInv, hfs] at h
  exact h

/-- The invariant in `AwaitingPayload`. -/
theorem FramingInv.awaitingPayload {s : State} (h : FramingInv s) (hfs : s.frame.fs = .awaitingPayload) :
    s.fb.read 0 = some s.frame.action ∧ s.fb.read 1 = some s.frame.length ∧ 1 ≤ s.frame.rem.toNat ∧
      s.frame.cur.toNat + s.frame.rem.toNat = s.frame.length.toNat + 2 ∧ 2 ≤ s.frame.cur.toNat ∧
      s.frame.length.toNat ≤ s.cfg.nPayload ∧ s.fb.Filled s.frame.cur.toNat := by
  simp only [FramingInv, hfs] at h
  exact h

/-- The framer's part of the invariant, which it keeps with every byte it takes. -/
structure FramerKeeps (q : State) : Prop where
  fb : q.fb.wf = true
  framing : FramingInv q

/-- `AwaitingAction` (R211). -/
theorem framerKeeps_action {b : Byte} {s q : State} (hfb : s.fb.wf = true) (hs : FramingInv s)
    (hfs : s.frame.fs = .awaitingAction) (h : frameStep b s = .next q) : FramerKeeps q := by
  obtain ⟨-, hlength⟩ := hs.onceWritten
  rw [frameStep_awaitingAction b s hfs] at h
  injection h with h
  subst h
  refine ⟨Mem.wf_write _ _ _ hfb, rfl, Mem.read_write_same _ _ _, ?_⟩
  rwa [Mem.read_write_other _ 0 1 _ (by decide)]

/-- `AwaitingLength` (R212), whether a payload follows or not. -/
theorem framerKeeps_length {b : Byte} {s q : State} (hfb : s.fb.wf = true) (hs : FramingInv s)
    (hfs : s.frame.fs = .awaitingLength) (h : frameStep b s = .next q) : FramerKeeps q := by
  obtain ⟨hcur, haction, -⟩ := hs.awaitingLength hfs
  by_cases hfits : b.toNat ≤ s.cfg.nPayload
  case neg => simp [frameStep, hfs, frameLength, Nat.not_le.1 hfits, raise] at h
  have haction' : (s.fb.write 1 b).read 0 = some s.frame.action := by
    rwa [Mem.read_write_other _ 1 0 _ (by decide)]
  have hfirst : s.fb.Filled 1 := fun i hi => by
    obtain rfl : i = 0 := by omega
    rw [haction]
    rfl
  have hfilled := hfirst.write b
  rw [frameStep_awaitingLength b s hfs hfits (by rw [hcur]; simp), hcur] at h
  injection h with h
  subst h
  refine ⟨Mem.wf_write _ _ _ hfb, ?_⟩
  by_cases hb : b = 0
  · subst hb
    exact ⟨rfl, rfl, haction', Mem.read_write_same _ _ _, hfits, hfilled⟩
  · simp only [FramingInv, hb, if_false]
    refine ⟨haction', Mem.read_write_same _ _ _, ?_, ?_, by decide, hfits, hfilled⟩
    · have : b.toNat ≠ 0 := fun h0 => hb (BitVec.eq_of_toNat_eq h0)
      omega
    · show 2 + b.toNat = b.toNat + 2
      omega

/-- `AwaitingPayload` (R213), whether it is the last byte or not. -/
theorem framerKeeps_payload {b : Byte} {s q : State} (hadm : s.cfg.Admissible) (hfb : s.fb.wf = true)
    (hs : FramingInv s) (hfs : s.frame.fs = .awaitingPayload) (h : frameStep b s = .next q) : FramerKeeps q := by
  obtain ⟨-, -, -, -, hmax, -⟩ := hadm
  obtain ⟨haction, hlength, hrem, hsum, hcur, hfits, hfilled⟩ := hs.awaitingPayload hfs
  have hrem' : (s.frame.rem - 1).toNat = s.frame.rem.toNat - 1 := by bv_omega
  have hcur' : (s.frame.cur + 1).toNat = s.frame.cur.toNat + 1 := by bv_omega
  have haction' : (s.fb.write s.frame.cur.toNat b).read 0 = some s.frame.action := by
    rwa [Mem.read_write_other _ _ 0 _ (by omega)]
  have hlength' : (s.fb.write s.frame.cur.toNat b).read 1 = some s.frame.length := by
    rwa [Mem.read_write_other _ _ 1 _ (by omega)]
  have hfilled' := hfilled.write b
  rw [frameStep_awaitingPayload b s hfs (by omega)] at h
  injection h with h
  subst h
  refine ⟨Mem.wf_write _ _ _ hfb, ?_⟩
  by_cases hlast : s.frame.rem - 1 = 0
  · have hend : (s.frame.cur + 1).toNat = s.frame.length.toNat + 2 := by
      have : (s.frame.rem - 1).toNat = 0 := by rw [hlast]; rfl
      omega
    simp only [FramingInv, hlast, if_true]
    exact ⟨trivial, hend, haction', hlength', hfits, by rw [← hend, hcur']; exact hfilled'⟩
  · have hmore : (s.frame.rem - 1).toNat ≠ 0 := fun h0 => hlast (BitVec.eq_of_toNat_eq h0)
    simp only [FramingInv, hlast, if_false]
    exact ⟨haction', hlength', by omega, by omega, by omega, hfits, by rw [hcur']; exact hfilled'⟩

/-! ## The invariant of the block (R44, R45, R143) -/

/-- The lines of a state of the invariant are those of a place where the sequencer can rest. -/
theorem State.Inv.restPins {s : State} (h : s.Inv) : RestPins s.seq.wire.isSome s := ⟨h.clock, h.input, h.critical⟩

/-- Right after hardware reset, at parameters inside the constraints of R8. -/
theorem hardReset_inv {q : State} (h : q.cfg.Admissible) : (hardReset q).Inv where
  cfg := h
  fb := rfl
  fl := rfl
  clock := rfl
  input := rfl
  critical := rfl
  entry _ := rfl
  framing := ⟨.inl rfl, .inl rfl⟩

/-- What keeps a command's frame and rests at a place of the sequencer keeps the invariant. -/
theorem State.Inv.of_commandFrame {s q : State} {k : Seq} (h : s.Inv) (hf : CommandFrame s q)
    (hfs : q.frame.fs = s.frame.fs ∨ q.frame.fs = .awaitingAction) (hfl : q.fl.wf = true)
    (hp : RestPins k.wire.isSome q) (he : k.entry.isSome = true → k.wire = none) : State.Inv { q with seq := k } := by
  obtain ⟨hck, hdoe, hirqm⟩ := hp
  exact
    { cfg := by rw [hf.cfg]; exact h.cfg
      fb := by rw [hf.fb]; exact h.fb
      fl := hfl
      clock := hck
      input := hdoe
      critical := hirqm
      entry := he
      framing := h.framing.of_commandFrame (hf.withSeq k) hfs }

/-- An instruction that starts outside a wait field, with no entry before it. -/
theorem exec_inv {i : Instr} {s t : State} (h : s.Inv) (he : s.seq.entry = none) (hw : s.seq.wire = none)
    (hi : exec i s = .next t) : t.Inv := by
  obtain ⟨k, q, rfl, hq⟩ := exec_ran i s t hi
  have hidle : s.idlePins := by
    have := h.restPins
    rwa [hw] at this
  have hentry : (k.push s.seq).entry = none := by simp [Seq.push, hq.entry, he]
  have hwire : (k.push s.seq).wire = k.wire := by simp [Seq.push, hw]
  exact h.of_commandFrame hq.frame hq.fs (hq.wf h.fl) (by rw [hwire]; exact hq.rest hidle) (by simp [hentry])

theorem dispatchIf_inv {took : Bool} {s t : State} (h : s.Inv) (hidle : s.seq.idle = true)
    (hd : dispatchIf took s = .next t) : t.Inv := by
  have hseq := seq_of_idle _ hidle
  obtain rfl | ⟨i, hi⟩ := dispatchIf_cases hd
  · exact h
  · exact exec_inv h (by rw [hseq]) (by rw [hseq]) hi

/-- The framer, in each of its states. -/
theorem frameStep_inv {b : Byte} {s q : State} (h : s.Inv) (hq : frameStep b s = .next q) : q.Inv := by
  have hk : FramerKeeps q := by
    cases hfs : s.frame.fs with
    | awaitingAction => exact framerKeeps_action h.fb h.framing hfs hq
    | awaitingLength => exact framerKeeps_length h.fb h.framing hfs hq
    | awaitingPayload => exact framerKeeps_payload h.cfg h.fb h.framing hfs hq
    | complete => simp [frameStep, hfs, raise] at hq
  rw [frameStep_next hq]
  exact { h with fb := hk.fb, framing := by have := hk.framing; rwa [frameStep_next hq] at this }

theorem mainLoop_inv {s t : State} (h : s.Inv) (hidle : s.seq.idle = true) (hm : mainLoop s = .next t) : t.Inv := by
  obtain hd | ⟨b, rest, q, -, -, hq, hd⟩ := mainLoop_cases hm
  · exact dispatchIf_inv h hidle hd
  · have htaken : (takeByte b rest s).Inv := { h with }
    refine dispatchIf_inv (frameStep_inv htaken hq) ?_ hd
    rw [frameStep_next hq]
    exact hidle

/-- The sequencer, going on from where it waits (R35). -/
theorem resume_inv {s : State} (h : s.Inv) : (resume s).Inv := by
  obtain ⟨k, q, hr, hf, hfs, hk, hfl, hp⟩ := resume_ran s
  rw [hr]
  refine h.of_commandFrame hf hfs (hfl h.fl) (hp h.restPins) ?_
  obtain hk | rfl := hk
  · simp [hk]
  · exact h.entry

theorem pass_inv {s t : State} (h : s.Inv) (hp : Machine.pass s = .next t) : t.Inv := by
  obtain ⟨i, hi, he⟩ | ⟨hidle, hm⟩ | ⟨-, rfl⟩ := pass_cases hp
  · have hentered : State.Inv { s with seq := { s.seq with entry := none } } := { h with entry := by simp }
    exact exec_inv hentered rfl (h.entry he) hi
  · exact mainLoop_inv h hidle hm
  · exact resume_inv h

/-- Settles O53: a reset gives a fresh state, and each thing a pass can be keeps the invariant: an instruction and the
sequencer rest with the pins their position asks for and change no framing register but by `frame_reset`, and the framer
keeps its own part in each framing state. -/
theorem invariantKeptByEveryStep : Obligations.InvariantKeptByEveryStep := by
  intro s t h hs
  obtain hp | ⟨k, q, -, hq, rfl⟩ := step_cases hs
  · exact pass_inv h hp
  · exact hardReset_inv (by rw [hq]; exact h.cfg)

/-! ## Reset (R43, R290, R294) -/

/-- Settles O56: the values are those of the definition, and an empty buffer reads as the free values. -/
theorem resetStateValues : Obligations.ResetStateValues :=
  ⟨rfl, rfl, rfl, rfl, rfl, rfl, rfl, fun _ => rfl, fun _ => rfl⟩

/-- The newest-first record of the first `k` events of a pass. -/
theorem newEvents_take_reverse (k : Nat) (s t : State) :
    ((newEvents s t).take k).reverse =
      (t.log.trace.take (t.log.trace.length - s.log.trace.length)).drop
        ((t.log.trace.take (t.log.trace.length - s.log.trace.length)).length - k) := by
  rw [newEvents, List.take_reverse, List.reverse_reverse]

/-- A pass cut after `k` events: the record and the surroundings have seen those events and no others (R290). -/
structure CutAt (events : List Event) (s q : State) : Prop where
  cfg : q.cfg = s.cfg
  epoch : q.epoch = s.epoch
  trace : q.log.trace = events.reverse ++ s.log.trace
  tx : q.env.tx = s.env.tx ++ events.filterMap Event.txByte?
  rx : q.env.rx = s.env.rx.drop (events.countP Event.isRx)
  target : q.env.target = s.env.target.drop (events.countP Event.isDin)

theorem cutAfter_cutAt (k : Nat) (s t : State) : CutAt ((newEvents s t).take k) s (cutAfter k s t) where
  cfg := rfl
  epoch := rfl
  trace := by rw [newEvents_take_reverse]; rfl
  tx := by
    rw [← List.reverse_reverse ((newEvents s t).take k), newEvents_take_reverse, List.filterMap_reverse]
    rfl
  rx := by rw [← List.countP_reverse, newEvents_take_reverse]; rfl
  target := by rw [← List.countP_reverse, newEvents_take_reverse]; rfl

/-- What a pass that stops has put on the record before its stop is the `RX` of the byte it takes (log 8). -/
theorem beforeStop_trace (s : State) :
    (beforeStop s).log.trace = s.eventsBeforeFault.reverse ++ s.log.trace := by
  unfold beforeStop State.eventsBeforeFault
  cases s.seq.entry with
  | some e => simp
  | none =>
    cases s.env.rx with
    | nil => simp
    | cons b rest => by_cases hfs : s.frame.fs = .complete <;> simp [hfs]

/-- A reset that comes before the pass ends or faults cuts it, and resets the state it is cut in. -/
theorem resetDuringPass_cut {k : Nat} {s : State} {events : List Event}
    (h : (∃ u, Machine.pass s = .next u ∧ events = (newEvents s u).take k) ∨
      ∃ f, Machine.pass s = .fault f ∧ k ≤ s.eventsBeforeFault.length ∧ events = s.eventsBeforeFault.take k) :
    ∃ q, resetDuringPass k s = .next (hardReset q) ∧ CutAt events s q := by
  obtain ⟨u, hp, rfl⟩ | ⟨f, hp, hk, rfl⟩ := h
  · exact ⟨cutAfter k s u, by simp only [resetDuringPass, hp], cutAfter_cutAt k s u⟩
  · have hcomes : ¬ (beforeStop s).log.trace.length < s.log.trace.length + k := by
      rw [beforeStop_trace, List.length_append, List.length_reverse]
      omega
    refine ⟨cutAfter k s (beforeStop s), by simp only [resetDuringPass, hp, if_neg hcomes], ?_⟩
    rw [← newEvents_of_trace (beforeStop_trace s)]
    exact cutAfter_cutAt k s (beforeStop s)

/-- Settles O57: the step is the reset of the pass cut at its `k`-th event, and a reset touches neither the record nor the
surroundings. -/
theorem hardwareResetStep : Obligations.HardwareResetStep := by
  intro k s events hadm hk h
  obtain ⟨q, hreset, hq⟩ := resetDuringPass_cut h
  refine ⟨hardReset q, (step_strike k s hadm hk).trans hreset, hq.cfg, rfl, rfl, rfl, rfl, rfl, ?_, ?_, ?_, rfl, hq.trace,
    hq.tx, hq.rx, hq.target⟩
  · rw [hardReset_epoch, hq.epoch]
  · intro i
    rw [← hq.epoch]
    rfl
  · intro i
    rw [← hq.epoch]
    rfl

/-! ## Entries of routines (logs 9, 22) -/

/-- Settles O41: the pass at an entry decodes it and runs the instruction. -/
theorem stepRunsDecodedEntry : Obligations.StepRunsDecodedEntry := by
  intro e i s hadm hquiet he hd
  rw [step_pass s hadm hquiet]
  simp only [Machine.pass, he, hd]

/-! ## A frame from the transport (R91, R218, R230) -/

/-- A read after consecutive writes: the byte written there, or what was there before. -/
theorem Mem.read_writeAll (bytes : List Byte) : ∀ (i a : Nat) (m : Mem),
    (m.writeAll i bytes).read a = if i ≤ a ∧ a < i + bytes.length then bytes[a - i]? else m.read a := by
  induction bytes with
  | nil =>
    intro i a m
    rw [if_neg (by simp)]
    rfl
  | cons b rest ih =>
    intro i a m
    rw [Mem.writeAll, ih, Mem.read_write, List.length_cons]
    by_cases ha : a = i
    · subst ha
      simp
    · by_cases hin : i + 1 ≤ a ∧ a < i + 1 + rest.length
      · have hsub : a - i = a - (i + 1) + 1 := by omega
        rw [if_pos hin, if_pos (by omega), hsub, List.getElem?_cons_succ]
      · rw [if_neg hin, if_neg ha, if_neg (by omega)]

/-- The Dispatcher sees the payload that the framer has taken. -/
theorem FrameWaits.fetchPayload_eq {action : Byte} {payload more : List Byte} {s : State}
    (h : FrameWaits action payload more s) : fetchPayload (frameTaken action payload more s) = payload := by
  have hmax := h.nPayload_le
  have hfits := h.fits
  have hlen : (BitVec.ofNat 8 payload.length).toNat = payload.length := by
    rw [BitVec.toNat_ofNat]
    omega
  apply List.ext_getElem
  · simp [fetchPayload, frameTaken]
    omega
  · intro i _ hi
    have hread : (s.fb.writeAll 0 (frameBytes action payload)).read (i + 2) = some payload[i] := by
      rw [Mem.read_writeAll, if_pos (by simp [frameBytes, hi])]
      simp [frameBytes, hi]
    simp [fetchPayload, State.fbByte, frameTaken, hread]

/-- A frame decodes by its action. -/
theorem decodeFrame_frameBytes (p : Params) (action : Byte) (payload : List Byte) (h : payload.length < 256) :
    decodeFrame p (frameBytes action payload) = decodeAction p action payload := by
  have hlen : payload.length = (BitVec.ofNat 8 payload.length).toNat := by
    rw [BitVec.toNat_ofNat, Nat.mod_eq_of_lt h]
  simp only [decodeFrame, frameBytes, if_pos hlen]

/-- Before its last byte the frame is not complete. -/
theorem FrameWaits.incomplete {action : Byte} {payload more : List Byte} {s : State}
    (h : FrameWaits action payload more s) {n : Nat} (hn : n < payload.length + 2) :
    ∃ m, run n s = .next m ∧ m.frame.fs ≠ .complete := by
  rcases Nat.eq_zero_or_pos n with rfl | hpos
  · exact ⟨s, rfl, by simp [h.start]⟩
  · obtain ⟨m, hm, hmid⟩ := h.assembles.before n hpos hn
    refine ⟨m, hm, ?_⟩
    rcases hmid with hfs | hfs <;> simp [hfs]

/-- Settles O39: the framer takes one byte a step, and the pass that takes the last one dispatches the frame just read back
from `FB`. -/
theorem frameAssembledAndDispatched : Obligations.FrameAssembledAndDispatched := by
  intro action payload more s hadm hquiet hidle hfs hfits hrx
  have h : FrameWaits action payload more s := ⟨⟨hadm, hquiet, hidle⟩, hfs, hfits, hrx⟩
  have hmax := h.nPayload_le
  have hlen : (frameBytes action payload).length = payload.length + 2 := by simp [frameBytes]
  refine ⟨fun n hn => h.incomplete hn, frameTaken action payload more s, rfl, ?_, ?_, ?_, ?_⟩
  · intro i hi
    exact (Mem.read_writeAll _ 0 i _).trans (if_pos (by omega))
  · intro i hi
    exact (Mem.read_writeAll _ 0 i _).trans (if_neg (by omega))
  · intro i hi
    rw [decodeFrame_frameBytes _ _ _ (by omega)] at hi
    rw [h.assembles.dispatched]
    exact dispatch_of_decodes h.length_le (by rw [h.fetchPayload_eq]; exact hi)
  · intro ha
    rw [h.assembles.dispatched]
    exact dispatch_unknown h.length_le ha

/-! ## FPI commands (R184 to R186) -/

/-- Settles O16: the routine returns having issued the exchange, and the instruction is the routine. -/
theorem eraseExchange : Obligations.EraseExchange := by
  intro ack l s ds rest hl ha ht
  obtain ⟨t, hrun, htr, hkeep, hres, hidx⟩ := eraseDevice_done s.cfg ack l hl s ds rest ht ha
  refine ⟨t, ?_, htr.step.toRoutineFrame, hkeep, hidx, htr.dev, htr.step.seq, htr.target, htr.issued, htr.idle, hres⟩
  rw [← settle_done, ← hrun]
  rfl

/-- Settles O17: the count is loaded first, and the routine returns having issued the exchange and stored the bytes. -/
theorem blockReadExchange : Obligations.BlockReadExchange := by
  intro address count vs l s ds rest hfits hl ha ht
  obtain ⟨t, hrun, htr, hres, hfl⟩ := readFlashBlock_done s.cfg address count vs l hl (setCnt count s) ds rest ht ha
  refine ⟨t, ?_, htr.step.toRoutineFrame, htr.step.cnt, htr.dev, htr.step.seq, htr.target, htr.issued, htr.idle, hres, hfl⟩
  rw [← settle_done, ← hrun]
  exact if_neg (Nat.not_lt.2 hfits)

/-- Settles O18: the count is loaded first, which changes no byte of `FL`, and the routine returns having issued the
exchange. -/
theorem blockWriteExchange : Obligations.BlockWriteExchange := by
  intro address length ack l s ds rest hfits hl ha ht
  obtain ⟨t, hrun, htr, hkeep, hres⟩ := writeFlashBlock_done s.cfg address length ack l (setCnt length s) hl ds rest ht ha
  refine ⟨t, ?_, htr.step.toRoutineFrame, htr.step.cnt, (setCnt_step length s).2.trans hkeep, htr.dev, htr.step.seq,
    htr.target, htr.issued, htr.idle, hres⟩
  rw [← settle_done, ← hrun]
  exact if_neg (Nat.not_lt.2 hfits)

/-! ## Waits that end (R35, R152, R153, R170, R171) -/

/-- The frame of the two-wire level says nothing of the sequencer, before or after. -/
theorem WireFrame.withSeq {s q : State} (h : WireFrame s q) (k k' : Seq) :
    WireFrame { s with seq := k } { q with seq := k' } :=
  { h with fbByte := h.fbByte, flByte := h.flByte }

/-- A held data instruction that ends is a step, which goes on with what remains of its routine and branch. -/
theorem step_of_finishWire {w : WireWait} {s q : State} (hadm : s.cfg.Admissible) (hquiet : s.env.resetIn = none)
    (he : s.seq.entry = none) (hw : s.seq.wire = some w) (h : finishWire w s = (true, q)) :
    step s = .next (goOn s.seq q) := by
  rw [step_resume s hadm hquiet he (by simp [Seq.idle, hw])]
  simp only [resume, hw, h]

/-- Settles O13: the instruction ends in the state after its wait field, with the position it waited at left, and the
sequencer goes on from there. -/
theorem heldInstructionEnds : Obligations.HeldInstructionEnds := by
  intro k s hadm hquiet he hdoe hk
  constructor
  · intro d hw hans
    obtain ⟨q, hq, hstep, htarget, hwork, hpins, hissued, htrace⟩ := finishWire_dataWrite_done d k s hdoe hans hk
    exact ⟨{ q with seq := {} }, _, hstep.toWireFrame.withSeq s.seq {}, rfl, htarget, by rw [hwork], hpins, hissued, htrace,
      rfl, step_of_finishWire hadm hquiet he hw hq⟩
  · intro v hw hans
    have hans' : s.answers (k + 9) = List.replicate k false ++ true :: byteBits v := by simpa [waits] using hans
    obtain ⟨q, hq, hstep, htarget, hv, hpins, hissued, htrace⟩ := finishWire_dataRead_done v k s hdoe hans' hk
    refine ⟨{ q with seq := {} }, _, hstep.toWireFrame.withSeq s.seq {}, rfl, htarget, hv, hpins, hissued, ?_, rfl,
      step_of_finishWire hadm hquiet he hw hq⟩
    rw [evSample, List.flatMap_append]
    exact htrace

/-- A statement of a routine that is done leaves the rest of the routine to its caller. -/
theorem runCmd_call_done {op : FlashOp} {s t : State} (h : flashOp op s = .done t) (more : List FlashOp)
    (rest : List CmdOp) : runCmd (.call (op :: more) :: rest) s = runCmd (.call more :: rest) t := by
  simp only [runCmd, runFlash, h]

/-- The condition of a poll, as the statement of a routine names it. -/
def PollsFor (op : FlashOp) (c : Byte → Bool) : Prop :=
  ∀ (s q : State), repeatUntil (pollTurn c) s.env.target.length s = (true, q) → flashOp op s = .done q

theorem pollsFor_high (mask : Byte) : PollsFor (.pollBitHigh mask) (maskSet mask) := fun s q h => by
  simp only [flashOp, pollBitHigh, h]

theorem pollsFor_low (mask : Byte) : PollsFor (.pollBitLow mask) (maskClear mask) := fun s q h => by
  simp only [flashOp, pollBitLow, h]

/-- A waiting poll whose condition comes is a step, which goes on with what remains of its routine and branch. -/
theorem step_of_poll {op : FlashOp} {c : Byte → Bool} (hop : PollsFor op c) {v : Byte} {fails : List Byte}
    {more : List FlashOp} {s : State} {ds rest : List LineDrive} (hadm : s.cfg.Admissible) (hquiet : s.env.resetIn = none)
    (he : s.seq.entry = none) (hw : s.seq.wire = none) (hflash : s.seq.flash = op :: more)
    (ht : s.env.target = ds ++ rest) (ha : AnswersAll ((fails ++ [v]).map .ar) ds) (hf : ∀ f ∈ fails, c f = false)
    (hv : c v = true) :
    ∃ u r, WireFrame s u ∧ u.seq = {} ∧ u.work.v = v ∧ u.env.target = rest ∧ u.idlePins ∧
      u.log.issued = ((fails ++ [v]).map .ar).reverse ++ s.log.issued ∧
      r = runCmd (.call more :: s.seq.cmd) u ∧ step s = .next { r.2 with seq := r.1 } := by
  have hfuel : fails.length ≤ s.env.target.length := by
    have := poll_fuel _ _ ha
    simp only [ht, List.length_append, List.length_singleton] at this ⊢
    omega
  obtain ⟨u, hrun, hstep, htarget, hval, hpins, hissued, -⟩ :=
    poll_done c v fails { s with seq := {} } ds rest s.env.target.length ht ha hf hv hfuel
  have hidle : u.idlePins := by
    rw [State.idlePins, hpins]
    exact ⟨rfl, rfl, rfl⟩
  have hframe : WireFrame s u := hstep.toWireFrame.withSeq s.seq u.seq
  refine ⟨u, _, hframe, hstep.seq, hval, htarget, hidle, hissued, rfl, ?_⟩
  rw [step_resume s hadm hquiet he (by simp [Seq.idle, hflash]), resume_routine s hw, goOn, hflash,
    runCmd_call_done (hop { s with seq := {} } u hrun)]

/-- Settles O59: each of the two polls with its condition. -/
theorem waitingPollGoesOn : Obligations.WaitingPollGoesOn := by
  rintro mask v fails more s ds rest hadm hquiet he hw ht ha (⟨hflash, hf, hv⟩ | ⟨hflash, hf, hv⟩)
  · exact step_of_poll (pollsFor_high mask) hadm hquiet he hw hflash ht ha (fun f hm => by simp [maskSet, hf f hm])
      (by simpa [maskSet] using hv)
  · exact step_of_poll (pollsFor_low mask) hadm hquiet he hw hflash ht ha (fun f hm => by simpa [maskClear] using hf f hm)
      (by simp [maskClear, hv])

/-! ## A transport that never accepts (R239, U18) -/

/-- The block waits to send a byte to a transport that will never accept. -/
structure Declined (op : CmdOp) (more : List CmdOp) (s : State) : Prop where
  admissible : s.cfg.Admissible
  quiet : s.env.resetIn = none
  seq : s.seq = { cmd := op :: more }
  rest : s.env.txGateRest = false
  gate : s.env.txGate = []

/-- A transport that will never accept, with no listed answer, declines the byte and is left as it is. -/
theorem txWrite_refused (b : Byte) {s : State} (h : s.env.txGateRest = false) (hg : s.env.txGate = []) :
    txWrite b s = (false, s) := by
  rw [txWrite_declined b s h (by simp [hg]), ← hg]

/-- A statement other than a call that is not done is where the branch waits. -/
theorem runCmd_of_not_done {op : CmdOp} {s q : State} (hop : ∀ body, op ≠ .call body) (h : cmdOp op s = (false, q))
    (more : List CmdOp) : runCmd (op :: more) s = ({ cmd := op :: more }, q) := by
  cases op with
  | call body => exact absurd rfl (hop body)
  | _ => simp only [runCmd, h]

/-- A step of a block whose byte is declined: nothing but what the statement does to the working registers before it offers
the byte. -/
theorem Declined.step_eq {op : CmdOp} {more : List CmdOp} {s : State} (h : Declined op more s) (b : Byte) (w : Work)
    (hop : ∀ body, op ≠ .call body)
    (hsend : cmdOp op { s with seq := {} } = txWrite b { s with work := w, seq := {} }) :
    step s = .next { s with work := w } := by
  have hwait := runCmd_of_not_done hop (hsend.trans (txWrite_refused b h.rest h.gate)) more
  rw [step_resume s h.admissible h.quiet (by rw [h.seq]) (by rw [h.seq]; rfl), resume_routine s (by rw [h.seq]), goOn]
  simp only [h.seq, runCmd_call_nil, hwait]

/-- The block waits on at the same byte. -/
theorem Declined.withWork {op : CmdOp} {more : List CmdOp} {s : State} (h : Declined op more s) (w : Work) :
    Declined op more { s with work := w } := ⟨h.admissible, h.quiet, h.seq, h.rest, h.gate⟩

/-- At a byte of `FL` the index is taken once, and then nothing changes any more. -/
theorem Declined.run_txFl {i : Nat} {more : List CmdOp} {s : State} (h : Declined (.txFl i) more s) (n : Nat) :
    run (n + 1) s = .next { s with work := { s.work with idx := BitVec.ofNat 9 i } } := by
  have hstep := h.step_eq (s.flByte i) { s.work with idx := BitVec.ofNat 9 i } (by simp) rfl
  have hfixed := (h.withWork { s.work with idx := BitVec.ofNat 9 i }).step_eq (s.flByte i)
    { s.work with idx := BitVec.ofNat 9 i } (by simp) rfl
  rw [run_succ n s _ hstep]
  exact run_of_fixed _ hfixed n

/-- Settles O35: a step of the waiting block offers the byte again and is declined, and after the first one `IDX` is already
the index that a byte of `FL` sets. -/
theorem decliningTransportHolds : Obligations.DecliningTransportHolds := by
  intro op more s hadm hquiet hseq hrest hgate
  have h : Declined op more s := ⟨hadm, hquiet, hseq, hrest, hgate⟩
  constructor
  · rintro (⟨b, rfl⟩ | rfl | rfl)
    · exact run_of_fixed s (h.step_eq b s.work (by simp) rfl)
    · exact run_of_fixed s (h.step_eq s.dev.id s.work (by simp) rfl)
    · exact run_of_fixed s (h.step_eq s.dev.revision s.work (by simp) rfl)
  · rintro i rfl n
    cases n with
    | zero => rfl
    | succ n => exact h.run_txFl n

end Sys2Proof.Machine

/-! PROOFS. The statements about the memory (spec/20_memory.md): the two-wire words bit by bit, and the commands that move
data between the frame, `FL` and the target, with what a command that uses the two wires does before it answers. -/
namespace Sys2Proof.Machine

/-! ## Two-wire words (R65, R100 to R103) -/

/-- Settles O3: the two words with an operand bit by bit, the other two by evaluation. -/
theorem wordBitsInWireOrder : Obligations.WordBitsInWireOrder :=
  ⟨addressWriteWord_bits, by decide, dataWriteWord_bits, by decide⟩

/-! ## A command that uses the two wires and then answers (R74, R241) -/

/-- The instructions `l` have been issued, with the events `traffic` (newest first); then the bytes `bs` have gone to the
host, and the framing state is reset. -/
structure Answered (l : List WireAccess) (rest : List LineDrive) (traffic : List Event) (bs : List Byte) (s t : State) : Prop
    extends TrafficFrame s t where
  fs : t.frame.fs = .awaitingAction
  tx : t.env.tx = s.env.tx ++ bs
  target : t.env.target = rest
  issued : t.log.issued = l.reverse ++ s.log.issued
  trace : t.log.trace = (bs.map .tx).reverse ++ (traffic ++ s.log.trace)
  onWires : ∀ e ∈ traffic, e.onWires = true
  led : t.pins.led = s.pins.led
  dev : t.dev = s.dev

/-- `frame_reset()` is a statement of a Dispatcher branch. -/
theorem frameReset_step (s : State) : CommandStep s (frameReset s) := (cmdOp_frame .frameReset s).1

/-- The framing state may as well be reset before the bytes go out. -/
theorem Sends.frameReset {bs : List Byte} {s t : State} (h : Sends bs s t) :
    Sends bs (frameReset s) (frameReset t) where
  step := { h.step with fs := .inl rfl }
  keeps := h.keeps
  frame := by rw [frameReset_frame, frameReset_frame, h.frame]
  dev := h.dev
  pins := h.pins
  work := h.work
  target := h.target
  tx := h.tx
  issued := h.issued
  trace := h.trace

/-- A routine that has returned in `u`, then `frame_reset` and the response. -/
theorem Traffic.answered {l : List WireAccess} {rest : List LineDrive} {bs : List Byte} {s u t : State}
    (h : Traffic l rest s u) (htrail : Trail s u) (hs : Sends bs (frameReset u) t) :
    CommandStep s t ∧ ∃ traffic, Answered l rest traffic bs s t := by
  obtain ⟨traffic, htrace, hwires⟩ := htrail
  have hstep : CommandStep s t := (h.step.toCommand.trans (frameReset_step u)).trans hs.step
  exact ⟨hstep, traffic,
    { hstep.toCommandFrame with
      seq := hstep.seq
      idle := by rw [State.idlePins, hs.pins]; exact h.idle
      fs := by rw [hs.frame]; rfl
      tx := by rw [hs.tx, frameReset_env, h.step.tx]
      target := by rw [hs.target, frameReset_env, h.target]
      issued := by rw [hs.issued, frameReset_log, h.issued]
      trace := by rw [hs.trace, frameReset_log, htrace]
      onWires := hwires
      led := by rw [hs.pins, frameReset_pins, h.step.led]
      dev := by rw [hs.dev, frameReset_dev, h.dev] }⟩

/-- A prologue that only moves data comes before. -/
theorem Answered.pre {l : List WireAccess} {rest : List LineDrive} {traffic : List Event} {bs : List Byte} {s q t : State}
    (h : Answered l rest traffic bs q t) (g : DataStep s q) (hlog : q.log = s.log) : Answered l rest traffic bs s t :=
  { g.frameOf.trans h.toCommandFrame with
    seq := h.seq.trans g.seq
    idle := h.idle
    fs := h.fs
    tx := by rw [h.tx, g.env]
    target := h.target
    issued := by rw [h.issued, hlog]
    trace := by rw [h.trace, hlog]
    onWires := h.onWires
    led := by rw [h.led, g.pins]
    dev := h.dev.trans g.dev }

/-! ## ERASE (R235) -/

/-- `eraseDevice()` returns, whatever the acknowledgments are; `IDX` has run over the key if the key was sent. -/
theorem eraseDevice_returns {p : Params} {l : List WireAccess} {idx : BitVec 9} {s : State} {ds rest : List LineDrive}
    (hl : (∃ ack, EraseRun p ack l) ∧ idx = 2 ∨
      (∃ ack, ack ≠ Config.ackOk ∧ OpenRun p p.fpiDeviceErase ack l) ∧ idx = s.work.idx)
    (ha : AnswersAll l ds) (ht : s.env.target = ds ++ rest) :
    ∃ u, runFlash (eraseDevice p) s = ({}, u) ∧ Traffic l rest s u ∧ KeepsFl s u ∧ u.work.idx = idx := by
  obtain ⟨⟨ack, hrun⟩, rfl⟩ | ⟨⟨ack, hack, hopen⟩, rfl⟩ := hl
  · obtain ⟨u, hu, htr, hkeep, -, hidx⟩ := eraseDevice_done p ack l hrun s ds rest ht ha
    exact ⟨u, hu, htr, hkeep, hidx⟩
  · obtain ⟨u, hu, htr, hkeep, -, hidx⟩ := opened_fail p _ ack hack l hopen s ds rest ht ha _
    exact ⟨u, hu, htr, hkeep, hidx⟩

/-- Settles O28: the routine returns on both paths, and then the framing state is reset and the byte goes out. -/
theorem eraseCommandEffect : Obligations.EraseCommandEffect := by
  intro payload l idx s ds rest hgate hl ha ht
  obtain ⟨u, hrun, htr, hkeep, hidx⟩ := eraseDevice_returns hl ha ht
  obtain ⟨t, hsend, hs, hwork⟩ := runCmd_tx 0x84 [] (frameReset u) (by rw [frameReset_env, htr.step.txGateRest]; exact hgate)
  obtain ⟨hstep, traffic, h⟩ := htr.answered (trail_of_run hrun) hs
  refine ⟨t, traffic, ?_, h.toTrafficFrame, hkeep.trans hs.keeps, h.fs, h.tx, h.target, h.issued, h.trace, h.onWires,
    h.led, h.dev, ?_, hstep.addr, hstep.cks, hstep.sum, hstep.cnt⟩
  · rw [← settle_done, ← runCmd_nil, ← hsend, ← runCmd_frameReset, ← runCmd_call _ _ _ _ hrun]
    rfl
  · rw [hwork, frameReset_work, hidx]

/-! ## Bytes of `FL` and of the frame (R64, R105) -/

/-- The first bytes of a buffer into which `xs` has been stored are `xs`. -/
theorem map_range_of_getD {xs : List Byte} {f g : Nat → Byte} (h : ∀ a, f a = xs.getD a (g a)) :
    (List.range xs.length).map f = xs := by
  apply List.ext_getElem
  · simp
  · intro i _ hi
    simp [h, hi]

/-- Of three bytes one above the other the lower two are the low 16 bits. -/
theorem extractLsb'_append_append (high mid low : Byte) : (high ++ mid ++ low).extractLsb' 0 16 = mid ++ low := by
  apply BitVec.eq_of_getLsbD_eq
  intro i hi
  simp only [BitVec.getLsbD_extractLsb', BitVec.getLsbD_append, hi, Nat.zero_add, decide_true, Bool.true_and]
  by_cases h : i < 8
  · simp [h]
  · have hmid : i - 8 < 8 := by omega
    simp [h, hmid]

/-- The address bytes of a WRITE frame are the 16 bits that are sent. -/
theorem sentAddr_writeAddr (old : Addr24) (high low : Byte) : sentAddr (writeAddr old high low) = high ++ low :=
  extractLsb'_append_append _ _ _

/-- Of the three address bytes of a READ frame the lower two are sent. -/
theorem sentAddr_readAddr (a2 a1 a0 : Byte) : sentAddr (readAddr a2 a1 a0) = a1 ++ a0 :=
  extractLsb'_append_append _ _ _

/-! ## WRITE (R234) -/

/-- What WRITE's prologue does. -/
theorem writePrologue_spec (high low cks : Byte) (data : List Byte) (s : State) :
    (writePrologue high low cks data s).log = s.log ∧
    (∃ x, (writePrologue high low cks data s).work =
      { s.work with
        cnt := BitVec.ofNat 8 data.length, addr := writeAddr s.work.addr high low, cks := cks
        sum := checksum high low data, idx := x }) ∧
    ∀ a, (writePrologue high low cks data s).flByte a = data.getD a (s.flByte a) := by
  obtain ⟨-, -, -, -, -, -, -, hlog, -, ⟨x, hwork⟩, hfl, -⟩ := copyToFl_spec data 0
    { s with work := { s.work with
        cnt := BitVec.ofNat 8 data.length, addr := writeAddr s.work.addr high low, cks := cks } }
  refine ⟨hlog, ⟨x, by simp [writePrologue, hwork]⟩, fun a => (hfl a).trans ?_⟩
  by_cases hin : a < data.length
  · simp [hin]
  · simp [hin]
    rfl

/-- `writeFlashBlock` returns, whatever the acknowledgments are. -/
theorem writeFlashBlock_returns {p : Params} {address : Addr16} {length : Byte} {l : List WireAccess} {s : State}
    {ds rest : List LineDrive}
    (hl : (∃ ack, BlockWriteRun p address ((List.range length.toNat).map s.flByte) ack l) ∨
      ∃ ack, ack ≠ Config.ackOk ∧ OpenRun p p.fpiBlockWrite ack l)
    (ha : AnswersAll l ds) (ht : s.env.target = ds ++ rest) :
    ∃ u, runFlash (writeFlashBlock p address length) s = ({}, u) ∧ Traffic l rest s u ∧ KeepsFl s u := by
  obtain ⟨ack, hrun⟩ | ⟨ack, hack, hopen⟩ := hl
  · obtain ⟨u, hu, htr, hkeep, -⟩ := writeFlashBlock_done p address length ack l s hrun ds rest ht ha
    exact ⟨u, hu, htr, hkeep⟩
  · obtain ⟨u, hu, htr, hkeep, -⟩ := opened_fail p _ ack hack l hopen s ds rest ht ha _
    exact ⟨u, hu, htr, hkeep⟩

/-- With a right checksum WRITE's branch is the block write and the response (R234). -/
theorem writeBranch_match {q : State} (h : q.work.sum = q.work.cks) :
    writeBranch q = [.call (writeFlashBlock q.cfg (sentAddr q.work.addr) q.work.cnt), .tx 0x83, .frameReset] :=
  if_neg (not_not.2 h)

/-- WRITE with data that fits is its prologue and its branch. -/
theorem exec_write_fits {high low cks : Byte} {data : List Byte} {s : State} (hfits : data.length ≤ s.cfg.nFlash) :
    exec (.write (high :: low :: cks :: data)) s =
      settle (runCmd (writeBranch (writePrologue high low cks data s)) (writePrologue high low cks data s)) :=
  if_neg (Nat.not_lt.2 hfits)

/-- Settles O27: the prologue puts the data into `FL` and the address into `ADDR`, from where the block write sends them; it
returns on both paths, and then the byte goes out and the framing state is reset. -/
theorem writeCommandEffect : Obligations.WriteCommandEffect := by
  intro high low cks data l s ds rest hgate hfits hlen hsum hl ha ht
  have hpre := writePrologue_step high low cks data s
  obtain ⟨hlog, ⟨x, hwork⟩, hfl⟩ := writePrologue_spec high low cks data s
  rw [hsum] at hwork
  generalize hq : writePrologue high low cks data s = q at *
  have haddr : sentAddr q.work.addr = high ++ low := by rw [hwork]; exact sentAddr_writeAddr _ _ _
  have hcnt : q.work.cnt.toNat = data.length := by rw [hwork, BitVec.toNat_ofNat]; omega
  have hdata : (List.range q.work.cnt.toNat).map q.flByte = data := by rw [hcnt]; exact map_range_of_getD hfl
  rw [← hpre.env] at hgate ht
  rw [← haddr, ← hpre.cfg] at hl
  nth_rw 1 [← hdata] at hl
  obtain ⟨u, hrun, htr, hkeep⟩ := writeFlashBlock_returns hl ha ht
  obtain ⟨v, hsend, hs, -⟩ := runCmd_tx 0x83 [.frameReset] u (by rw [htr.step.txGateRest]; exact hgate)
  obtain ⟨hstep, traffic, h⟩ := htr.answered (trail_of_run hrun) hs.frameReset
  have h := h.pre hpre hlog
  refine ⟨frameReset v, traffic, ?_, h.toTrafficFrame, h.fs, h.tx, h.target, h.issued, h.trace, h.onWires, h.led, h.dev,
    ?_, ?_, ?_, ?_, fun a => ?_⟩
  · rw [exec_write_fits hfits, hq, writeBranch_match (by rw [hwork]), runCmd_call _ _ _ _ hrun, hsend]
    exact settle_done _
  · rw [hstep.addr]; exact haddr
  · rw [hstep.cks, hwork]
  · rw [hstep.sum, hwork]
  · rw [hstep.cnt, hwork]
  · exact ((hkeep.trans hs.keeps).2 a).trans (hfl a)

/-! ## READ (R236) -/

/-- What READ does before it touches the target or the host (R236). -/
def readPrologue (count a2 a1 a0 : Byte) (s : State) : State :=
  { s with work := { s.work with cnt := count, addr := readAddr a2 a1 a0 } }

/-- READ with a count that fits is its prologue and its branch. -/
theorem exec_read_fits {count a2 a1 a0 : Byte} {more : List Byte} {s : State} (hfits : CountFits s.cfg count) :
    exec (.read (count :: a2 :: a1 :: a0 :: more)) s =
      settle (runCmd (readBranch (readPrologue count a2 a1 a0 s)) (readPrologue count a2 a1 a0 s)) :=
  if_neg (Nat.not_lt.2 hfits)

theorem readPrologue_step (count a2 a1 a0 : Byte) (s : State) : DataStep s (readPrologue count a2 a1 a0 s) :=
  ⟨rfl, rfl, rfl, rfl, rfl, rfl, rfl, rfl, id⟩

/-- The READ response: its code, then the bytes that `FL` holds (R97, R236). -/
theorem runCmd_readResponse (count : Byte) (s : State) (h : s.env.txGateRest = true) :
    ∃ t, runCmd (readResponse count) s = ({}, t) ∧ Sends (0x85 :: (List.range count.toNat).map s.flByte) s t := by
  obtain ⟨u, hcode, hu, -⟩ := runCmd_tx 0x85 ((List.range count.toNat).map .txFl) s h
  obtain ⟨t, hdata, ht⟩ := runCmd_txFl count.toNat [] 0 u (by rw [hu.step.txGateRest]; exact h)
  rw [← List.range_eq_range', List.append_nil] at hdata
  have hbytes : (List.range' 0 count.toNat).map u.flByte = (List.range count.toNat).map s.flByte := by
    rw [← List.range_eq_range', funext hu.keeps.2]
  rw [hbytes] at ht
  exact ⟨t, by rw [← runCmd_nil, ← hdata, ← hcode]; rfl, hu.trans ht⟩

/-- READ whose block read returns in `u`, whatever its result (R241): the bytes that `FL` then holds go out. -/
theorem exec_read_answered {count a2 a1 a0 : Byte} {more : List Byte} {l : List WireAccess} {rest : List LineDrive}
    {s u : State} (hgate : s.env.txGateRest = true) (hfits : CountFits s.cfg count)
    (hrun : runFlash (readFlashBlock s.cfg (a1 ++ a0) count) (readPrologue count a2 a1 a0 s) = ({}, u))
    (htr : Traffic l rest (readPrologue count a2 a1 a0 s) u) :
    ∃ t traffic, exec (.read (count :: a2 :: a1 :: a0 :: more)) s = .next t ∧
      CommandStep (readPrologue count a2 a1 a0 s) t ∧ KeepsFl u t ∧
      Answered l rest traffic (0x85 :: (List.range count.toNat).map u.flByte) s t := by
  obtain ⟨t, hsend, hs⟩ := runCmd_readResponse count (frameReset u) (by rw [frameReset_env, htr.step.txGateRest]; exact hgate)
  obtain ⟨hstep, traffic, h⟩ := htr.answered (trail_of_run hrun) hs
  refine ⟨t, traffic, ?_, hstep, hs.keeps, h.pre (readPrologue_step _ _ _ _ _) rfl⟩
  rw [← sentAddr_readAddr a2 a1 a0] at hrun
  rw [exec_read_fits hfits, ← settle_done, ← hsend, ← runCmd_frameReset, ← runCmd_call _ _ _ _ hrun]
  rfl

/-- Settles O29: the block read leaves the bytes read in `FL`, and the response sends them from there. -/
theorem readCommandEffect : Obligations.ReadCommandEffect := by
  intro count a2 a1 a0 more vs l s ds rest hgate hfits hl ha ht
  have hlen : vs.length = count.toNat := hl.1
  obtain ⟨u, hrun, htr, -, hfl⟩ := readFlashBlock_done s.cfg _ count vs l hl (readPrologue count a2 a1 a0 s) ds rest ht ha
  obtain ⟨t, traffic, hexec, hstep, hkeep, h⟩ := exec_read_answered (more := more) hgate hfits hrun htr
  rw [← hlen, map_range_of_getD hfl] at h
  exact ⟨t, traffic, hexec, h.toTrafficFrame, h.fs, h.tx, h.target, h.issued, h.trace, h.onWires, h.led, h.dev,
    hstep.cnt, hstep.addr, hstep.cks, hstep.sum, fun a => (hkeep.2 a).trans (hfl a)⟩

/-- Settles O30: the block read returns at its first acknowledgment with `FL` as it was, and the response sends that. -/
theorem readAfterFailureSendsStaleBytes : Obligations.ReadAfterFailureSendsStaleBytes := by
  intro count a2 a1 a0 ack more l s ds rest hgate hfits hack hl ha ht
  obtain ⟨u, hrun, htr, hfl, -⟩ :=
    opened_fail s.cfg _ ack hack l hl (readPrologue count a2 a1 a0 s) ds rest ht ha _
  obtain ⟨t, traffic, hexec, hstep, hkeep, h⟩ := exec_read_answered (more := more) hgate hfits hrun htr
  have hstale : u.flByte = s.flByte := funext hfl.2
  rw [hstale] at h
  exact ⟨t, traffic, hexec, h.toTrafficFrame, hfl.trans hkeep, h.fs, h.tx, h.target, h.issued, h.trace, h.onWires, h.led,
    h.dev, hstep.cnt, hstep.addr, hstep.cks, hstep.sum⟩

end Sys2Proof.Machine

/-! PROOFS. The statements about the encodings (spec/30_encoding.md): the decoders and the encoder of the four formats read
each other back, the two-wire instructions one by one, WRITE with a wrong checksum, and the responses. -/
namespace Sys2Proof.Machine

/-! ## Selection by a code (R92, R97, R106)

Three of the four decoders go through a list of codes and answer for the first one that matches. -/

/-- The instruction that a table gives a code. -/
def selectIn (table : List (Byte × Instr)) (err : DecodeError) (code : Byte) : Except DecodeError Instr :=
  match table with
  | [] => .error err
  | (c, i) :: rest => if code = c then .ok i else selectIn rest err code

/-- What a table answers stands in it. -/
theorem mem_of_selectIn {table : List (Byte × Instr)} {err : DecodeError} {code : Byte} {i : Instr}
    (h : selectIn table err code = .ok i) : (code, i) ∈ table := by
  induction table with
  | nil => cases h
  | cons entry rest ih =>
    rw [selectIn] at h
    split at h
    next heq =>
      cases h
      rw [heq]
      exact List.mem_cons_self
    next => exact List.mem_cons_of_mem _ (ih h)

/-- A table of distinct codes answers each of its entries. -/
theorem selectIn_of_mem {table : List (Byte × Instr)} {code : Byte} {i : Instr} (err : DecodeError)
    (hcodes : (table.map Prod.fst).Nodup) (h : (code, i) ∈ table) : selectIn table err code = .ok i := by
  induction table with
  | nil => cases h
  | cons entry rest ih =>
    obtain ⟨hfirst, hrest⟩ := List.nodup_cons.1 hcodes
    rcases List.mem_cons.1 h with rfl | htail
    · exact if_pos rfl
    · have hne : code ≠ entry.1 := fun heq => hfirst (heq ▸ List.mem_map_of_mem htail)
      rw [selectIn, if_neg hne, ih hrest htail]

/-- The host commands with one payload (R92). -/
def commandTable (p : Params) (payload : List Byte) : List (Byte × Instr) :=
  [(p.actAck, .ack payload), (p.actInit, .init payload), (p.actReset, .reset payload), (p.actWrite, .write payload),
    (p.actErase, .erase payload), (p.actRead, .read payload), (p.actInfo, .info payload)]

/-- The block operations with their operands (R106, R107). -/
def blockTable (p : Params) (address : Addr16) (n : Byte) : List (Byte × Instr) :=
  [(p.fpiBlockRead, .blockRead address n), (p.fpiBlockWrite, .blockWrite address n)]

/-- The responses (R97). -/
def responseTable : List (Byte × Instr) :=
  [(Config.rspAck, .rspAck), (Config.rspInit, .rspInit), (Config.rspReset, .rspReset), (Config.rspWrite, .rspWrite),
    (Config.rspChecksumFail, .rspChecksumFail), (Config.rspErase, .rspErase), (Config.rspRead, .rspRead),
    (Config.rspInfo, .rspInfo)]

theorem decodeAction_eq_selectIn (p : Params) (action : Byte) (payload : List Byte) :
    decodeAction p action payload = selectIn (commandTable p payload) (.unknownAction action) action := rfl

theorem decodeFpi_block_eq_selectIn (p : Params) (c hi lo n : Byte) :
    decodeFpi p [c, hi, lo, n] = selectIn (blockTable p (hi ++ lo) n) (.badFpi [c, hi, lo, n]) c := rfl

theorem decodeResponse_eq_selectIn (code : Byte) :
    decodeResponse code = selectIn responseTable (.unknownResponse code) code := rfl

/-- The encoder writes a frame with the action of the table (R91, R92). -/
theorem encode_of_mem_commandTable {p : Params} {payload : List Byte} {action : Byte} {i : Instr}
    (h : (action, i) ∈ commandTable p payload) : encode p i = .frame (frameBytes action payload) := by
  have hall : ∀ entry ∈ commandTable p payload, encode p entry.2 = .frame (frameBytes entry.1 payload) := by
    simp [commandTable, encode]
  exact hall _ h

/-- The encoder writes a block operation with the command byte of the table (R106, R107). -/
theorem encode_of_mem_blockTable {p : Params} {address : Addr16} {n c : Byte} {i : Instr}
    (h : (c, i) ∈ blockTable p address n) : encode p i = .fpi [c, addrHigh address, addrLow address, n] := by
  have hall : ∀ entry ∈ blockTable p address n,
      encode p entry.2 = .fpi [entry.1, addrHigh address, addrLow address, n] := by
    simp [blockTable, encode]
  exact hall _ h

/-- The encoder writes a response with the code of the table (R97). -/
theorem encode_of_mem_responseTable {p : Params} {code : Byte} {i : Instr} (h : (code, i) ∈ responseTable) :
    encode p i = .response code := by
  have hall : ∀ entry ∈ responseTable, encode p entry.2 = .response entry.1 := by
    simp [responseTable, encode]
  exact hall _ h

/-! ## The fields of a word and of an address (R64, R100, R102) -/

/-- An address-write word is two zeros above ten bits, the address, the tag (R100). -/
theorem addressWriteWord_eq_append (a : Byte) : addressWriteWord a = 0b00#2 ++ a ++ 0b11#2 := by
  apply BitVec.eq_of_getLsbD_eq
  intro i hi
  refine Eq.trans ?_ BitVec.getLsbD_append.symm
  simp only [BitVec.getLsbD_append]
  interval_cases i <;> simp [addressWriteWord]

/-- A data-write word is the data above the tag (R102). -/
theorem dataWriteWord_eq_append (d : Byte) : dataWriteWord d = d ++ 0b0001#4 := by
  apply BitVec.eq_of_getLsbD_eq
  intro i hi
  refine Eq.trans ?_ BitVec.getLsbD_append.symm
  interval_cases i <;> simp [dataWriteWord]

theorem addressWriteWord_tag (a : Byte) : (addressWriteWord a).extractLsb' 0 2 = 0b11#2 := by
  rw [addressWriteWord_eq_append]
  exact BitVec.extractLsb'_append_eq_right

theorem addressWriteWord_unused (a : Byte) : (addressWriteWord a).extractLsb' 10 2 = 0b00#2 := by
  rw [addressWriteWord_eq_append, BitVec.extractLsb'_append_eq_of_le (by decide)]
  exact BitVec.extractLsb'_append_eq_left

theorem addressWriteWord_address (a : Byte) : (addressWriteWord a).extractLsb' 2 8 = a := by
  rw [addressWriteWord_eq_append, BitVec.extractLsb'_append_eq_of_le (by decide)]
  exact BitVec.extractLsb'_append_eq_right

theorem dataWriteWord_tag (d : Byte) : (dataWriteWord d).extractLsb' 0 4 = 0b0001#4 := by
  rw [dataWriteWord_eq_append]
  exact BitVec.extractLsb'_append_eq_right

theorem dataWriteWord_data (d : Byte) : (dataWriteWord d).extractLsb' 4 8 = d := by
  rw [dataWriteWord_eq_append]
  exact BitVec.extractLsb'_append_eq_left

/-- A word with the tag of an address write and zeros above is the word of its address field. -/
theorem addressWriteWord_extract {word : WireWord} (htag : word.extractLsb' 0 2 = 0b11#2)
    (hunused : word.extractLsb' 10 2 = 0b00#2) : addressWriteWord (word.extractLsb' 2 8) = word := by
  rw [addressWriteWord_eq_append, ← htag, ← hunused, BitVec.extractLsb'_append_extractLsb'_eq_extractLsb' (by rfl),
    BitVec.extractLsb'_append_extractLsb'_eq_extractLsb' (by rfl)]
  exact BitVec.extractLsb'_eq_self

/-- A word with the tag of a data write is the word of its data field. -/
theorem dataWriteWord_extract {word : WireWord} (htag : word.extractLsb' 0 4 = 0b0001#4) :
    dataWriteWord (word.extractLsb' 4 8) = word := by
  rw [dataWriteWord_eq_append, ← htag, BitVec.extractLsb'_append_extractLsb'_eq_extractLsb' (by rfl)]
  exact BitVec.extractLsb'_eq_self

theorem addrHigh_append (hi lo : Byte) : addrHigh (hi ++ lo) = hi := BitVec.extractLsb'_append_eq_left

theorem addrLow_append (hi lo : Byte) : addrLow (hi ++ lo) = lo := BitVec.extractLsb'_append_eq_right

theorem addrHigh_append_addrLow (address : Addr16) : addrHigh address ++ addrLow address = address :=
  (BitVec.extractLsb'_append_extractLsb'_eq_extractLsb' rfl).trans BitVec.extractLsb'_eq_self

/-! ## What the encoder writes is read back -/

/-- A frame with an action of the table and a payload that fits (R91, R92). -/
theorem decode_frame_of_mem {p : Params} {payload : List Byte} {action : Byte} {i : Instr} (hadm : p.Admissible)
    (hfits : PayloadFits p payload) (h : (action, i) ∈ commandTable p payload) :
    decode p (.frame (frameBytes action payload)) = .ok i := by
  obtain ⟨hcodes, -, -, -, hmax, -⟩ := hadm
  have hlen : payload.length < 256 := by omega
  calc decode p (.frame (frameBytes action payload))
    _ = decodeAction p action payload := decodeFrame_frameBytes p action payload hlen
    _ = selectIn (commandTable p payload) (.unknownAction action) action := decodeAction_eq_selectIn p action payload
    _ = .ok i := selectIn_of_mem _ hcodes h

/-- A block operation with its operands (R106, R107). -/
theorem decode_block_of_mem {p : Params} {address : Addr16} {n c : Byte} {i : Instr} (hcodes : p.fpiCodes.Nodup)
    (h : (c, i) ∈ blockTable p address n) : decode p (.fpi [c, addrHigh address, addrLow address, n]) = .ok i := by
  rw [decode, decodeFpi_block_eq_selectIn, addrHigh_append_addrLow]
  exact selectIn_of_mem _ (List.nodup_cons.1 hcodes).2 h

/-- A response code (R97). -/
theorem decode_response_of_mem {p : Params} {code : Byte} {i : Instr} (h : (code, i) ∈ responseTable) :
    decode p (.response code) = .ok i := by
  rw [decode, decodeResponse_eq_selectIn]
  exact selectIn_of_mem _ (by decide) h

/-- An address-write word (R100, R104). -/
theorem decodeWire_addressWriteWord (a : Byte) : decodeWire 10 (addressWriteWord a) = .ok (.addressWrite a) := by
  simp [decodeWire, addressWriteWord_tag, addressWriteWord_unused, addressWriteWord_address]

/-- A data-write word (R102, R104). -/
theorem decodeWire_dataWriteWord (d : Byte) : decodeWire 12 (dataWriteWord d) = .ok (.dataWrite d) := by
  simp [decodeWire, dataWriteWord_tag, dataWriteWord_data]

/-- Settles O1: frames, block operations and responses are read back by their tables, the two words with an operand by their
fields, and the three forms without one are written out. -/
theorem decodeEncodeRoundTrip : Obligations.DecodeEncodeRoundTrip := by
  intro p i hadm hfpi hwf
  cases i with
  | ack payload | init payload | reset payload | write payload | erase payload | read payload | info payload =>
    exact decode_frame_of_mem hadm hwf (by simp [commandTable])
  | addressWrite address => exact decodeWire_addressWriteWord address
  | addressRead | dataRead => rfl
  | dataWrite data => exact decodeWire_dataWriteWord data
  | deviceErase => exact if_pos rfl
  | blockRead address n | blockWrite address n => exact decode_block_of_mem hfpi (by simp [blockTable])
  | rspAck | rspInit | rspReset | rspWrite | rspChecksumFail | rspErase | rspRead | rspInfo =>
    exact decode_response_of_mem (by simp [responseTable])

/-! ## What a decoder accepts is what the encoder writes -/

/-- The length byte of an accepted frame counts its payload (R91, R93). -/
theorem encode_of_decodeFrame {p : Params} {bytes : List Byte} {i : Instr} (h : decodeFrame p bytes = .ok i) :
    encode p i = .frame bytes := by
  match bytes, h with
  | [], h => cases h
  | [_], h => cases h
  | action :: length :: payload, h =>
    simp only [decodeFrame] at h
    split at h
    next hlen =>
      rw [decodeAction_eq_selectIn] at h
      rw [encode_of_mem_commandTable (mem_of_selectIn h), frameBytes, hlen, BitVec.ofNat_toNat, BitVec.setWidth_eq]
    next => cases h

/-- Each row of the decode table R104 fixes width and word. -/
theorem encode_of_decodeWire {p : Params} {width : Nat} {word : WireWord} {i : Instr}
    (h : decodeWire width word = .ok i) : encode p i = .wire width word := by
  unfold decodeWire at h
  split_ifs at h with haw har hdw hdr
  · obtain ⟨rfl, htag, hunused⟩ := haw
    cases h
    rw [encode, addressWriteWord_extract htag hunused]
  · obtain ⟨rfl, rfl⟩ := har
    cases h
    rfl
  · obtain ⟨rfl, htag⟩ := hdw
    cases h
    rw [encode, dataWriteWord_extract htag]
  · obtain ⟨rfl, rfl⟩ := hdr
    cases h
    rfl

/-- An accepted FPI command is one byte, or four with the address in the middle (R107). -/
theorem encode_of_decodeFpi {p : Params} {bytes : List Byte} {i : Instr} (h : decodeFpi p bytes = .ok i) :
    encode p i = .fpi bytes := by
  match bytes, h with
  | [], h => cases h
  | [c], h =>
    rw [decodeFpi] at h
    split at h
    next heq =>
      cases h
      rw [heq, encode]
    next => cases h
  | [_, _], h => cases h
  | [_, _, _], h => cases h
  | [c, hi, lo, n], h =>
    rw [decodeFpi_block_eq_selectIn] at h
    rw [encode_of_mem_blockTable (mem_of_selectIn h), addrHigh_append, addrLow_append]
  | _ :: _ :: _ :: _ :: _ :: _, h => cases h

/-- An accepted response code is the code of the response it is read as (R97). -/
theorem encode_of_decodeResponse {p : Params} {code : Byte} {i : Instr} (h : decodeResponse code = .ok i) :
    encode p i = .response code := by
  rw [decodeResponse_eq_selectIn] at h
  exact encode_of_mem_responseTable (mem_of_selectIn h)

/-- Settles O2, format by format. -/
theorem acceptedFormsAreEncodings : Obligations.AcceptedFormsAreEncodings := by
  intro p e i h
  cases e with
  | frame bytes => exact encode_of_decodeFrame h
  | wire width word => exact encode_of_decodeWire h
  | fpi bytes => exact encode_of_decodeFpi h
  | response code => exact encode_of_decodeResponse h

/-- Settles O4 by evaluating the decoders. -/
theorem knownWordsDecode : Obligations.KnownWordsDecode := by
  unfold Obligations.KnownWordsDecode
  decide

/-! ## The two-wire instructions (R150 to R153) -/

/-- Settles O5: the common head and tail around the address word (R141). -/
theorem addressWriteEffect : Obligations.AddressWriteEffect := by
  intro address s
  obtain ⟨hstep, henv, hv, hpins, hissued, htrace⟩ := addressWrite_spec address s
  exact ⟨_, rfl, hstep.toWireFrame, hstep.seq, by rw [henv], hv, hpins, hissued, htrace⟩

/-- Eight sampled levels are the bits of their byte in wire order (R65, R105(e)). -/
theorem byteBits_byteOfBits (bits : List Bool) (h : bits.length = 8) : byteBits (byteOfBits bits) = bits := by
  apply List.ext_getElem
  · simp [byteBits, h]
  · intro i _ hi
    simp [byteBits, byteOfBits_bit bits h, hi]

/-- Settles O6: the byte latched is that of the eight samples, so its bits are the samples. -/
theorem addressReadEffect : Obligations.AddressReadEffect := by
  intro s
  obtain ⟨hstep, htarget, hv, hpins, hissued, htrace⟩ := addressRead_spec s
  have hlen : (s.answers 8).length = 8 := by simp [State.answers]
  have hbits : byteBits (addressRead s).work.v = s.answers 8 := by rw [hv, byteBits_byteOfBits _ hlen]
  refine ⟨_, rfl, hstep.toWireFrame, hstep.seq, htarget, fun i _ => ?_, hpins, by rw [hissued, hv], ?_⟩
  · rw [hv, byteOfBits_bit _ hlen]
  · rw [htrace, evAr, hbits]

/-- A data instruction that is not held has ended in the state it leaves. -/
theorem settleWire_done (w : WireWait) (t : State) : settleWire w (true, t) = .next t := settle_done t

/-- Settles O7: the wait field ends after the zeros, so the instruction is not held. -/
theorem dataWriteEffect : Obligations.DataWriteEffect := by
  intro data k s hwait hlisted
  obtain ⟨t, hrun, hstep, htarget, hv, hpins, hissued, htrace⟩ := dataWrite_done data k s hwait hlisted
  refine ⟨t, ?_, hstep.toWireFrame, hstep.seq, htarget, hv, hpins, hissued, htrace⟩
  rw [exec, execDataWrite, hrun, settleWire_done]

/-- Settles O8: the wait field ends after the zeros, and the next eight samples are the bits of `v`. -/
theorem dataReadEffect : Obligations.DataReadEffect := by
  intro v k s hanswers hlisted
  rw [waits, List.append_assoc, List.singleton_append] at hanswers
  obtain ⟨t, hrun, hstep, htarget, hv, hpins, hissued, htrace⟩ := dataRead_done v k s hanswers hlisted
  refine ⟨t, ?_, hstep.toWireFrame, hstep.seq, htarget, hv, hpins, hissued, htrace⟩
  rw [exec, execDataRead, hrun, settleWire_done]

/-! ## WRITE with a wrong checksum (R234, R262) -/

/-- With a wrong checksum WRITE's branch is one byte (R262). -/
theorem writeBranch_mismatch {q : State} (h : q.work.sum ≠ q.work.cks) : writeBranch q = [.tx 0x43] := if_pos h

/-- Settles O26: the prologue moves the data and computes the sum, and then one byte goes out. -/
theorem writeChecksumMismatch : Obligations.WriteChecksumMismatch := by
  intro high low cks data s hgate hfits hsum
  have hpre := writePrologue_step high low cks data s
  obtain ⟨hlog, ⟨x, hwork⟩, hfl⟩ := writePrologue_spec high low cks data s
  have hmismatch : (writePrologue high low cks data s).work.sum ≠ (writePrologue high low cks data s).work.cks := by
    rw [hwork]
    exact hsum
  have hexec := exec_write_fits (high := high) (low := low) (cks := cks) hfits
  rw [writeBranch_mismatch hmismatch] at hexec
  generalize writePrologue high low cks data s = q at *
  obtain ⟨t, hrun, hs, hkept⟩ := runCmd_tx 0x43 [] q (by rw [hpre.env]; exact hgate)
  rw [hrun, runCmd_nil, settle_done] at hexec
  rw [← hkept] at hwork
  refine ⟨t, hexec, hpre.frameOf.trans hs.step.toCommandFrame, hs.frame.trans hpre.frame, by rw [hs.tx, hpre.env],
    hs.issued.trans (by rw [hlog]), by rw [hs.trace, hlog]; rfl, hs.pins.trans hpre.pins, hs.dev.trans hpre.dev,
    hs.step.seq.trans hpre.seq, hs.target.trans (by rw [hpre.env]), ?_, ?_, fun a => (hs.keeps.2 a).trans (hfl a)⟩
  · rw [hwork]
    exact sentAddr_writeAddr _ _ _
  · rw [hwork]

/-! ## Responses on their own (R97) -/

/-- Sending a response changes nothing that a reply leaves alone. -/
theorem Sends.replyFrame {bs : List Byte} {s t : State} (h : Sends bs s t) : ReplyFrame s t :=
  { h.step.toCommandFrame with
    fl := h.keeps.1
    flByte := h.keeps.2
    dev := h.dev
    pins := by rw [h.pins]
    work := h.work
    seq := h.step.seq
    target := h.target
    issued := h.issued }

/-- The responses of one byte are the sending of that byte. -/
theorem exec_singleByteResponse {i : Instr} {code : Byte} (s : State)
    (h : (i, code) ∈ [(Instr.rspAck, (0x80 : Byte)), (.rspInit, 0x81), (.rspReset, 0x82), (.rspWrite, 0x83),
      (.rspChecksumFail, 0x43), (.rspErase, 0x84)]) : exec i s = settle (runCmd [.tx code] s) := by
  simp only [List.mem_cons, Prod.mk.injEq, List.not_mem_nil, or_false] at h
  obtain ⟨rfl, rfl⟩ | ⟨rfl, rfl⟩ | ⟨rfl, rfl⟩ | ⟨rfl, rfl⟩ | ⟨rfl, rfl⟩ | ⟨rfl, rfl⟩ := h <;> rfl

/-- Settles O32: each of the six is the sending of its byte. -/
theorem singleByteResponses : Obligations.SingleByteResponses := by
  intro i code s hmem hgate
  obtain ⟨t, hrun, hs, hwork⟩ := runCmd_tx code [] s hgate
  refine ⟨t, ?_, hs.replyFrame, hwork, hs.frame, hs.pins, hs.tx, hs.trace⟩
  rw [exec_singleByteResponse s hmem, hrun, runCmd_nil, settle_done]

/-- Settles O33: a count that fits lets the response run to its end, any other is caught before its first byte. -/
theorem readResponseEffect : Obligations.ReadResponseEffect := by
  intro s
  constructor
  · intro hfits hgate
    obtain ⟨t, hrun, hs⟩ := runCmd_readResponse s.work.cnt s hgate
    refine ⟨t, ?_, hs.replyFrame, hs.frame, hs.pins, hs.tx⟩
    rw [exec, execRspRead, if_neg (Nat.not_lt.2 hfits), hrun, settle_done]
  · intro hlarge
    exact if_pos (Nat.lt_of_not_le hlarge)

/-- Settles O34: the code, then the two bytes of `DEV_*`. -/
theorem infoResponseEffect : Obligations.InfoResponseEffect := by
  intro s hgate
  obtain ⟨u, hcode, hu, hwork⟩ := runCmd_tx Config.rspInfo [.txDevId, .txDevRev] s hgate
  obtain ⟨t, hdev, ht, hwork'⟩ := runCmd_txDev [] u (by rw [hu.step.txGateRest]; exact hgate)
  rw [hu.dev] at ht
  have hs := hu.trans ht
  refine ⟨t, ?_, hs.replyFrame, hwork'.trans hwork, hs.frame, hs.pins, hs.tx⟩
  rw [exec, execRspInfo, infoResponse, hcode, hdev, runCmd_nil, settle_done]

end Sys2Proof.Machine

/-! PROOFS. The statements about the bit transport (spec/40_bit_transport.md): the pulses of the two-wire instructions, the
wait field that never ends, and INIT against whatever ends its wait fields, with and without a target. -/
namespace Sys2Proof.Machine

/-! ## Pulses (R131, R142) -/

@[simp] theorem pulses_append (a b : List Event) : pulses (a ++ b) = pulses a + pulses b := List.count_append

/-- One pulse for each bit placed on the line (R137). -/
theorem pulses_evDrive (bits : List Bool) : pulses (evDrive bits) = bits.length := by
  induction bits with
  | nil => rfl
  | cons b rest ih =>
    have hbit : pulses (.dout b :: evPulse) = 1 := by cases b <;> rfl
    rw [evDrive, List.flatMap_cons, pulses_append, hbit, ← evDrive, ih, List.length_cons, Nat.add_comm]

/-- One pulse for each sample (R138, R139). -/
theorem pulses_evSample (bits : List Bool) : pulses (evSample bits) = bits.length := by
  induction bits with
  | nil => rfl
  | cons b rest ih =>
    have hbit : pulses (evPulse ++ [.din b]) = 1 := by cases b <;> rfl
    rw [evSample, List.flatMap_cons, pulses_append, hbit, ← evSample, ih, List.length_cons, Nat.add_comm]

/-- A two-wire instruction has one pulse for each bit of its word, its wait field and its response, and the first and the
last one (R141, R142). -/
theorem pulses_evInstr (word waits response : List Bool) :
    pulses (evInstr word waits response) = word.length + waits.length + response.length + 2 := by
  have hstart : pulses (evPulse ++ [.irq true, .ddir true]) = 1 := rfl
  have hinput : pulses [.ddir false] = 0 := rfl
  have hend : pulses evTail = 1 := rfl
  simp only [evInstr, evHead, pulses_append, pulses_evDrive, pulses_evSample, hinput, hend] at hstart ⊢
  omega

@[simp] theorem byteBits_length (b : Byte) : (byteBits b).length = 8 := by simp [byteBits]

@[simp] theorem waits_length (k : Nat) : (waits k).length = k + 1 := by simp [waits]

/-- Settles O10: what each instruction has put on the record, counted. -/
theorem instructionPulseCounts : Obligations.InstructionPulseCounts := by
  intro s
  refine ⟨fun a => ?_, ?_, fun d k hwait hlisted => ?_, fun v k hanswers hlisted => ?_⟩
  · obtain ⟨t, hrun, -, -, -, -, -, -, htrace⟩ := addressWriteEffect a s
    exact ⟨t, hrun, by rw [newEvents_of_trace htrace, evAw, pulses_evInstr]; simp⟩
  · obtain ⟨t, hrun, -, -, -, -, -, -, htrace⟩ := addressReadEffect s
    exact ⟨t, hrun, by rw [newEvents_of_trace htrace, evAr, pulses_evInstr]; simp⟩
  · obtain ⟨t, hrun, -, -, -, -, -, -, htrace⟩ := dataWriteEffect d k s hwait hlisted
    refine ⟨t, hrun, ?_⟩
    rw [newEvents_of_trace htrace, evDw, pulses_evInstr]
    simp only [List.length_append, List.length_cons, List.length_nil, byteBits_length, waits_length]
    omega
  · obtain ⟨t, hrun, -, -, -, -, -, -, htrace⟩ := dataReadEffect v k s hanswers hlisted
    refine ⟨t, hrun, ?_⟩
    rw [newEvents_of_trace htrace, evDr, pulses_evInstr]
    simp only [List.length_cons, List.length_nil, byteBits_length, waits_length]
    omega

/-! ## A wait field that never ends (R139, R264) -/

/-- A data instruction that is held leaves the sequencer in its wait field, before what its caller still had to do. -/
theorem settleWire_held (w : WireWait) (q : State) :
    settleWire w (false, q) = .next { q with seq := { q.seq with wire := some w } } := by
  simp [settleWire, settle, Seq.push]

/-- A data instruction, of whatever word, on a line held at 0: it gets as far as its wait field. -/
theorem settleWire_finishWire_low (w : WireWait) (word : WireWord) (width : Nat) (hw : width < 16) (hp : width ≠ 0)
    (s : State) (ht : s.env.target = []) (hr : s.env.targetRest = .low) :
    ∃ t, settleWire w (finishWire w (wireHead word width s)) = .next t ∧ WireFrame s t ∧
      t.seq = { s.seq with wire := some w } ∧
      t.pins = { s.pins with ck := true, doe := false, dout := word.getLsbD (width - 1), irqm := true } ∧
      t.log.issued = s.log.issued := by
  obtain ⟨hstep, henv, -, hpins, hissued, -⟩ := wireHead_spec word width hw hp s
  generalize wireHead word width s = q at *
  have hheld : finishWire w q = (false, sampled (pulseClock q)) :=
    finishWire_held w q (by rw [hpins]) (by rw [henv, ht]) (by rw [henv, hr])
  have hturn : WireStep s (sampled (pulseClock q)) := hstep.trans ((pulseClock_step q).trans (sampled_step _))
  refine ⟨_, by rw [hheld, settleWire_held], hturn.toWireFrame.withSeq s.seq _, ?_, ?_, hissued⟩
  · rw [hturn.seq]
  · simp [hpins]

/-- Settles O11: the two data instructions differ in their words only. -/
theorem dataInstructionHeld : Obligations.DataInstructionHeld := by
  intro data s ht hr
  have hlast : (dataWriteWord data).getLsbD (12 - 1) = data.getLsbD 7 := by simp [dataWriteWord]
  have hwrite := settleWire_finishWire_low (.dataWrite data) (dataWriteWord data) 12 (by omega) (by omega) s ht hr
  rw [hlast] at hwrite
  exact ⟨hwrite, settleWire_finishWire_low .dataRead dataReadWord 4 (by omega) (by omega) s ht hr⟩

/-- The block is held in the wait field of `w`, the line at 0 for ever. -/
structure HeldLow (w : WireWait) (s : State) : Prop where
  admissible : s.cfg.Admissible
  quiet : s.env.resetIn = none
  entry : s.seq.entry = none
  wire : s.seq.wire = some w
  input : s.pins.doe = false
  critical : s.pins.irqm = true
  target : s.env.target = []
  low : s.env.targetRest = .low

/-- A step of the held block is one more turn of the wait loop. -/
theorem HeldLow.step_eq {w : WireWait} {s : State} (h : HeldLow w s) : step s = .next (sampled (pulseClock s)) := by
  rw [step_resume s h.admissible h.quiet h.entry (by simp [Seq.idle, h.wire])]
  simp only [resume, h.wire, finishWire_held w s h.input h.target h.low]

/-- The surroundings are as before the turn: there was no listed answer to use up. -/
theorem HeldLow.turn_env {w : WireWait} {s : State} (h : HeldLow w s) : (sampled (pulseClock s)).env = s.env := by
  rw [sampled_env, pulseClock_env, h.target, List.tail_nil, ← h.target]

/-- The turn samples a 0. -/
theorem HeldLow.turn_trace {w : WireWait} {s : State} (h : HeldLow w s) :
    (sampled (pulseClock s)).log.trace = (evSample [false]).reverse ++ s.log.trace := by
  have hlevel : (pulseClock s).lineLevel = false := by
    rw [lineLevel_released _ (by simpa using h.input)]
    simp [State.nextDrive, h.target, h.low, LineDrive.level]
  simp [hlevel, evSample, evPulse]

/-- The block is held on after the turn. -/
theorem HeldLow.turn {w : WireWait} {s : State} (h : HeldLow w s) : HeldLow w (sampled (pulseClock s)) where
  admissible := h.admissible
  quiet := h.quiet
  entry := h.entry
  wire := h.wire
  input := h.input
  critical := h.critical
  target := by rw [h.turn_env, h.target]
  low := h.low

/-- Settles O12: induction on the steps, each of them one more turn of the wait loop. -/
theorem waitFieldHangs : Obligations.WaitFieldHangs := by
  intro w s hadm hquiet hentry hwire hinput hcrit ht hr n
  have h : HeldLow w s := ⟨hadm, hquiet, hentry, hwire, hinput, hcrit, ht, hr⟩
  clear hadm hquiet hentry hwire hinput hcrit ht hr
  induction n generalizing s with
  | zero => exact ⟨s, rfl, rfl, rfl, rfl, rfl, rfl, h.critical, h.input, .refl s⟩
  | succ n ih =>
    have hturn : WireStep s (sampled (pulseClock s)) := (pulseClock_step s).trans (sampled_step _)
    obtain ⟨t, hrun, htrace, hissued, hseq, hframe, henv, hirqm, hdoe, hwf⟩ := ih _ h.turn
    refine ⟨t, (run_succ n s _ h.step_eq).trans hrun, ?_, hissued, hseq, hframe, henv.trans h.turn_env, hirqm, hdoe,
      hturn.toWireFrame.trans hwf⟩
    have hsplit : evSample (List.replicate (n + 1) false) = evSample [false] ++ evSample (List.replicate n false) := rfl
    rw [htrace, h.turn_trace, hsplit, List.reverse_append, List.append_assoc]

/-! ## What a target offers the wait fields and the reads (R13, R133) -/

/-- The next samples are `bits`, and no wait field among them holds the block: they are listed answers, or each of them is
a 1, which ends a wait field at once (log 1). -/
def Offers (bits : List Bool) (s : State) : Prop :=
  s.answers bits.length = bits ∧ (bits.length ≤ s.env.target.length ∨ ∀ b ∈ bits, b = true)

theorem Offers.left {a b : List Bool} {s : State} (h : Offers (a ++ b) s) : Offers a s := by
  obtain ⟨hans, hfree⟩ := h
  rw [List.length_append] at hans hfree
  refine ⟨?_, hfree.imp (by omega) fun hb x hx => hb x (List.mem_append_left b hx)⟩
  rw [← answers_take s a.length (a.length + b.length) (by omega), hans, List.take_left]

/-- What is offered after the first samples have been taken. -/
theorem Offers.right {a b : List Bool} {s t : State} (h : Offers (a ++ b) s)
    (ht : t.env.target = s.env.target.drop a.length) (hr : t.env.targetRest = s.env.targetRest) : Offers b t := by
  obtain ⟨hans, hfree⟩ := h
  rw [List.length_append] at hans hfree
  refine ⟨by rw [answers_drop s t _ _ ht hr, hans, List.drop_left], hfree.imp ?_ fun hb x hx => ?_⟩
  · rw [ht, List.length_drop]
    omega
  · exact hb x (List.mem_append_right a hx)

/-- A wait field that is offered does not hold the block. -/
theorem Offers.listed {k : Nat} {s : State} (h : Offers (waits k) s) : k = 0 ∨ k < s.env.target.length := by
  obtain ⟨-, hlisted | hones⟩ := h
  · rw [waits_length] at hlisted
    exact .inr hlisted
  · refine .inl (Nat.eq_zero_of_not_pos fun hk => ?_)
    have hzero : false ∈ waits k := by simp [waits]; omega
    exact Bool.false_ne_true (hones _ hzero)

/-- With nothing on the line every sample is the pull-up's 1 (R133). -/
theorem Offers.of_released {bits : List Bool} {s : State} (ht : s.env.target = []) (hr : s.env.targetRest = .released)
    (hbits : ∀ b ∈ bits, b = true) : Offers bits s := by
  refine ⟨?_, .inr hbits⟩
  rw [List.eq_replicate_of_mem hbits, List.length_replicate]
  simp [State.answers, ht, hr, LineDrive.level]

/-! ## The statements of `init()` and `deviceInfo()` (R200, R201) -/

/-- The statements `ops` run to their end: they issue the instructions `l` with these events, take the samples `bits`, and
change nothing else that a routine leaves alone, `FL`, `IDX` and `RES` among it. -/
structure Performs (ops : List FlashOp) (l : List WireAccess) (events : List Event) (bits : List Bool) (s t : State) :
    Prop where
  runs : RunsTo ops s t
  step : RoutineStep s t
  keeps : KeepsFl s t
  idx : t.work.idx = s.work.idx
  res : t.work.res = s.work.res
  target : t.env.target = s.env.target.drop bits.length
  issued : t.log.issued = l.reverse ++ s.log.issued
  trace : t.log.trace = events.reverse ++ s.log.trace

theorem Performs.trans {o p : List FlashOp} {a b : List WireAccess} {c d : List Event} {e f : List Bool} {s t u : State}
    (h : Performs o a c e s t) (g : Performs p b d f t u) : Performs (o ++ p) (a ++ b) (c ++ d) (e ++ f) s u where
  runs := h.runs.append g.runs
  step := h.step.trans g.step
  keeps := h.keeps.trans g.keeps
  idx := g.idx.trans h.idx
  res := g.res.trans h.res
  target := by rw [g.target, h.target, List.drop_drop, List.length_append]
  issued := by rw [g.issued, h.issued, List.reverse_append, List.append_assoc]
  trace := by rw [g.trace, h.trace, List.reverse_append, List.append_assoc]

/-- One statement that stays at the two-wire level. -/
theorem WireStep.performs {op : FlashOp} {l : List WireAccess} {events : List Event} {bits : List Bool} {s t : State}
    (h : WireStep s t) (hop : flashOp op s = .done t) (htarget : t.env.target = s.env.target.drop bits.length)
    (hissued : t.log.issued = l.reverse ++ s.log.issued) (htrace : t.log.trace = events.reverse ++ s.log.trace) :
    Performs [op] l events bits s t :=
  ⟨.of_done hop, h.toRoutine, h.keepsFl, h.idx, h.res, htarget, hissued, htrace⟩

/-- What is offered after the statements. -/
theorem Performs.offers {ops : List FlashOp} {l : List WireAccess} {events : List Event} {a b : List Bool} {s t : State}
    (h : Performs ops l events a s t) (ho : Offers (a ++ b) s) : Offers b t :=
  ho.right h.target h.step.targetRest

/-- The clock is held low, then high (R200). -/
theorem clockHold_performs (s : State) :
    ∃ t, Performs [.clockHold] [] [.ck false, .delay Config.tRstLow, .ck true, .delay Config.tRstHigh] [] s t :=
  ⟨delay Config.tRstHigh (ckSet true (delay Config.tRstLow (ckSet false s))),
    WireStep.performs (.of_eq rfl rfl rfl rfl rfl rfl rfl rfl rfl rfl) rfl rfl rfl rfl⟩

theorem delay_performs (n : Nat) (s : State) : Performs [.delay n] [] [.delay n] [] s (delay n s) :=
  WireStep.performs (.of_eq rfl rfl rfl rfl rfl rfl rfl rfl rfl rfl) rfl rfl rfl rfl

theorem addressWrite_performs (a : Byte) (s : State) :
    ∃ t, Performs [.addressWrite a] [.aw a] (evAw a) [] s t ∧ t.dev = s.dev := by
  obtain ⟨hstep, henv, -, -, hissued, htrace⟩ := addressWrite_spec a s
  exact ⟨_, hstep.performs rfl (by rw [henv]; rfl) hissued htrace, hstep.dev⟩

/-- A value written, and the wait after it (R200). -/
theorem dataWrite_delay_performs (d : Byte) (n k : Nat) (s : State) (h : Offers (waits k) s) :
    ∃ t, Performs [.dataWrite d, .delay n] [.dw d] (evDw d k ++ [.delay n]) (waits k) s t := by
  have hans : s.answers (k + 1) = waits k := by rw [← waits_length, h.1]
  obtain ⟨t, hrun, hstep, htarget, -, -, hissued, htrace⟩ := dataWrite_done d k s hans h.listed
  have hwrite : Performs [.dataWrite d] [.dw d] (evDw d k) (waits k) s t :=
    hstep.performs (by simp only [flashOp, hrun]) (by rw [htarget, waits_length]) hissued htrace
  have hboth := hwrite.trans (delay_performs n t)
  rw [List.append_nil (waits k)] at hboth
  exact ⟨_, hboth⟩

/-- A register of the target read (R201). -/
theorem readRegister_performs (a v : Byte) (k : Nat) (s : State) (h : Offers (waits k ++ byteBits v) s) :
    ∃ t, Performs [.addressWrite a, .dataRead] [.aw a, .dr v] (evAw a ++ evDr v k) (waits k ++ byteBits v) s t ∧
      t.dev = s.dev ∧ t.work.v = v ∧ t.idlePins := by
  obtain ⟨q, hselect, hdev⟩ := addressWrite_performs a s
  have ho : Offers (waits k ++ byteBits v) q := hselect.offers h
  have hlen : (waits k ++ byteBits v).length = k + 9 := by simp
  have hans : q.answers (k + 9) = List.replicate k false ++ true :: byteBits v := by
    rw [← hlen, ho.1, waits, List.append_assoc, List.singleton_append]
  obtain ⟨t, hrun, hstep, htarget, hv, hpins, hissued, htrace⟩ := dataRead_done v k q hans ho.left.listed
  have hread : Performs [.dataRead] [.dr v] (evDr v k) (waits k ++ byteBits v) q t :=
    hstep.performs (by simp only [flashOp, hrun]) (by rw [htarget, hlen]) hissued htrace
  exact ⟨t, hselect.trans hread, hstep.dev.trans hdev, hv, by rw [State.idlePins, hpins]; exact ⟨rfl, rfl, rfl⟩⟩

/-- The value read goes to `DEV_*` (R201). -/
theorem storeDev_performs {op : FlashOp} {d : DeviceInfo} {s : State} (h : flashOp op s = .done { s with dev := d }) :
    Performs [op] [] [] [] s { s with dev := d } :=
  ⟨.of_done h, .of_eq rfl rfl rfl rfl rfl rfl rfl rfl, ⟨rfl, fun _ => rfl⟩, rfl, rfl, rfl, rfl, rfl⟩

/-- Everything `init()` does when its three wait fields end (R200). -/
theorem initTarget_performs (p : Params) (k1 k2 k3 : Nat) (s : State)
    (h : Offers (waits k1 ++ (waits k2 ++ waits k3)) s) :
    ∃ t, Performs (initTarget p) [.aw p.aFpctl, .dw Config.enable1, .dw Config.enable2, .dw Config.enable3]
      ([.ck false, .delay Config.tRstLow, .ck true, .delay Config.tRstHigh] ++ (evAw p.aFpctl ++
        ((evDw Config.enable1 k1 ++ [.delay Config.tGap]) ++ ((evDw Config.enable2 k2 ++ [.delay Config.tGap]) ++
          (evDw Config.enable3 k3 ++ [.delay Config.tSettle])))))
      (waits k1 ++ (waits k2 ++ waits k3)) s t := by
  obtain ⟨a, hhold⟩ := clockHold_performs s
  obtain ⟨b, hselect, -⟩ := addressWrite_performs p.aFpctl a
  have hb := hselect.offers (hhold.offers h)
  obtain ⟨c, hfirst⟩ := dataWrite_delay_performs Config.enable1 Config.tGap k1 b hb.left
  have hc := hfirst.offers hb
  obtain ⟨d, hsecond⟩ := dataWrite_delay_performs Config.enable2 Config.tGap k2 c hc.left
  obtain ⟨t, hthird⟩ := dataWrite_delay_performs Config.enable3 Config.tSettle k3 d (hsecond.offers hc)
  exact ⟨t, hhold.trans (hselect.trans (hfirst.trans (hsecond.trans hthird)))⟩

/-- Everything `deviceInfo()` does when its two wait fields end (R201). -/
theorem deviceInfo_performs (p : Params) (k4 k5 : Nat) (id rev : Byte) (s : State)
    (h : Offers ((waits k4 ++ byteBits id) ++ (waits k5 ++ byteBits rev)) s) :
    ∃ t, Performs (deviceInfo p) [.aw p.aDeviceId, .dr id, .aw p.aRevId, .dr rev]
      ((evAw p.aDeviceId ++ evDr id k4) ++ (evAw p.aRevId ++ evDr rev k5))
      ((waits k4 ++ byteBits id) ++ (waits k5 ++ byteBits rev)) s t ∧
      t.dev = { id := id, revision := rev } ∧ t.idlePins := by
  obtain ⟨a, hid, -, hav, -⟩ := readRegister_performs p.aDeviceId id k4 s h.left
  have hstoreId : Performs [.storeDevId] [] [] [] a { a with dev := { a.dev with id := id } } :=
    storeDev_performs (by rw [flashOp, hav])
  obtain ⟨b, hrev, hbdev, hbv, hidle⟩ := readRegister_performs p.aRevId rev k5 _ (hstoreId.offers (hid.offers h))
  have hstoreRev : Performs [.storeDevRev] [] [] [] b { b with dev := { b.dev with revision := rev } } :=
    storeDev_performs (by rw [flashOp, hbv])
  have hall := hid.trans (hstoreId.trans (hrev.trans hstoreRev))
  simp only [List.nil_append, List.append_nil] at hall
  exact ⟨_, hall, by rw [hbdev], hidle⟩

/-! ## INIT (R232) -/

/-- INIT has ended in `t`: it has issued its instructions with these events, taken the samples `bits`, filled `DEV_*`, sent its
byte and turned the indicator on. -/
structure Initialised (events : List Event) (bits : List Bool) (id rev : Byte) (s t : State) : Prop
    extends TrafficFrame s t where
  keeps : KeepsFl s t
  fs : t.frame.fs = .awaitingAction
  dev : t.dev = { id := id, revision := rev }
  led : t.pins.led = true
  tx : t.env.tx = s.env.tx ++ [0x81]
  target : t.env.target = s.env.target.drop bits.length
  issued : t.log.issued = (initAccesses s.cfg id rev).reverse ++ s.log.issued
  trace : t.log.trace = events.reverse ++ s.log.trace
  command : CommandStep s t
  idx : t.work.idx = s.work.idx
  res : t.work.res = s.work.res

/-- The samples INIT takes: three wait fields of data writes, two data reads (R200, R201). -/
def initBits (k1 k2 k3 k4 k5 : Nat) (id rev : Byte) : List Bool :=
  (waits k1 ++ (waits k2 ++ waits k3)) ++ ((waits k4 ++ byteBits id) ++ (waits k5 ++ byteBits rev))

/-- INIT against whatever ends its five wait fields. -/
theorem exec_init_initialised (payload : List Byte) (k1 k2 k3 k4 k5 : Nat) (id rev : Byte) (s : State)
    (hgate : s.env.txGateRest = true) (h : Offers (initBits k1 k2 k3 k4 k5 id rev) s) :
    ∃ t, exec (.init payload) s = .next t ∧
      Initialised (initEvents s.cfg k1 k2 k3 k4 k5 id rev) (initBits k1 k2 k3 k4 k5 id rev) id rev s t := by
  obtain ⟨a, hinit⟩ := initTarget_performs s.cfg k1 k2 k3 s h.left
  obtain ⟨b, hinfo, hdev, hidle⟩ := deviceInfo_performs s.cfg k4 k5 id rev a (hinit.offers h)
  have hboth := hinit.trans hinfo
  obtain ⟨c, htx, hs, hwork⟩ := runCmd_tx Config.rspInit [.led true, .frameReset] b (by rw [hboth.step.txGateRest, hgate])
  have hc : CommandStep s c := hboth.step.toCommand.trans hs.step
  have ht : CommandStep s (frameReset (setLed true c)) :=
    (hc.trans (cmdOp_frame (.led true) c).1).trans (frameReset_step _)
  refine ⟨frameReset (setLed true c), ?_,
    { ht.toCommandFrame with
      seq := ht.seq
      idle := by simpa [State.idlePins, hs.pins] using hidle
      keeps := hboth.keeps.trans hs.keeps
      fs := rfl
      dev := hs.dev.trans hdev
      led := rfl
      tx := hs.tx.trans (by rw [hboth.step.tx]; rfl)
      target := hs.target.trans hboth.target
      issued := hs.issued.trans hboth.issued
      trace := ?_
      command := ht
      idx := (congrArg Work.idx hwork).trans hboth.idx
      res := (congrArg Work.res hwork).trans hboth.res }⟩
  · rw [exec, execInit, runCmd_call _ _ _ _ hinit.runs.done, runCmd_call _ _ _ _ hinfo.runs.done, htx, runCmd_led,
      runCmd_frameReset, runCmd_nil, settle_done]
  · rw [frameReset_log, setLed_log, hs.trace, hboth.trace]
    simp [initEvents]

/-- Settles O25: the pull-up answers every sample with a 1, which ends each wait field at once and makes both bytes 0xFF. -/
theorem initWithoutTarget : Obligations.InitWithoutTarget := by
  intro payload s hgate ht hr
  have hones : Offers (initBits 0 0 0 0 0 0xFF 0xFF) s := .of_released ht hr (by decide)
  obtain ⟨t, hexec, h⟩ := exec_init_initialised payload 0 0 0 0 0 0xFF 0xFF s hgate hones
  exact ⟨t, hexec, h.toTrafficFrame, h.keeps, h.fs, h.dev, h.led, h.tx, by rw [h.target, ht, List.drop_nil], h.issued,
    h.trace, h.command.addr, h.command.cks, h.command.sum, h.command.cnt, h.idx, h.res⟩

end Sys2Proof.Machine

/-! PROOFS. A data write followed by a data read (spec/41_c2_instructions.md): what a target that keeps the bits driven at it
gives back. -/
namespace Sys2Proof.Machine

/-! ## The bits the block drives (R137, R141) -/

@[simp] theorem drivenBits_append (a b : List Event) : drivenBits (a ++ b) = drivenBits a ++ drivenBits b :=
  List.filterMap_append

/-- A word is driven bit by bit, and its pulses drive nothing (R131, R137). -/
@[simp] theorem drivenBits_evDrive (bits : List Bool) : drivenBits (evDrive bits) = bits := by
  induction bits with
  | nil => rfl
  | cons b rest ih =>
    have hbit : drivenBits (.dout b :: evPulse) = [b] := rfl
    rw [evDrive, List.flatMap_cons, drivenBits_append, hbit, ← evDrive, ih, List.singleton_append]

/-- Sampling drives nothing (R138, R139). -/
@[simp] theorem drivenBits_evSample (bits : List Bool) : drivenBits (evSample bits) = [] := by
  induction bits with
  | nil => rfl
  | cons b rest ih =>
    have hbit : drivenBits (evPulse ++ [.din b]) = [] := rfl
    rw [evSample, List.flatMap_cons, drivenBits_append, hbit, ← evSample, ih, List.nil_append]

/-- A two-wire instruction drives its word and nothing else (R141). -/
theorem drivenBits_evInstr (word waits response : List Bool) : drivenBits (evInstr word waits response) = word := by
  have hpulse : drivenBits evPulse = [] := rfl
  have hopen : drivenBits [.irq true, .ddir true] = [] := rfl
  have hinput : drivenBits [.ddir false] = [] := rfl
  have hclose : drivenBits [.irq false] = [] := rfl
  simp only [evInstr, evHead, evTail, drivenBits_append, drivenBits_evDrive, drivenBits_evSample, hpulse, hopen, hinput,
    hclose, List.nil_append, List.append_nil]

/-- After its four tag bits a data write drives the byte, in wire order (R65, R152). -/
theorem drivenBits_evDw_drop (data : Byte) (k : Nat) : (drivenBits (evDw data k)).drop 4 = byteBits data := by
  rw [evDw, drivenBits_evInstr]
  rfl

/-- Settles O9: the bits driven after the tag are the byte's, and a data read latches the byte whose bits answer it. -/
theorem dataRoundTrip : Obligations.DataRoundTrip := by
  intro data k m s t hwait hlisted hwrite hanswers hlisted'
  obtain ⟨q, hrun, -, -, -, -, -, -, htrace⟩ := dataWriteEffect data k s hwait hlisted
  obtain rfl : q = t := by injection hrun.symm.trans hwrite
  rw [newEvents_of_trace htrace, drivenBits_evDw_drop] at hanswers
  obtain ⟨u, hread, -, -, -, hv, -⟩ := dataReadEffect data m q hanswers hlisted'
  exact ⟨u, hread, hv⟩

end Sys2Proof.Machine

/-! PROOFS. The statements about the poll primitives (spec/42_poll_primitives.md): a poll whose condition comes, a poll whose
condition never comes, and ERASE with no target, which hangs in such a poll. -/
namespace Sys2Proof.Machine

/-! ## The conditions of the polls (R36, R170, R171) -/

@[simp] theorem maskSet_eq_true {mask v : Byte} : maskSet mask v = true ↔ v &&& mask ≠ 0 := bne_iff_ne

@[simp] theorem maskSet_eq_false {mask v : Byte} : maskSet mask v = false ↔ v &&& mask = 0 := bne_eq_false_iff_eq

@[simp] theorem maskClear_eq_true {mask v : Byte} : maskClear mask v = true ↔ v &&& mask = 0 := beq_iff_eq

@[simp] theorem maskClear_eq_false {mask v : Byte} : maskClear mask v = false ↔ v &&& mask ≠ 0 := beq_eq_false_iff_ne

/-! ## A poll whose condition comes (R142, R170, R171) -/

/-- Twelve pulses a read: the first, two of the word, eight of the response and the last (R142, R151). -/
theorem pulses_flatMap_evAr (vs : List Byte) : pulses (vs.flatMap evAr) = 12 * vs.length := by
  induction vs with
  | nil => rfl
  | cons v vs ih =>
    have hread : pulses (evAr v) = 12 := by rw [evAr, pulses_evInstr, byteBits_length]; rfl
    rw [List.flatMap_cons, pulses_append, hread, ih, List.length_cons]
    omega

/-- A poll, whatever its condition, against answers that fail it and then one that meets it. -/
theorem poll_reads {c : Byte → Bool} {v : Byte} {fails : List Byte} {s : State} {ds rest : List LineDrive}
    (ht : s.env.target = ds ++ rest) (ha : AnswersAll ((fails ++ [v]).map .ar) ds) (hf : ∀ f ∈ fails, c f = false)
    (hv : c v = true) :
    ∃ t, repeatUntil (pollTurn c) s.env.target.length s = (true, t) ∧ WireFrame s t ∧ t.work.v = v ∧
      t.env.target = rest ∧ t.idlePins ∧ t.log.issued = ((fails ++ [v]).map .ar).reverse ++ s.log.issued ∧
      pulses (newEvents s t) = 12 * (fails.length + 1) := by
  have hfuel : fails.length ≤ s.env.target.length := by
    have hlen := poll_fuel _ _ ha
    simp only [ht, List.length_append, List.length_singleton] at hlen ⊢
    omega
  obtain ⟨t, hpoll, hstep, htarget, hval, hpins, hissued, htrace⟩ := poll_done c v fails s ds rest _ ht ha hf hv hfuel
  refine ⟨t, hpoll, hstep.toWireFrame, hval, htarget, ?_, hissued, ?_⟩
  · rw [State.idlePins, hpins]
    exact ⟨rfl, rfl, rfl⟩
  · rw [newEvents_of_trace htrace, pulses_flatMap_evAr, List.length_append, List.length_singleton]

/-- Settles O14: each of the two polls with its condition. -/
theorem pollsReadUntilCondition : Obligations.PollsReadUntilCondition := by
  intro mask v fails s ds rest ht ha
  constructor
  · intro hf hv
    exact poll_reads ht ha (fun f hm => maskSet_eq_false.2 (hf f hm)) (maskSet_eq_true.2 hv)
  · intro hf hv
    exact poll_reads ht ha (fun f hm => maskClear_eq_false.2 (hf f hm)) (maskClear_eq_true.2 hv)

/-! ## A poll whose condition never comes (R170, R171, R264) -/

/-- The byte that an address read gives when no listed answer is left: the resting level, eight times. -/
abbrev State.restByte (s : State) : Byte := byteOfBits (List.replicate 8 s.env.targetRest.level)

/-- The statement `op` waits at its beginning after one more read, when no listed answer is left and every read gives `v`. -/
def WaitsOn (op : FlashOp) (v : Byte) : Prop :=
  ∀ s : State, s.env.target = [] → s.restByte = v → flashOp op s = .again (addressRead s)

theorem waitsOn_pollBitLow {mask v : Byte} (h : v &&& mask ≠ 0) : WaitsOn (.pollBitLow mask) v := by
  rintro s ht rfl
  simp only [flashOp, pollBitLow, poll_held (maskClear mask) s ht (maskClear_eq_false.2 h)]

theorem waitsOn_pollBitHigh {mask v : Byte} (h : v &&& mask = 0) : WaitsOn (.pollBitHigh mask) v := by
  rintro s ht rfl
  simp only [flashOp, pollBitHigh, poll_held (maskSet mask) s ht (maskSet_eq_false.2 h)]

/-- A statement of a routine that waits keeps the routine and its caller waiting. -/
theorem runCmd_call_again {op : FlashOp} {s q : State} (h : flashOp op s = .again q) (more : List FlashOp)
    (rest : List CmdOp) : runCmd (.call (op :: more) :: rest) s = ({ flash := op :: more, cmd := rest }, q) := by
  simp only [runCmd, runFlash, h]
  rfl

/-- The block waits in a poll whose condition never comes: no listed answer is left, and every read gives `v`. -/
structure PollHeld (v : Byte) (s : State) : Prop where
  admissible : s.cfg.Admissible
  quiet : s.env.resetIn = none
  entry : s.seq.entry = none
  wire : s.seq.wire = none
  target : s.env.target = []
  rest : s.restByte = v
  flash : ∃ op more, s.seq.flash = op :: more ∧ WaitsOn op v

/-- Where a step leaves a block that waits in such a poll: after one address read, at the same position. -/
def readAgain (s : State) : State := { addressRead { s with seq := {} } with seq := s.seq }

/-- A step of the waiting block is one more address read. -/
theorem PollHeld.step_eq {v : Byte} {s : State} (h : PollHeld v s) : step s = .next (readAgain s) := by
  obtain ⟨op, more, hflash, hwaits⟩ := h.flash
  have hread := runCmd_call_again (hwaits { s with seq := {} } h.target h.rest) more s.seq.cmd
  have hseq : s.seq = { flash := op :: more, cmd := s.seq.cmd } := by
    show Seq.mk s.seq.entry s.seq.wire s.seq.flash s.seq.cmd = _
    rw [h.entry, h.wire, hflash]
  rw [step_resume s h.admissible h.quiet h.entry (by simp [Seq.idle, hflash]), resume_routine s h.wire, goOn, hflash, hread,
    readAgain, hseq]

/-- From `s` to `t` the block has read the byte `v` from the selected register `n` times and done nothing else; the lines
are idle after a read. -/
structure ReadsOn (v : Byte) (n : Nat) (s t : State) : Prop extends WireStep s t where
  env : t.env = s.env
  issued : t.log.issued = List.replicate n (.ar v) ++ s.log.issued
  idle : s.idlePins ∨ 0 < n → t.idlePins

theorem ReadsOn.refl (v : Byte) (s : State) : ReadsOn v 0 s s :=
  { WireStep.refl s with env := rfl, issued := rfl, idle := fun h => h.resolve_right (Nat.lt_irrefl 0) }

theorem ReadsOn.trans {v : Byte} {n m : Nat} {s t u : State} (h : ReadsOn v n s t) (g : ReadsOn v m t u) :
    ReadsOn v (m + n) s u :=
  { h.toWireStep.trans g.toWireStep with
    env := g.env.trans h.env
    issued := by rw [g.issued, h.issued, ← List.append_assoc, List.replicate_append_replicate]
    idle := fun hidle => by
      rcases Nat.eq_zero_or_pos m with rfl | hm
      · exact g.idle (.inl (h.idle (by rwa [Nat.zero_add] at hidle)))
      · exact g.idle (.inr hm) }

/-- One read. -/
theorem PollHeld.readsOn {v : Byte} {s : State} (h : PollHeld v s) : ReadsOn v 1 s (readAgain s) := by
  obtain ⟨hstep, henv, -, hpins, hissued⟩ := addressRead_unlisted { s with seq := {} } v h.target h.rest
  rw [readAgain]
  generalize addressRead { s with seq := {} } = q at *
  have hframe : WireFrame s { q with seq := s.seq } := hstep.toWireFrame.withSeq s.seq s.seq
  have hidle : q.idlePins := by
    rw [State.idlePins, hpins]
    exact ⟨rfl, rfl, rfl⟩
  exact { hframe with seq := rfl, env := henv, issued := hissued, idle := fun _ => hidle }

/-- What the block waits for is still to come after reads that found nothing else. -/
theorem PollHeld.of_readsOn {v : Byte} {n : Nat} {s t : State} (h : PollHeld v s) (g : ReadsOn v n s t) : PollHeld v t where
  admissible := by rw [g.cfg]; exact h.admissible
  quiet := by rw [g.env]; exact h.quiet
  entry := by rw [g.seq]; exact h.entry
  wire := by rw [g.seq]; exact h.wire
  target := by rw [g.env]; exact h.target
  rest := by rw [State.restByte, g.env]; exact h.rest
  flash := by rw [g.seq]; exact h.flash

/-- Any number of steps is that number of reads. -/
theorem PollHeld.run_readsOn {v : Byte} (n : Nat) : ∀ {s : State}, PollHeld v s → ∃ t, run n s = .next t ∧ ReadsOn v n s t := by
  induction n with
  | zero => exact fun {s} _ => ⟨s, rfl, .refl v s⟩
  | succ n ih =>
    intro s h
    obtain ⟨t, hrun, hreads⟩ := ih (h.of_readsOn h.readsOn)
    exact ⟨t, (run_succ n s _ h.step_eq).trans hrun, h.readsOn.trans hreads⟩

/-- Settles O15: each of the two polls holds the block, which then reads once a step. -/
theorem pollHangs : Obligations.PollHangs := by
  intro mask more s hadm hquiet hentry hwire ht hpoll n
  have hflash : ∃ op more, s.seq.flash = op :: more ∧ WaitsOn op s.restByte := by
    obtain ⟨hlow, hfail⟩ | ⟨hhigh, hfail⟩ := hpoll
    · exact ⟨_, _, hlow, waitsOn_pollBitLow hfail⟩
    · exact ⟨_, _, hhigh, waitsOn_pollBitHigh hfail⟩
  have h : PollHeld s.restByte s := ⟨hadm, hquiet, hentry, hwire, ht, rfl, hflash⟩
  obtain ⟨t, hrun, hreads⟩ := h.run_readsOn n
  exact ⟨t, hrun, hreads.issued, hreads.seq, hreads.frame, hreads.env, fun hn => hreads.idle (.inr hn), hreads.toWireFrame⟩

/-! ## ERASE with no target (R171, R183, R235, R264) -/

/-- The surroundings after two-wire instructions that have used up no listed answer. -/
theorem WireStep.env_eq {s t : State} (h : WireStep s t) (ht : t.env.target = s.env.target) : t.env = s.env := by
  show Env.mk t.env.rx t.env.tx t.env.txGate t.env.txGateRest t.env.target t.env.targetRest t.env.resetIn = s.env
  rw [h.rx, h.tx, h.txGate, h.txGateRest, ht, h.targetRest, h.resetIn]

/-- With nothing on the line the first sample of the wait field is the pull-up's 1, which ends it (R133, R152). -/
theorem dataWrite_released (d : Byte) {s : State} (ht : s.env.target = []) (hr : s.env.targetRest = .released) :
    ∃ t, dataWrite d s = (true, t) ∧ WireStep s t ∧ t.env = s.env ∧ t.log.issued = .dw d :: s.log.issued := by
  have hwait : Offers (waits 0) s := .of_released ht hr (by simp [waits])
  obtain ⟨t, hrun, hstep, htarget, -, -, hissued, -⟩ := dataWrite_done d 0 s hwait.1 hwait.listed
  exact ⟨t, hrun, hstep, hstep.env_eq (by rw [htarget, ht, List.drop_nil]), hissued⟩

/-- `eraseDevice()` selects `FPDAT`, writes the command byte and polls the busy flag before anything else (R181, R183). -/
theorem eraseDevice_eq_cons (p : Params) :
    ∃ more, eraseDevice p = .addressWrite p.aFpdat :: .dataWrite p.fpiDeviceErase :: .pollBitLow p.busyMask :: more :=
  ⟨_, rfl⟩

/-- What nothing drives reads as `0xFF` (R133). -/
theorem restByte_released {s : State} (h : s.env.targetRest = .released) : s.restByte = 0xFF := by
  rw [State.restByte, h]
  rfl

/-- The busy flag is set in `0xFF`, so the busy poll waits on it (R171). -/
theorem waitsOn_busy {p : Params} (h : p.Admissible) : WaitsOn (.pollBitLow p.busyMask) 0xFF := by
  obtain ⟨-, ⟨hbusy, -⟩, -⟩ := h
  have hall : (0xFF : Byte) &&& p.busyMask = p.busyMask := BitVec.allOnes_and
  exact waitsOn_pollBitLow (by rwa [hall])

/-- With no target on the line `eraseDevice()` gets as far as its first busy poll, which is held after one read. -/
theorem eraseDevice_held (caller : List CmdOp) {s : State} (hadm : s.cfg.Admissible) (hquiet : s.env.resetIn = none)
    (ht : s.env.target = []) (hr : s.env.targetRest = .released) :
    ∃ k q, runCmd (.call (eraseDevice s.cfg) :: caller) s = (k, q) ∧ PollHeld 0xFF { q with seq := k } ∧
      WireStep s q ∧ q.env = s.env ∧ q.idlePins ∧
      q.log.issued = .ar 0xFF :: .dw s.cfg.fpiDeviceErase :: .aw s.cfg.aFpdat :: s.log.issued := by
  obtain ⟨more, hops⟩ := eraseDevice_eq_cons s.cfg
  have hselect : flashOp (.addressWrite s.cfg.aFpdat) s = .done (addressWrite s.cfg.aFpdat s) := rfl
  obtain ⟨hstep₁, henv₁, -, -, hissued₁, -⟩ := addressWrite_spec s.cfg.aFpdat s
  generalize addressWrite s.cfg.aFpdat s = a at *
  obtain ⟨b, hrun, hstep₂, henv₂, hissued₂⟩ :=
    dataWrite_released s.cfg.fpiDeviceErase (s := a) (by rw [henv₁, ht]) (by rw [henv₁, hr])
  have hwrite : flashOp (.dataWrite s.cfg.fpiDeviceErase) a = .done b := by simp only [flashOp, hrun]
  have henv : b.env = s.env := henv₂.trans henv₁
  have htarget : b.env.target = [] := by rw [henv, ht]
  have hrest : b.restByte = 0xFF := restByte_released (by rw [henv, hr])
  have hpoll := waitsOn_busy hadm b htarget hrest
  obtain ⟨hstep₃, henv₃, -, hpins, hissued₃⟩ := addressRead_unlisted b 0xFF htarget hrest
  generalize addressRead b = q at *
  have hstep : WireStep s q := (hstep₁.trans hstep₂).trans hstep₃
  have hq : q.env = s.env := henv₃.trans henv
  refine ⟨{ flash := .pollBitLow s.cfg.busyMask :: more, cmd := caller }, q, ?_, ?_, hstep, hq, ?_, ?_⟩
  · rw [hops, runCmd_call_done hselect, runCmd_call_done hwrite, runCmd_call_again hpoll]
  · exact
      { admissible := by rw [hstep.cfg]; exact hadm
        quiet := by rw [hq]; exact hquiet
        entry := rfl
        wire := rfl
        target := by rw [hq]; exact ht
        rest := restByte_released (by rw [hq]; exact hr)
        flash := ⟨_, _, rfl, waitsOn_busy hadm⟩ }
  · rw [State.idlePins, hpins]
    exact ⟨rfl, rfl, rfl⟩
  · rw [hissued₃, hissued₂, hissued₁]

/-- What remains of an instruction that the main loop has called is the whole sequencer position. -/
theorem Seq.push_top (k : Seq) : k.push {} = k := by
  simp [Seq.push]

/-- Settles O48: the first busy poll is held, and from there on each step is one more read of `0xFF`. -/
theorem eraseWithoutTargetHangs : Obligations.EraseWithoutTargetHangs := by
  intro payload s hadm hquiet hseq ht hr
  obtain ⟨k, q, hrun, hheld, hstep, henv, hidle, hissued⟩ :=
    eraseDevice_held [.frameReset, .tx Config.rspErase] hadm hquiet ht hr
  have hexec : exec (.erase payload) s = .next { q with seq := k } := by
    show settle (runCmd [.call (eraseDevice s.cfg), .frameReset, .tx Config.rspErase] s) = _
    rw [hrun, settle, hstep.seq, hseq, Seq.push_top]
  refine ⟨_, hexec, fun n => ?_⟩
  obtain ⟨u, hrun, hreads⟩ := hheld.run_readsOn n
  refine ⟨u, hrun, ?_, hreads.env.trans henv, hreads.frame.trans hstep.frame, hreads.idle (.inl hidle)⟩
  rw [hreads.issued, hissued, List.replicate_succ', List.append_assoc, List.singleton_append]

end Sys2Proof.Machine

/-! PROOFS. The FPI operations that end early (spec/43_flash_operations.md): a byte count beyond the scratch buffer, and a
first acknowledgment that is not `0x0D`. -/
namespace Sys2Proof.Machine

/-! ## What a block operation does with its byte count (R185, R186, R242) -/

theorem exec_blockRead_fits (address : Addr16) {count : Byte} {s : State} (hfits : CountFits s.cfg count) :
    exec (.blockRead address count) s = settle (runFlash (readFlashBlock s.cfg address count) (setCnt count s)) :=
  if_neg (Nat.not_lt.2 hfits)

theorem exec_blockWrite_fits (address : Addr16) {length : Byte} {s : State} (hfits : CountFits s.cfg length) :
    exec (.blockWrite address length) s = settle (runFlash (writeFlashBlock s.cfg address length) (setCnt length s)) :=
  if_neg (Nat.not_lt.2 hfits)

theorem exec_blockRead_beyond (address : Addr16) {count : Byte} {s : State} (hbeyond : ¬ CountFits s.cfg count) :
    exec (.blockRead address count) s = .fault .overflow :=
  if_pos (Nat.lt_of_not_le hbeyond)

theorem exec_blockWrite_beyond (address : Addr16) {length : Byte} {s : State} (hbeyond : ¬ CountFits s.cfg length) :
    exec (.blockWrite address length) s = .fault .overflow :=
  if_pos (Nat.lt_of_not_le hbeyond)

/-- Settles O20: both operations compare the count with `N_FLASH` before they issue anything. -/
theorem blockCountBeyondScratchFaults : Obligations.BlockCountBeyondScratchFaults := by
  intro address count s hbeyond
  exact ⟨exec_blockRead_beyond address hbeyond, exec_blockWrite_beyond address hbeyond⟩

/-! ## The first acknowledgment (R183, R188, R261) -/

/-- The instruction is a routine that begins with `fpi_open(code)`, run with `n` in `CNT`. -/
def OpensWith (code n : Byte) (op : Instr) (s : State) : Prop :=
  ∃ more, exec op s = settle (runFlash (fpiOpen s.cfg code ++ more) (setCnt n s))

/-- The erase has no byte count: `CNT` is as it was. -/
theorem opensWith_deviceErase (s : State) : OpensWith s.cfg.fpiDeviceErase s.work.cnt .deviceErase s :=
  ⟨_, rfl⟩

theorem opensWith_blockRead (address : Addr16) {count : Byte} {s : State} (hfits : CountFits s.cfg count) :
    OpensWith s.cfg.fpiBlockRead count (.blockRead address count) s :=
  ⟨_, exec_blockRead_fits address hfits⟩

theorem opensWith_blockWrite (address : Addr16) {length : Byte} {s : State} (hfits : CountFits s.cfg length) :
    OpensWith s.cfg.fpiBlockWrite length (.blockWrite address length) s :=
  ⟨_, exec_blockWrite_fits address hfits⟩

/-- Settles O19: each operation begins with `fpi_open` of its command byte, and a routine that begins so returns at the
first acknowledgment. -/
theorem firstAckMismatchEndsOperation : Obligations.FirstAckMismatchEndsOperation := by
  intro op code ack l s s0 ds rest hop hl hack ha ht
  have hopens : ∃ n, s0 = setCnt n s ∧ OpensWith code n op s := by
    obtain ⟨rfl, rfl, hs0⟩ | ⟨a, n, rfl, hfits, rfl, hs0⟩ | ⟨a, n, rfl, hfits, rfl, hs0⟩ := hop
    · exact ⟨s.work.cnt, hs0, opensWith_deviceErase s⟩
    · exact ⟨n, hs0, opensWith_blockRead a hfits⟩
    · exact ⟨n, hs0, opensWith_blockWrite a hfits⟩
  obtain ⟨n, rfl, more, hexec⟩ := hopens
  obtain ⟨t, hrun, htr, hkeep, hres, hidx⟩ := opened_fail s.cfg code ack hack l hl (setCnt n s) ds rest ht ha more
  exact ⟨t, by rw [hexec, hrun, settle_done], htr.step.toRoutineFrame, (setCnt_step n s).2.trans hkeep, hidx, htr.dev,
    htr.step.seq, htr.target, htr.issued, htr.idle, hres⟩

end Sys2Proof.Machine

/-! PROOFS. INIT against a target that answers (spec/44_enable_and_identify.md): the listed answers end its five wait fields
and give its two bytes. -/
namespace Sys2Proof.Machine

/-- The answers listed first are offered. -/
theorem Offers.of_listed {s : State} {ds rest : List LineDrive} (ht : s.env.target = ds ++ rest) :
    Offers (ds.map LineDrive.level) s := by
  rw [Offers, List.length_map]
  exact ⟨answers_of_target s ds rest ht, .inl (by rw [ht, List.length_append]; exact Nat.le_add_right _ _)⟩

/-- The samples of INIT as one run from the first wait field on. -/
theorem initBits_eq_append (k1 k2 k3 k4 k5 : Nat) (id rev : Byte) : initBits k1 k2 k3 k4 k5 id rev =
    waits k1 ++ (waits k2 ++ (waits k3 ++ (waits k4 ++ byteBits id ++ (waits k5 ++ byteBits rev)))) := by
  simp only [initBits, List.append_assoc]

/-- The last address write of INIT selects `REVID` (R201). -/
theorem selected_of_initAccesses {p : Params} {id rev : Byte} {s t : State}
    (h : t.log.issued = (initAccesses p id rev).reverse ++ s.log.issued) : t.selected = some p.aRevId := by
  rw [State.selected, h]
  rfl

/-- Settles O24: the listed answers are the samples INIT takes, so it takes all of `ds` and leaves `rest`. -/
theorem initCommandEffect : Obligations.InitCommandEffect := by
  intro payload k1 k2 k3 k4 k5 id rev s ds rest hgate ht hlevels
  rw [← initBits_eq_append] at hlevels
  have hoffers : Offers (initBits k1 k2 k3 k4 k5 id rev) s := hlevels ▸ Offers.of_listed ht
  obtain ⟨t, hexec, h⟩ := exec_init_initialised payload k1 k2 k3 k4 k5 id rev s hgate hoffers
  have htarget : t.env.target = rest := by
    rw [h.target, ← hlevels, List.length_map, ht, List.drop_left]
  exact ⟨t, hexec, h.toTrafficFrame, h.keeps, h.fs, h.dev, h.led, h.tx, htarget, h.issued, h.trace,
    selected_of_initAccesses h.issued, h.command.addr, h.command.cks, h.command.sum, h.command.cnt, h.idx, h.res⟩

end Sys2Proof.Machine

/-! PROOFS. The statements about framing and the main loop (spec/45_framing.md): the byte taken in each framing state, the pass
that dispatches, and the blocks that stand still or stream because nothing takes them out of `Complete`. -/
namespace Sys2Proof.Machine

/-! ## One byte in each framing state (R211 to R213, R219) -/

/-- A length byte above `N_PAYLOAD` is caught before anything is stored (R219). -/
theorem frameStep_lengthBeyond (b : Byte) (s : State) (h : s.frame.fs = .awaitingLength)
    (hb : s.cfg.nPayload < b.toNat) : frameStep b s = .fault .overflow := by
  simp [frameStep, h, frameLength, hb, raise]

/-- Settles O36: the cursor starts over, so the byte goes to `FB[0]`. -/
theorem actionByteStored : Obligations.ActionByteStored := by
  intro b s hfs
  exact ⟨_, frameStep_awaitingAction b s hfs, rfl, rfl, Mem.read_write_same _ _ _,
    fun i hi => Mem.read_write_other _ 0 i b hi⟩

/-- Settles O37: the invariant puts the cursor at 1, which is inside every `FB`. -/
theorem lengthByteStored : Obligations.LengthByteStored := by
  intro b s hfs hinv
  obtain ⟨hcur, -, -⟩ := hinv.awaitingLength hfs
  refine ⟨frameStep_lengthBeyond b s hfs, fun hfits => ?_⟩
  have hq := frameStep_awaitingLength b s hfs hfits (by simp [hcur])
  rw [hcur] at hq
  exact ⟨_, hq, rfl, rfl, Mem.read_write_same _ _ _, fun i hi => Mem.read_write_other _ 1 i b hi⟩

/-- Settles O38: by the invariant `CUR + REM = LENGTH + 2` with `REM >= 1`, so the cursor is inside `FB`. -/
theorem payloadByteStored : Obligations.PayloadByteStored := by
  intro b s hfs hinv
  obtain ⟨-, -, hrem, hsum, -, hfits, -⟩ := hinv.awaitingPayload hfs
  have hlast : s.frame.rem - 1 = 0 ↔ s.frame.rem = 1 := sub_eq_zero
  have hq := frameStep_awaitingPayload b s hfs (by omega)
  simp only [hlast] at hq
  exact ⟨hrem, _, hq, rfl, rfl, Mem.read_write_same _ _ _, fun i hi => Mem.read_write_other _ _ i b hi⟩

/-! ## Passes of the main loop (R214, R216, R217) -/

/-- A command that fits the block has a payload that does. -/
theorem payload_le_of_decodeAction {p : Params} {action : Byte} {payload : List Byte} {i : Instr}
    (h : decodeAction p action payload = .ok i) (hi : WellFormed p i) : payload.length ≤ p.nPayload := by
  have hall : ∀ entry ∈ commandTable p payload, WellFormed p entry.2 → payload.length ≤ p.nPayload := by
    simp [commandTable]
  rw [decodeAction_eq_selectIn] at h
  exact hall _ (mem_of_selectIn h) hi

/-- The Dispatcher runs the well-formed instruction that the frame in `FB` decodes to. -/
theorem dispatch_of_decodeFrame {i : Instr} {s : State} (hd : decodeFrame s.cfg (fetchFrame s) = .ok i)
    (hi : WellFormed s.cfg i) : dispatch s = exec i s := by
  rw [decodeFrame_fetchFrame] at hd
  have hlen : s.frame.length.toNat ≤ s.cfg.nPayload := by
    simpa [fetchPayload] using payload_le_of_decodeAction hd hi
  exact dispatch_of_decodes hlen hd

/-- Settles O40: the byte completes the frame, so the pass dispatches what the framer has left. -/
theorem stepRunsDecodedFrame : Obligations.StepRunsDecodedFrame := by
  intro b rest i s q hadm hquiet hidle _ hfs hrx hq hcomplete hd hi
  exact (step_of_complete ⟨hadm, hquiet, hidle⟩ hfs hrx hq hcomplete).trans (dispatch_of_decodeFrame hd hi)

/-- In `Complete` the transport is not asked for a byte (R214). -/
theorem mainLoop_of_complete {s : State} (h : s.frame.fs = .complete) : mainLoop s = dispatchIf false s := by
  unfold mainLoop
  split
  · rfl
  · exact if_pos h

/-- A pass that has taken no byte dispatches in `Complete` under `LEVEL` only (R217). -/
theorem dispatchIf_of_complete {s : State} (h : s.frame.fs = .complete) :
    dispatchIf false s = if s.cfg.dispatchMode = .level then dispatch s else .next s := by
  simp [dispatchIf, h]

/-- The pass of a block that waits in `Complete` (R214, R217). -/
theorem State.heldComplete.step_eq {s : State} (h : s.heldComplete) :
    step s = if s.cfg.dispatchMode = .level then dispatch s else .next s := by
  obtain ⟨hfs, hidle, hquiet, hadm⟩ := h
  rw [step_mainLoop s hadm hquiet hidle, mainLoop_of_complete hfs, dispatchIf_of_complete hfs]

/-- Settles O43: no byte is asked for, and the Dispatcher's turn depends on the mode alone. -/
theorem completePassTakesNoByte : Obligations.CompletePassTakesNoByte := fun _ h => h.step_eq

/-- Settles O42: such a pass has no byte for the framer and no frame for the Dispatcher. -/
theorem idlePassDoesNothing : Obligations.IdlePassDoesNothing := by
  intro s hadm hquiet hidle hrx hfs
  have hturn : dispatchIf false s = .next s := if_neg fun ⟨hcomplete, _⟩ => hfs hcomplete
  refine run_of_fixed s ?_
  rw [step_mainLoop s hadm hquiet hidle, mainLoop, hrx]
  exact hturn

/-! ## Stalls in `Complete` that change nothing (R238, R263, R265) -/

/-- Settles O45: dispatched or not, the frame is left as it is. -/
theorem unknownActionStalls : Obligations.UnknownActionStalls := by
  intro s hheld hlen haction
  have hdispatch := dispatch_unknown hlen haction
  refine ⟨hdispatch, run_of_fixed s ?_⟩
  rw [hheld.step_eq, hdispatch, ite_self]

/-- Settles O46: no byte is asked for, so no pass dispatches. -/
theorem edgeStallIsSilent : Obligations.EdgeStallIsSilent := by
  intro s hheld hedge
  refine run_of_fixed s ?_
  rw [hheld.step_eq, if_neg (by simp [hedge])]

/-! ## The checksum stall under `LEVEL` (R217, R234, R265) -/

/-- The data bytes of the WRITE frame in `FB`, behind its address and its checksum (R94). -/
def writeData (s : State) : List Byte := (List.range (s.frame.length.toNat - 3)).map fun i => s.fbByte (i + 5)

/-- The payload of a frame long enough for WRITE, in WRITE's operands (R94). -/
theorem fetchPayload_of_three_le {s : State} (h : 3 ≤ s.frame.length.toNat) :
    fetchPayload s = s.fbByte 2 :: s.fbByte 3 :: s.fbByte 4 :: writeData s := by
  obtain ⟨n, hn⟩ := Nat.exists_eq_add_of_le' h
  simp [fetchPayload, writeData, hn, List.range_succ_eq_map, Function.comp_def]

theorem decodeAction_write (p : Params) (h : p.actionCodes.Nodup) (payload : List Byte) :
    decodeAction p p.actWrite payload = .ok (.write payload) :=
  selectIn_of_mem (table := commandTable p payload) _ h (by simp [commandTable])

/-- The block is left in `Complete` under `LEVEL` with a WRITE whose checksum does not match, and the transport accepts. -/
structure ChecksumStall (s : State) : Prop where
  held : s.heldComplete
  level : s.cfg.dispatchMode = .level
  accepts : s.env.txGateRest = true
  action : s.frame.action = s.cfg.actWrite
  operands : 3 ≤ s.frame.length.toNat
  fits : s.frame.length.toNat ≤ s.cfg.nPayload
  data : s.frame.length.toNat - 3 ≤ s.cfg.nFlash
  mismatch : checksum (s.fbByte 2) (s.fbByte 3) (writeData s) ≠ s.fbByte 4

/-- Each pass of the stalled block runs the WRITE again. -/
theorem ChecksumStall.step_eq {s : State} (h : ChecksumStall s) :
    step s = exec (.write (s.fbByte 2 :: s.fbByte 3 :: s.fbByte 4 :: writeData s)) s := by
  obtain ⟨-, -, -, hcodes, -⟩ := h.held
  rw [h.held.step_eq, if_pos h.level]
  refine dispatch_of_decodes h.fits ?_
  rw [h.action, fetchPayload_of_three_le h.operands, decodeAction_write _ hcodes]

/-- The stall depends on nothing that a reply to the host changes, `FS` apart. -/
theorem ChecksumStall.of_commandFrame {s t : State} (h : ChecksumStall s) (hkeep : CommandFrame s t)
    (hframe : t.frame = s.frame) (hseq : t.seq = s.seq) : ChecksumStall t where
  held := by simpa only [State.heldComplete, hframe, hseq, hkeep.resetIn, hkeep.cfg] using h.held
  level := by rw [hkeep.cfg, h.level]
  accepts := by rw [hkeep.txGateRest, h.accepts]
  action := by rw [hframe, hkeep.cfg, h.action]
  operands := by rw [hframe]; exact h.operands
  fits := by rw [hframe, hkeep.cfg]; exact h.fits
  data := by rw [hframe, hkeep.cfg]; exact h.data
  mismatch := by simpa only [writeData, hframe, hkeep.fbByte] using h.mismatch

/-- From `s` to `t` the block has sent `n` more bytes `0x43`, taken none, issued no two-wire instruction, and kept the framing
registers, `FB` and the pins. -/
structure Resent (n : Nat) (s t : State) : Prop where
  tx : t.env.tx = s.env.tx ++ List.replicate n 0x43
  rx : t.env.rx = s.env.rx
  frame : t.frame = s.frame
  fb : t.fb = s.fb
  pins : t.pins = s.pins
  issued : t.log.issued = s.log.issued

theorem Resent.refl (s : State) : Resent 0 s s := ⟨by simp, rfl, rfl, rfl, rfl, rfl⟩

theorem Resent.trans {n m : Nat} {s t u : State} (h : Resent n s t) (g : Resent m t u) : Resent (n + m) s u where
  tx := by rw [g.tx, h.tx, List.append_assoc, List.replicate_append_replicate]
  rx := g.rx.trans h.rx
  frame := g.frame.trans h.frame
  fb := g.fb.trans h.fb
  pins := g.pins.trans h.pins
  issued := g.issued.trans h.issued

/-- A pass of the stalled block sends one byte and stalls again. -/
theorem ChecksumStall.resent_one {s : State} (h : ChecksumStall s) :
    ∃ t, step s = .next t ∧ Resent 1 s t ∧ ChecksumStall t := by
  obtain ⟨t, hexec, hkeep, hframe, htx, hissued, -, hpins, -, hseq, -⟩ :=
    writeChecksumMismatch _ _ _ (writeData s) s h.accepts (by simpa [writeData] using h.data) h.mismatch
  exact ⟨t, h.step_eq.trans hexec, ⟨htx, hkeep.rx, hframe, hkeep.fb, hpins, hissued⟩,
    h.of_commandFrame hkeep hframe hseq⟩

/-- One more byte for each pass. -/
theorem ChecksumStall.run_resent (n : Nat) : ∀ {s : State}, ChecksumStall s →
    ∃ t, run n s = .next t ∧ Resent n s t := by
  induction n with
  | zero => exact fun {s} _ => ⟨s, rfl, .refl s⟩
  | succ n ih =>
    intro s h
    obtain ⟨m, hstep, hone, hm⟩ := h.resent_one
    obtain ⟨t, hrun, hrest⟩ := ih hm
    exact ⟨t, (run_succ n s m hstep).trans hrun, Nat.add_comm 1 n ▸ hone.trans hrest⟩

/-- Settles O47: the stall meets itself again after every pass, each of which is the WRITE with its one byte. -/
theorem levelChecksumStallStreams : Obligations.LevelChecksumStallStreams := by
  intro s hheld hlevel haccepts haction hoperands hfits hdata hmismatch n
  have h : ChecksumStall s := ⟨hheld, hlevel, haccepts, haction, hoperands, hfits, hdata, hmismatch⟩
  obtain ⟨t, hrun, hsent⟩ := h.run_resent n
  exact ⟨t, hrun, hsent.tx, hsent.rx, hsent.frame, hsent.fb, hsent.pins, hsent.issued⟩

end Sys2Proof.Machine

/-! PROOFS. The statements about the Dispatcher (spec/46_dispatcher.md): the commands that only answer the host, and the frames
that are too short or too large for their action. -/
namespace Sys2Proof.Machine

/-! ## What a reply leaves unchanged (R231, R233, R237) -/

theorem ReplyFrame.trans {s t u : State} (h : ReplyFrame s t) (g : ReplyFrame t u) : ReplyFrame s u :=
  { h.toCommandFrame.trans g.toCommandFrame with
    fl := g.fl.trans h.fl
    flByte := fun a => (g.flByte a).trans (h.flByte a)
    dev := g.dev.trans h.dev
    pins := by rw [g.pins, h.pins]
    work := by rw [g.work, h.work]
    seq := g.seq.trans h.seq
    target := g.target.trans h.target
    issued := g.issued.trans h.issued }

theorem frameReset_replyFrame (s : State) : ReplyFrame s (frameReset s) :=
  { (frameReset_step s).toCommandFrame with
    fl := rfl
    flByte := fun _ => rfl
    dev := rfl
    pins := rfl
    work := rfl
    seq := rfl
    target := rfl
    issued := rfl }

theorem setLed_replyFrame (b : Bool) (s : State) : ReplyFrame s (setLed b s) :=
  { (cmdOp_frame (.led b) s).1.toCommandFrame with
    fl := rfl
    flByte := fun _ => rfl
    dev := rfl
    pins := rfl
    work := rfl
    seq := rfl
    target := rfl
    issued := rfl }

/-! ## The commands that only answer (R231, R233, R237) -/

/-- Settles O21: the byte goes out, and then the framing state is reset. -/
theorem ackCommandEffect : Obligations.AckCommandEffect := by
  intro payload s hgate
  obtain ⟨u, hcode, hu, hwork⟩ := runCmd_tx 0x80 [.frameReset] s hgate
  have hexec : exec (.ack payload) s = .next (frameReset u) :=
    (congrArg settle hcode).trans (settle_done (frameReset u))
  exact ⟨frameReset u, hexec, hu.replyFrame.trans (frameReset_replyFrame u), hwork, rfl, congrArg Pins.led hu.pins, hu.tx,
    hu.trace⟩

/-- Settles O22: the framing state is reset, the byte goes out, and then the indicator turns off. -/
theorem resetCommandEffect : Obligations.ResetCommandEffect := by
  intro payload s hgate
  obtain ⟨u, hcode, hu, hwork⟩ := runCmd_tx 0x82 [.led false] (frameReset s) hgate
  have hexec : exec (.reset payload) s = .next (setLed false u) :=
    (congrArg settle hcode).trans (settle_done (setLed false u))
  have hkeeps : ReplyFrame s (setLed false u) :=
    ((frameReset_replyFrame s).trans hu.replyFrame).trans (setLed_replyFrame false u)
  exact ⟨setLed false u, hexec, hkeeps, hwork, by rw [setLed_frame, hu.frame, frameReset_frame], rfl, hu.tx,
    by rw [setLed_log, hu.trace]; rfl⟩

/-- The INFO response: its code, then `DEV_ID`, then `DEV_REV` (R97, R237). -/
theorem runCmd_infoResponse (s : State) (h : s.env.txGateRest = true) :
    ∃ t, runCmd infoResponse s = ({}, t) ∧ Sends [0x88, s.dev.id, s.dev.revision] s t ∧ t.work = s.work := by
  obtain ⟨u, hcode, hu, hwork⟩ := runCmd_tx 0x88 [.txDevId, .txDevRev] s h
  obtain ⟨t, hdev, ht, hwork'⟩ := runCmd_txDev [] u (by rw [hu.step.txGateRest, h])
  rw [hu.dev] at ht
  exact ⟨t, hcode.trans hdev, hu.trans ht, hwork'.trans hwork⟩

/-- Settles O23: the framing state is reset, and then the response goes out. -/
theorem infoCommandEffect : Obligations.InfoCommandEffect := by
  intro payload s hgate
  obtain ⟨t, hrun, hs, hwork⟩ := runCmd_infoResponse (frameReset s) hgate
  have hexec : exec (.info payload) s = .next t := (congrArg settle hrun).trans (settle_done t)
  exact ⟨t, hexec, (frameReset_replyFrame s).trans hs.replyFrame, hwork, by rw [hs.frame, frameReset_frame],
    congrArg Pins.led hs.pins, hs.tx, hs.trace⟩

/-! ## Frames that do not hold what their action needs, or more than `FL` can (R94, R95, R242) -/

theorem exec_write_short {payload : List Byte} (s : State) (hshort : payload.length < 3) :
    exec (.write payload) s = .fault .shortFrame :=
  match payload, hshort with
  | [], _ => rfl
  | [_], _ => rfl
  | [_, _], _ => rfl

theorem exec_read_short {payload : List Byte} (s : State) (hshort : payload.length < 4) :
    exec (.read payload) s = .fault .shortFrame :=
  match payload, hshort with
  | [], _ => rfl
  | [_], _ => rfl
  | [_, _], _ => rfl
  | [_, _, _], _ => rfl

/-- The data of a WRITE frame is its payload but for the first three bytes, so a frame with too much of it is not short. -/
theorem exec_write_large {payload : List Byte} {s : State} (hlarge : s.cfg.nFlash < payload.length - 3) :
    exec (.write payload) s = .fault .overflow :=
  match payload, hlarge with
  | _ :: _ :: _ :: _, hdata => if_pos hdata

/-- The count of a READ frame is the first byte of its payload. -/
theorem exec_read_large {payload : List Byte} {s : State} (hlong : 4 ≤ payload.length)
    (hlarge : s.cfg.nFlash < (payload.headD 0).toNat) : exec (.read payload) s = .fault .overflow :=
  match payload, hlong, hlarge with
  | _ :: _ :: _ :: _ :: _, _, hcount => if_pos hcount

/-- Settles O31: each of the two commands tests the length of its payload and then its byte count before it does anything. -/
theorem shortAndLargeFramesFault : Obligations.ShortAndLargeFramesFault := fun _ s =>
  ⟨exec_write_short s, exec_read_short s, exec_write_large, exec_read_large⟩

end Sys2Proof.Machine

/-! PROOFS. The statement about faults (spec/60_exceptions.md): a pass that stops before the reset input strikes. -/
namespace Sys2Proof.Machine

/-- A step that faults ends every run through it: a fault has no successor (R266). -/
theorem run_succ_of_fault {s : State} {f : Fault} (h : step s = .fault f) (n : Nat) : run (n + 1) s = .fault f := by
  have hcore : core.step s = Host.Outcome.fault f := h
  show Host.Core.run core (n + 1) s = (Host.Outcome.fault f : Host.Outcome core.State core.Fault core.Refusal)
  simp only [Host.Core.run, hcore]

/-- A reset that would come only after the fault of the pass leaves the pass as it is (R290, log 8). -/
theorem resetDuringPass_of_fault {k : Nat} {s : State} {f : Fault} (hfault : Machine.pass s = .fault f)
    (hbefore : s.eventsBeforeFault.length < k) : resetDuringPass k s = .fault f := by
  have hstops : (beforeStop s).log.trace.length < s.log.trace.length + k := by
    rw [beforeStop_trace, List.length_append, List.length_reverse]
    omega
  simp only [resetDuringPass, hfault, if_pos hstops]

/-- Settles O58: the pass has put its events before the fault on the record, fewer than the reset input waits for. -/
theorem faultBeforeResetStands : Obligations.FaultBeforeResetStands := by
  intro k s f hadm hreset hfault hbefore
  have hstep : step s = .fault f := (step_strike k s hadm hreset).trans (resetDuringPass_of_fault hfault hbefore)
  refine ⟨hstep, fun n t hrun => ?_⟩
  rw [run_succ_of_fault hstep n] at hrun
  cases hrun

end Sys2Proof.Machine
